-- ==== Sys2Proof/Word.lean ====
section
/-! DEFINITION. The word types of the block: a byte, the 16-bit command word, a 32-bit register
and the 64-bit interchange pattern of a binary64 value (spec/00_scope.md R12, R13; 41_filter.md R121). -/

namespace Sys2Proof

/-- A byte is 8 bits (00_scope.md R12). -/
abbrev Byte := BitVec 8

/-- The command word `CMD[15:0]` (30_encoding.md R80). -/
abbrev CmdWord := BitVec 16

/-- A 32-bit register or address (10_state.md R26 to R28, R32, R34). -/
abbrev Word32 := BitVec 32

/-- An `ACC_FORMAT` value: the 64-bit interchange pattern of an IEEE 754 binary64 number
(41_filter.md R121): sign, 11-bit biased exponent, 52-bit fraction. -/
abbrev Binary64 := BitVec 64

end Sys2Proof
end

