-- ==== Sys2Proof/Syntax.lean ====
section
/-! DEFINITION. The command set: one constructor per row of spec/opcode_table.json
(30_encoding.md R81). The operand of FILTER, BIT and BYTE is the `ARG` byte of the word; which of its
bits a command uses is 30_encoding.md R81 and R83, and the others must be 0 (WellFormed.lean). -/

namespace Sys2Proof

/-- The eleven commands of the block (30_encoding.md R81). -/
inductive Instr where
  /-- INIT (43_framing.md R150). -/
  | init
  /-- INSPECT (40_inspector.md R112). -/
  | inspect
  /-- OPEN (44_container.md R171). -/
  | openSink
  /-- FILTER `sel`, with `sel = ARG[0]` (41_filter.md R124). -/
  | filter (arg : BitVec 8)
  /-- BIT `b`, with `b = ARG[0]` (42_modulator.md R138). -/
  | bit (arg : BitVec 8)
  /-- BYTE `v`, with `v = ARG[7:0]` (42_modulator.md R139). -/
  | byte (v : BitVec 8)
  /-- GAP (43_framing.md R153). -/
  | gap
  /-- LEADER (43_framing.md R154). -/
  | leader
  /-- PAYLOAD (43_framing.md R156). -/
  | payload
  /-- CLOSE (44_container.md R175). -/
  | closeSink
  /-- ENCODE (43_framing.md R158). -/
  | encode
  deriving DecidableEq, Repr

end Sys2Proof
end

