-- ==== Sys2Proof/WellFormed.lean ====
section
/-! DEFINITION. Which instructions are legal words (30_encoding.md R81, R84): an `ARG` bit that the
operation does not use must be 0. -/

namespace Sys2Proof

/-- The `ARG` bits that a one-bit operand leaves unused, `ARG[7:1]`, are 0 (30_encoding.md R81). -/
def oneBitArg (arg : BitVec 8) : Bool :=
  arg &&& 0xFE#8 == 0#8

/-- The instruction is a legal word (30_encoding.md R82, R84). -/
def Instr.wellFormed : Instr → Bool
  | .init => true
  | .inspect => true
  | .openSink => true
  | .filter arg => oneBitArg arg
  | .bit arg => oneBitArg arg
  | .byte _ => true
  | .gap => true
  | .leader => true
  | .payload => true
  | .closeSink => true
  | .encode => true

end Sys2Proof
end

