-- ==== Sys2Proof/Decode.lean ====
section
/-! DEFINITION. The decoder of command words, total on all 65 536 of them, and the encoder
(30_encoding.md R80 to R84, R89). -/

namespace Sys2Proof

/-- Why a word is illegal (30_encoding.md R84). -/
inductive IllegalWord where
  /-- `OP` is 0x0 or 0xC to 0xF. -/
  | opcode
  /-- `Z` is not 0. -/
  | zField
  /-- An `ARG` bit that the operation does not use is 1. -/
  | argBits
  deriving DecidableEq, Repr

/-- The field `OP = CMD[15:12]` (30_encoding.md R80). -/
def opField (w : CmdWord) : BitVec 4 := w.extractLsb' 12 4

/-- The field `Z = CMD[11:8]` (30_encoding.md R80). -/
def zField (w : CmdWord) : BitVec 4 := w.extractLsb' 8 4

/-- The field `ARG = CMD[7:0]` (30_encoding.md R80). -/
def argField (w : CmdWord) : BitVec 8 := w.extractLsb' 0 8

/-- A command without operand: all of `ARG` must be 0 (30_encoding.md R81). -/
def decodeNoOperand (arg : BitVec 8) (i : Instr) : Except IllegalWord Instr :=
  if arg = 0#8 then .ok i else .error .argBits

/-- A command with a one-bit operand `ARG[0]`: `ARG[7:1]` must be 0 (30_encoding.md R81, R83). -/
def decodeOneBit (arg : BitVec 8) (i : BitVec 8 → Instr) : Except IllegalWord Instr :=
  if oneBitArg arg then .ok (i arg) else .error .argBits

/-- The operation that `OP` selects, with its operand (30_encoding.md R81). -/
def decodeOp (op : BitVec 4) (arg : BitVec 8) : Except IllegalWord Instr :=
  match op.toNat with
  | 0x1 => decodeNoOperand arg .init
  | 0x2 => decodeNoOperand arg .inspect
  | 0x3 => decodeNoOperand arg .openSink
  | 0x4 => decodeOneBit arg .filter
  | 0x5 => decodeOneBit arg .bit
  | 0x6 => .ok (.byte arg)
  | 0x7 => decodeNoOperand arg .gap
  | 0x8 => decodeNoOperand arg .leader
  | 0x9 => decodeNoOperand arg .payload
  | 0xA => decodeNoOperand arg .closeSink
  | 0xB => decodeNoOperand arg .encode
  | _ => .error .opcode

/-- The instruction a command word stands for, or why it is illegal (30_encoding.md R82, R84). -/
def decode (w : CmdWord) : Except IllegalWord Instr :=
  if zField w = 0#4 then decodeOp (opField w) (argField w) else .error .zField

/-- The operation code of an instruction (30_encoding.md R81). -/
def Instr.opcode : Instr → BitVec 4
  | .init => 0x1#4
  | .inspect => 0x2#4
  | .openSink => 0x3#4
  | .filter _ => 0x4#4
  | .bit _ => 0x5#4
  | .byte _ => 0x6#4
  | .gap => 0x7#4
  | .leader => 0x8#4
  | .payload => 0x9#4
  | .closeSink => 0xA#4
  | .encode => 0xB#4

/-- The `ARG` byte of an instruction (30_encoding.md R81, R83). -/
def Instr.argByte : Instr → BitVec 8
  | .init => 0#8
  | .inspect => 0#8
  | .openSink => 0#8
  | .filter arg => arg
  | .bit arg => arg
  | .byte v => v
  | .gap => 0#8
  | .leader => 0#8
  | .payload => 0#8
  | .closeSink => 0#8
  | .encode => 0#8

/-- The word of an instruction: `OP`, `Z = 0`, `ARG` (30_encoding.md R80). -/
def encode (i : Instr) : CmdWord :=
  i.opcode ++ (0#4 ++ i.argByte)

/-- The instruction the decoder reads from a word given as the opcode table numbers its bits. A
command is one 16-bit word presented whole, so it has no byte order (20_memory.md R59); no row of the
table is longer or shorter. -/
def decodeTableWord (nbits w : Nat) : Option Instr :=
  if nbits ≤ 16 ∧ w < 2 ^ 16 then (decode (BitVec.ofNat 16 w)).toOption else none

end Sys2Proof
end

