-- ==== Sys2Proof/Config.lean ====
section
/-! DEFINITION. Free values: what the spec leaves open, as constants without a body, so that nothing
can be proved of their value. None of them is consulted in a run whose tape image is supplied and
whose accumulators are finite. -/

namespace Sys2Proof

/-- The three operations of `ACC_FORMAT` (00_scope.md R13). -/
inductive FloatOp where
  | add
  | sub
  | mul
  deriving DecidableEq, Repr

/-- The sign and payload of the NaN that an operation on the given operands yields. IEEE 754 fixes
neither, and 41_filter.md R121 says that no NaN arises. Log 11. -/
opaque Config.nanBits : FloatOp → Binary64 → Binary64 → BitVec 52

/-- The byte `ToByte` makes of a NaN: 41_filter.md R123 and R125 speak of finite values only. Log 11. -/
opaque Config.nanSample : Binary64 → Byte

/-- The byte of the tape image at an address below `IN_LEN` that the host never supplied
(10_state.md R40: `IN[a]` is "supplied by the host"). A function of the address alone, since `IN` is
constant for the run (20_memory.md R53). Log 9. -/
opaque Config.unsuppliedByte : Nat → Byte

end Sys2Proof
end

