-- ==== Sys2Proof/Machine/State.lean ====
section
/-! DEFINITION. The state of the block as plain data (10_state.md), the reasons the model stops, and
the state after reset (10_state.md R40). -/

namespace Sys2Proof.Machine

/-- `SESS`, the session state (10_state.md R25); its 2-bit value 3 never occurs. -/
inductive Sess where
  /-- `IDLE = 0`: after reset. -/
  | idle
  /-- `OPEN = 1`: the placeholder header is in the sink. -/
  | opened
  /-- `CLOSED = 2`: lengths patched, sink finalised. -/
  | closed
  deriving DecidableEq, Repr

/-- The fault causes, in the order of their `FCAUSE` codes 0 to 6 (60_exceptions.md R185). -/
inductive Cause where
  | none
  | inputUnreadable
  | outputUnwritable
  | inputStreamFailure
  | outputStreamFailure
  | illegalCommand
  | sequenceError
  deriving DecidableEq, Repr

/-- `HDR_STAT`, the header-inspection status, codes 0 to 3 (10_state.md R31). -/
inductive HdrStat where
  | notRun
  | noHeader
  | malformed
  | found
  deriving DecidableEq, Repr

/-- A byte-addressed memory: its listed bytes, addresses strictly rising (`Memory.wf`). What an
unlisted address reads as is said by each space's reader (Ops.lean). -/
abbrev Memory := List Host.Cell

/-- The launch parameter `SINK_CAP` (00_scope.md R9): 44 ≤ `SINK_CAP` ≤ 2^32 - 1. -/
structure SinkCap where
  size : Nat
  header_fits : 44 ≤ size
  below_limit : size < 2 ^ 32
  deriving DecidableEq, Repr

/-- What the host can do between commands (70_reset_and_hazards.md R215). A write to another register
is no move of the host (93_implementation_defined.md U6). Log 2. -/
inductive HostMove where
  /-- Present a command word: write `CMD`, register 7 (10_state.md R34). -/
  | command (w : CmdWord)
  /-- `RESET` (70_reset_and_hazards.md R210). -/
  | reset
  /-- Write `CFG_SRATE`, register 0. -/
  | writeSrate (v : Word32)
  /-- Write `CFG_GAIN`, register 1. -/
  | writeGain (v : BitVec 3)
  /-- Write `IN_LEN`, register 6. -/
  | writeInLen (v : Word32)
  /-- Place one byte of the tape image in `IN`. -/
  | writeImage (addr : Word32) (v : Byte)
  /-- Drive the pins `SRC_PRESENT` and `SNK_PRESENT` (10_state.md R33). -/
  | drivePins (src snk : Bool)
  deriving DecidableEq, Repr

/-- The state of the block, of its two spaces, and of its inputs (10_state.md R20 to R37). -/
@[ext]
structure State where
  /-- `LVL`, the level flag (R21). -/
  lvl : Bool
  /-- `LP`, the low-pass accumulator (R22). -/
  lp : Binary64
  /-- `HP`, the high-pass accumulator (R23). -/
  hp : Binary64
  /-- `SESS` (R25). -/
  sess : Sess
  /-- `POS`, the sink position (R26). -/
  pos : Word32
  /-- `IPOS`, the tape-image read position (R27). -/
  ipos : Word32
  /-- `CFG_SRATE` (R28). -/
  cfgSrate : Word32
  /-- `CFG_GAIN` (R29). -/
  cfgGain : BitVec 3
  /-- `FAULT` (R30). -/
  fault : Bool
  /-- `FCAUSE` (R30). -/
  fcause : Cause
  /-- `HDR_STAT` (R31). -/
  hdrStat : HdrStat
  /-- `HDR_SIZE` (R32). -/
  hdrSize : Word32
  /-- `IN_LEN` (R34, register 6). -/
  inLen : Word32
  /-- The tape-image space `IN` (R35). -/
  img : Memory
  /-- The sink space `OUT` (R36). -/
  out : Memory
  /-- The run's `SINK_CAP` (R37; 20_memory.md R56). -/
  sinkCap : SinkCap
  /-- The pin `SRC_PRESENT` (R33). -/
  srcPresent : Bool
  /-- The pin `SNK_PRESENT` (R33). -/
  snkPresent : Bool
  /-- The environment's next answers to `SrcFail()`, in order (20_memory.md R55); once they are used
  up every further answer is false. Log 4. -/
  srcFails : List Bool
  /-- The environment's next answers to `SnkFail()`, in order, likewise. Log 4. -/
  snkFails : List Bool
  /-- The host's moves still to come, in order (30_encoding.md R87; the model's own field, log 1). -/
  hostQ : List HostMove
  /-- Whether a command has been presented since reset (the model's own field, log 3). -/
  started : Bool
  deriving DecidableEq, Repr

/-- Why the model stops with a fault: never. Every exception of the block is a next state with
`FAULT = 1` (60_exceptions.md R195), and no access can leave the two spaces. So there is no
constructor and nobody raises one, which is safe. Log 19. -/
inductive Fault where
  deriving DecidableEq, Repr

/-- Why the model gives a step no meaning. -/
inductive Refusal where
  /-- Raised by an arm of `exec` whose instruction has no meaning yet; safe. No arm does. -/
  | notModelled (mnemonic : String)
  /-- Raised by `presentCommand` when a command is presented with `CFG_SRATE` or `CFG_GAIN` outside
  the legal sets: the spec refuses such a launch (00_scope.md R8, 60_exceptions.md R188,
  93_implementation_defined.md U1); safe. Log 10. -/
  | illegalConfiguration
  /-- Raised by the host's write moves after the first command of the run: the spec gives them no
  defined result (20_memory.md R66, 70_reset_and_hazards.md R217, 93 U6); safe. Log 2. -/
  | writeAfterFirstCommand
  /-- Answered by `hostReadOut` when `DONE` does not hold or the address is not below `POS`
  (20_memory.md R66, 93 U2, U6); safe. Log 24. -/
  | sinkNotReadable
  /-- Answered by `hostReadReg` for register 7, which is write-only, and for a number that names no
  register (10_state.md R34); safe. Log 24. -/
  | noReadableRegister
  /-- Answered by `decodeStatus` for `SESS = 3` or `FCAUSE = 7` (93 U10); safe. Log 21. -/
  | unreachableStatus
  deriving DecidableEq, Repr

/-- The state after reset: the values of the table in 10_state.md R40. Not given by the spec and
chosen here: `inLen` (log 7), `sinkCap` (log 5), the pins (log 6), the answers (log 4), `hostQ`
(log 1) and `started` (log 3). `IN` and `OUT` list nothing (logs 8 and 9). -/
def State.reset : State where
  lvl := false
  lp := 0#64
  hp := 0#64
  sess := .idle
  pos := 0#32
  ipos := 0#32
  cfgSrate := 44100#32
  cfgGain := 6#3
  fault := false
  fcause := .none
  hdrStat := .notRun
  hdrSize := 0#32
  inLen := 0#32
  img := []
  out := []
  sinkCap := ⟨2 ^ 32 - 1, by decide, by decide⟩
  srcPresent := true
  snkPresent := true
  srcFails := []
  snkFails := []
  hostQ := []
  started := false

end Sys2Proof.Machine
end

