-- ==== Sys2Proof/Machine/Params.lean ====
section
/-! DEFINITION. The constants of 00_scope.md R7 and the parameter values the spec takes in R9. -/

namespace Sys2Proof.Machine

/-- `K_LP`, the binary64 nearest to 0.5577, `0x1.1d8adab9f559bp-1` (41_filter.md R121). -/
def kLp : Binary64 := 0x3FE1D8ADAB9F559B#64

/-- `K_HP`, the binary64 nearest to 0.0070984, `0x1.d13363da9aebbp-8` (41_filter.md R121). -/
def kHp : Binary64 := 0x3F7D13363DA9AEBB#64

/-- `CLIP` (R7): the clamp bound of `ToByte`. -/
def clip : Int := 127

/-- `OFFSET` (R7): signed to offset-binary. -/
def offsetMask : Byte := 0x80#8

/-- `BAUD` (R7): bit slots per second. -/
def baud : Nat := 1150

/-- `SIL_CYCLES` (R7): length of a silence gap in tape cycles. -/
def silCycles : Nat := 15000

/-- `CYCLE_HZ` (R7): tape cycles per second. -/
def cycleHz : Nat := 2216750

/-- `LEADER_COUNT` (R7). -/
def leaderCount : Nat := 255

/-- `LEADER_BYTE` (R7). -/
def leaderByte : Byte := 0xAA#8

/-- `GAIN_MULT` (R7). -/
def gainMult : Nat := 15

/-- `HDR_BYTES` (R7): container header size. -/
def hdrBytes : Nat := 44

/-- `MARKER` (R7): the byte after the zero terminator. -/
def marker : Byte := 0x66#8

/-- `SIG` (R7, 30_encoding.md R95): "Colour Genie - Virtual Tape File". -/
def sig : List Byte :=
  [0x43#8, 0x6F#8, 0x6C#8, 0x6F#8, 0x75#8, 0x72#8, 0x20#8, 0x47#8,
   0x65#8, 0x6E#8, 0x69#8, 0x65#8, 0x20#8, 0x2D#8, 0x20#8, 0x56#8] ++
  [0x69#8, 0x72#8, 0x74#8, 0x75#8, 0x61#8, 0x6C#8, 0x20#8, 0x54#8,
   0x61#8, 0x70#8, 0x65#8, 0x20#8, 0x46#8, 0x69#8, 0x6C#8, 0x65#8]

/-- `AMP_LOW` (R9, D7): filter input while `LVL = 0`. -/
def ampLow : Int := 0

/-- `LVL_RESET` (R9, D8): `LVL` after INIT. -/
def lvlReset : Bool := false

/-- `PLACEHOLDER` (R9, D12): the length fields written by OPEN. -/
def placeholder : Word32 := 0#32

/-- The legal sample rates (R8). -/
def legalRates : List Word32 := [48000#32, 44100#32, 22050#32, 11025#32, 8000#32]

end Sys2Proof.Machine
end

