-- ==== Sys2Proof/Machine/Flags.lean ====
section
/-! DEFINITION. Flags and status: the codes of `SESS`, `FCAUSE` and `HDR_STAT`, register 2 `STATUS`
(10_state.md R25, R30, R31, R34), `DONE` (R39), the legal session states of each command
(30_encoding.md R85), what acceptance samples (R86), and the legal launches (00_scope.md R8). -/

namespace Sys2Proof.Machine

/-- The 2-bit code of `SESS` (10_state.md R25). -/
def Sess.code : Sess → BitVec 2
  | .idle => 0#2
  | .opened => 1#2
  | .closed => 2#2

/-- The 3-bit code of `FCAUSE` (60_exceptions.md R185). -/
def Cause.code : Cause → BitVec 3
  | .none => 0#3
  | .inputUnreadable => 1#3
  | .outputUnwritable => 2#3
  | .inputStreamFailure => 3#3
  | .outputStreamFailure => 4#3
  | .illegalCommand => 5#3
  | .sequenceError => 6#3

/-- The 2-bit code of `HDR_STAT` (10_state.md R31). -/
def HdrStat.code : HdrStat → BitVec 2
  | .notRun => 0#2
  | .noHeader => 1#2
  | .malformed => 2#2
  | .found => 3#2

/-- Register 2, `STATUS`: [1:0] `SESS`, [2] `FAULT`, [5:3] `FCAUSE`, [7:6] `HDR_STAT`
(10_state.md R34). -/
def statusByte (s : State) : Byte :=
  s.hdrStat.code ++ (s.fcause.code ++ (BitVec.ofBool s.fault ++ s.sess.code))

/-- The `SESS` value of a code; 3 is unreachable and refused (93_implementation_defined.md U10). -/
def sessOfCode (c : BitVec 2) : Except Refusal Sess :=
  match c.toNat with
  | 0 => .ok .idle
  | 1 => .ok .opened
  | 2 => .ok .closed
  | _ => .error .unreachableStatus

/-- The `FCAUSE` value of a code; 7 is unreachable and refused (93 U10). -/
def causeOfCode (c : BitVec 3) : Except Refusal Cause :=
  match c.toNat with
  | 0 => .ok .none
  | 1 => .ok .inputUnreadable
  | 2 => .ok .outputUnwritable
  | 3 => .ok .inputStreamFailure
  | 4 => .ok .outputStreamFailure
  | 5 => .ok .illegalCommand
  | 6 => .ok .sequenceError
  | _ => .error .unreachableStatus

/-- The `HDR_STAT` value of a code (10_state.md R31). -/
def hdrStatOfCode (c : BitVec 2) : HdrStat :=
  match c.toNat with
  | 0 => .notRun
  | 1 => .noHeader
  | 2 => .malformed
  | _ => .found

/-- A reader of `STATUS` (10_state.md R34, 93 U10). -/
def decodeStatus (b : Byte) : Except Refusal (Sess × Bool × Cause × HdrStat) :=
  match sessOfCode (b.extractLsb' 0 2), causeOfCode (b.extractLsb' 3 3) with
  | .ok se, .ok ca => .ok (se, b.getLsbD 2, ca, hdrStatOfCode (b.extractLsb' 6 2))
  | .error r, _ => .error r
  | .ok _, .error r => .error r

/-- `DONE`: `SESS = CLOSED and FAULT = 0` (10_state.md R39). -/
def State.done (s : State) : Bool := s.sess == .closed && !s.fault

/-- The session states in which a command is legal (30_encoding.md R85). -/
def legalIn : Instr → Sess → Bool
  | .init, se => se == .idle
  | .inspect, se => se == .idle
  | .openSink, se => se == .idle
  | .encode, se => se == .idle
  | .filter _, se => se == .opened
  | .bit _, se => se == .opened
  | .byte _, se => se == .opened
  | .gap, se => se == .opened
  | .leader, se => se == .opened
  | .payload, se => se == .opened
  | .closeSink, se => se == .opened

/-- The commands at whose acceptance `SRC_PRESENT` is sampled (30_encoding.md R86 step 4). -/
def needsSource : Instr → Bool
  | .inspect => true
  | .payload => true
  | .encode => true
  | .init => false
  | .openSink => false
  | .filter _ => false
  | .bit _ => false
  | .byte _ => false
  | .gap => false
  | .leader => false
  | .closeSink => false

/-- The commands at whose acceptance `SNK_PRESENT` is sampled (30_encoding.md R86 step 5). -/
def needsSink : Instr → Bool
  | .openSink => true
  | .encode => true
  | .init => false
  | .inspect => false
  | .filter _ => false
  | .bit _ => false
  | .byte _ => false
  | .gap => false
  | .leader => false
  | .payload => false
  | .closeSink => false

/-- `SRATE` and `GAIN` are in the legal sets (00_scope.md R8); another launch is refused by the model
(R188). Log 10. -/
def launchLegal (s : State) : Bool :=
  legalRates.contains s.cfgSrate && s.cfgGain != 0#3

end Sys2Proof.Machine
end

