-- ==== Sys2Proof/Machine/Float.lean ====
section
/-! DEFINITION. IEEE 754 binary64 with round to nearest, ties to even, after each operation
(`ACC_FORMAT`, 41_filter.md R121). A finite value is an exact integer count of units of 2^-1074, so a
sum is an integer sum, a product an integer product (in units of 2^-2148), and each operation rounds
that exact result once. -/

namespace Sys2Proof.Machine

/-- The sign bit. -/
def f64Sign (x : Binary64) : Bool := x.getLsbD 63

/-- The biased exponent field. -/
def f64Expo (x : Binary64) : Nat := x.toNat / 2 ^ 52 % 2 ^ 11

/-- The fraction field. -/
def f64Frac (x : Binary64) : Nat := x.toNat % 2 ^ 52

/-- The value is a NaN. -/
def f64IsNaN (x : Binary64) : Bool := f64Expo x == 2047 && f64Frac x != 0

/-- The value is an infinity. -/
def f64IsInf (x : Binary64) : Bool := f64Expo x == 2047 && f64Frac x == 0

/-- The value is finite: neither an infinity nor a NaN. -/
def f64IsFinite (x : Binary64) : Bool := f64Expo x != 2047

/-- The magnitude of a finite value in units of 2^-1074, subnormals included; of an infinity, 2^2098,
which is above every finite magnitude. -/
def f64Mag (x : Binary64) : Nat :=
  if f64Expo x = 0 then f64Frac x else (2 ^ 52 + f64Frac x) * 2 ^ (f64Expo x - 1)

/-- The exact value in units of 2^-1074. -/
def f64Units (x : Binary64) : Int :=
  if f64Sign x then -(f64Mag x : Int) else f64Mag x

/-- A sign and the other 63 bits as one pattern. -/
def f64Pack (sign : Bool) (low : Nat) : Binary64 :=
  BitVec.ofNat 64 ((if sign then 2 ^ 63 else 0) + low)

/-- `n / 2^sh` rounded to the nearest integer, ties to even. -/
def roundHalfEven (n sh : Nat) : Nat :=
  let q := n / 2 ^ sh
  let r := n % 2 ^ sh
  if 2 * r > 2 ^ sh ∨ (2 * r = 2 ^ sh ∧ q % 2 = 1) then q + 1 else q

/-- The binary64 nearest to `n * 2^-(1074 + extra)`, ties to even, with the given sign; infinity from
the overflow threshold on. A 53-bit significand `q` with unit `2^(e - 1074)` has the pattern
`e * 2^52 + q`, both for normal and for subnormal numbers. -/
def f64Round (sign : Bool) (n extra : Nat) : Binary64 :=
  let sh := max extra (n.log2 - 52)
  f64Pack sign (min ((sh - extra) * 2 ^ 52 + roundHalfEven n sh) (2047 * 2 ^ 52))

/-- `real(n)`: an integer as a binary64 (00_scope.md R13); exact below 2^53. -/
def f64OfInt (n : Int) : Binary64 :=
  f64Round (decide (n < 0)) (n.natAbs * 2 ^ 1074) 0

/-- The quiet NaN an operation yields: sign and payload are free (Config). Log 11. -/
def f64NaN (op : FloatOp) (x y : Binary64) : Binary64 :=
  let bits := Config.nanBits op x y
  f64Pack (bits.getLsbD 51) (2047 * 2 ^ 52 + 2 ^ 51 + bits.toNat % 2 ^ 51)

/-- The negated value (the sign bit inverted). -/
def f64Neg (x : Binary64) : Binary64 := x ^^^ 0x8000000000000000#64

/-- The correctly rounded sum of two values that are no NaN, for the operation `op` on `a`, `b`. An
exact zero sum is +0 unless both summands are negative zeros. -/
def f64Sum (op : FloatOp) (a b x y : Binary64) : Binary64 :=
  if f64IsInf x then
    if f64IsInf y && f64Sign x != f64Sign y then f64NaN op a b else x
  else if f64IsInf y then y
  else
    let v := f64Units x + f64Units y
    if v = 0 then f64Pack (f64Sign x && f64Sign y) 0
    else f64Round (decide (v < 0)) v.natAbs 0

/-- `fadd` (00_scope.md R13). -/
def fadd (x y : Binary64) : Binary64 :=
  if f64IsNaN x || f64IsNaN y then f64NaN .add x y else f64Sum .add x y x y

/-- `fsub` (00_scope.md R13). -/
def fsub (x y : Binary64) : Binary64 :=
  if f64IsNaN x || f64IsNaN y then f64NaN .sub x y else f64Sum .sub x y x (f64Neg y)

/-- `fmul` (00_scope.md R13). -/
def fmul (x y : Binary64) : Binary64 :=
  let sign := f64Sign x != f64Sign y
  if f64IsNaN x || f64IsNaN y then f64NaN .mul x y
  else if f64IsInf x || f64IsInf y then
    if f64Mag x == 0 || f64Mag y == 0 then f64NaN .mul x y else f64Pack sign (2047 * 2 ^ 52)
  else f64Round sign (f64Mag x * f64Mag y) 1074

/-- The ordered comparison `x < y`; false if either is a NaN. -/
def f64Lt (x y : Binary64) : Bool :=
  !f64IsNaN x && !f64IsNaN y && decide (f64Units x < f64Units y)

/-- The integer part toward zero of a finite value (`TRUNC_MODE`, 00_scope.md R9, D6). -/
def f64Trunc (x : Binary64) : Int :=
  let t : Int := (f64Mag x / 2 ^ 1074 : Nat)
  if f64Sign x then -t else t

end Sys2Proof.Machine
end

