-- ==== Sys2Proof/Machine/Operands.lean ====
section
/-! DEFINITION. Operand forms and derived values: the bit and byte operands (30_encoding.md R83,
20_memory.md R58), amplitudes (00_scope.md R11, R17), half-cycle and gap lengths (42_modulator.md R135,
43_framing.md R151, R152), little-endian strings (00_scope.md R13) and the container header
(30_encoding.md R97). -/

namespace Sys2Proof.Machine

/-- The one-bit operand `ARG[0]` of FILTER and BIT (30_encoding.md R83). -/
def argBit (arg : BitVec 8) : Bool := arg.getLsbD 0

/-- The bits of a byte in the order sent, bits 7 down to 0 (20_memory.md R58). -/
def bitsMsbFirst (v : Byte) : List Bool :=
  [v.getLsbD 7, v.getLsbD 6, v.getLsbD 5, v.getLsbD 4, v.getLsbD 3, v.getLsbD 2, v.getLsbD 1, v.getLsbD 0]

/-- The gain amplitude `GAIN * 15` (00_scope.md R11). -/
def gainAmp (gain : BitVec 3) : Int := (gain.toNat * gainMult : Nat)

/-- The filter input a level selects: `GAIN * 15` for 1, `AMP_LOW` for 0 (30_encoding.md R93). -/
def levelAmp (gain : BitVec 3) (lvl : Bool) : Int :=
  if lvl then gainAmp gain else ampLow

/-- `Amp()`: the amplitude the level flag selects (00_scope.md R17). -/
def amp (s : State) : Int := levelAmp s.cfgGain s.lvl

/-- The amplitude FILTER's operand selects: 0 the silence amplitude, 1 the gain amplitude
(41_filter.md R124). -/
def selAmp (gain : BitVec 3) (sel : Bool) : Int :=
  if sel then gainAmp gain else 0

/-- `round(a / b) = floor(a / b + 1/2)` for non-negative integers (00_scope.md R13). -/
def roundQuotient (a b : Nat) : Nat := (2 * a + b) / (2 * b)

/-- `Period(b) = round(SRATE / (1150 * (b + 1)))` (42_modulator.md R135). -/
def period (srate : Word32) (b : Bool) : Nat :=
  roundQuotient srate.toNat (baud * (b.toNat + 1))

/-- `CyclesToSamples(c) = (c * SRATE) div 2216750` (43_framing.md R151). -/
def cyclesToSamples (srate : Word32) (c : Nat) : Nat := c * srate.toNat / cycleHz

/-- `NSIL = CyclesToSamples(15000)` (43_framing.md R152). -/
def nsil (srate : Word32) : Nat := cyclesToSamples srate silCycles

/-- `le32(n)`: four bytes, least significant first (00_scope.md R13). -/
def le32 (w : Word32) : List Byte :=
  [w.extractLsb' 0 8, w.extractLsb' 8 8, w.extractLsb' 16 8, w.extractLsb' 24 8]

/-- `le16(n)`: two bytes, least significant first (00_scope.md R13). -/
def le16 (w : BitVec 16) : List Byte :=
  [w.extractLsb' 0 8, w.extractLsb' 8 8]

/-- The container tag `RIFF` (30_encoding.md R97). -/
def tagRiff : List Byte := [0x52#8, 0x49#8, 0x46#8, 0x46#8]

/-- The format tag `WAVEfmt ` with its space (30_encoding.md R97). -/
def tagWaveFmt : List Byte := [0x57#8, 0x41#8, 0x56#8, 0x45#8, 0x66#8, 0x6D#8, 0x74#8, 0x20#8]

/-- The data tag `data` (30_encoding.md R97). -/
def tagData : List Byte := [0x64#8, 0x61#8, 0x74#8, 0x61#8]

/-- The 44-byte container header with the given length fields (30_encoding.md R97, R171): format
length 16, PCM, mono, sample rate, byte rate, block alignment 1, 8 bits per sample. -/
def containerHeader (totalLength dataLength srate : Word32) : List Byte :=
  tagRiff ++ le32 totalLength ++ tagWaveFmt ++ le32 16#32 ++ le16 1#16 ++ le16 1#16 ++
  le32 srate ++ le32 srate ++ le16 1#16 ++ le16 8#16 ++ tagData ++ le32 dataLength

end Sys2Proof.Machine
end

