-- ==== Sys2Proof/Machine/Ops.lean ====
section
/-! DEFINITION. The shared operations: the two memories, `raise` and reset, stream failures, `Append`,
`ReadIn`, `Filter`, `Sample` (00_scope.md R15 to R17, 20_memory.md R50 to R56, 41_filter.md R122,
R123, 60_exceptions.md R195, 70_reset_and_hazards.md R210), loops, and acceptance (30_encoding.md
R86). -/

namespace Sys2Proof.Machine

/-! ### Memories -/

/-- The canonical form of a memory: addresses strictly rising. -/
abbrev Memory.wf (m : Memory) : Prop := (m.map Prod.fst).Pairwise (· < ·)

/-- The listed byte at an address; an unlisted address has no value here. -/
def Memory.read : Memory → Nat → Option Byte
  | [], _ => none
  | (k, v) :: m, a => if k = a then some v else Memory.read m a

/-- Write one byte, keeping the addresses rising. -/
def Memory.write : Memory → Nat → Byte → Memory
  | [], a, b => [(a, b)]
  | (k, v) :: m, a, b =>
    if a < k then (a, b) :: (k, v) :: m
    else if a = k then (a, b) :: m
    else (k, v) :: Memory.write m a b

/-- Write a string of bytes at ascending addresses (20_memory.md R54). -/
def Memory.writeBytes : Memory → Nat → List Byte → Memory
  | m, _, [] => m
  | m, a, b :: bs => Memory.writeBytes (Memory.write m a b) (a + 1) bs

/-- `MemRead(addr, 1)`: the byte `IN[addr]` (20_memory.md R53). A byte the host never supplied is a
free value. Log 9. -/
def memRead (s : State) (addr : Nat) : Byte :=
  (s.img.read addr).getD (Config.unsuppliedByte addr)

/-- `MemWrite(addr, n, v)` on the sink space (20_memory.md R54). -/
def memWrite (s : State) (addr : Nat) (v : List Byte) : State :=
  { s with out := s.out.writeBytes addr v }

/-! ### The result of running a command, or a part of one -/

/-- How a part of a command ends: it completes, or it raised and the command stops there with its
earlier effects kept (00_scope.md R16). -/
inductive Run where
  | done (s : State)
  | raised (s : State)
  deriving DecidableEq, Repr

/-- The state a run leaves. -/
def Run.state : Run → State
  | .done s => s
  | .raised s => s

/-- Go on with the next statement unless the run raised (00_scope.md R16). -/
def Run.andThen : Run → (State → Run) → Run
  | .done s, f => f s
  | .raised s, _ => .raised s

/-- `repeat n times`. -/
def repeatRun : Nat → (State → Run) → State → Run
  | 0, _, s => .done s
  | n + 1, f, s => (f s).andThen (repeatRun n f)

/-- Run a statement for each element of a list, in order. -/
def forEachRun {α : Type} : List α → (α → State → Run) → State → Run
  | [], _, s => .done s
  | x :: xs, f, s => (f x s).andThen (forEachRun xs f)

/-! ### Taking an exception, and the way out of one -/

/-- `raise X` (60_exceptions.md R195): `FAULT <- 1`, `FCAUSE <- code(X)`, stop. Nothing else changes;
no state is saved and there is no handler. -/
def raise (c : Cause) (s : State) : Run :=
  .raised { s with fault := true, fcause := c }

/-- `RESET` (70_reset_and_hazards.md R210): every register at its reset value; the only way out of
`FAULT = 1` and of `CLOSED` (60_exceptions.md R197: there is no return from a fault). The launch
parameter, the pins, the environment's answers and the host's moves are not registers and stay; `IN`
and `OUT` are unspecified again. Log 17. -/
def resetEvent (s : State) : State :=
  { State.reset with
    sinkCap := s.sinkCap, srcPresent := s.srcPresent, snkPresent := s.snkPresent
    srcFails := s.srcFails, snkFails := s.snkFails, hostQ := s.hostQ }

/-! ### Streams -/

/-- The environment's next answer: the head of its list; once the list is used up every answer is
false. Log 4. -/
def nextAnswer : List Bool → Bool
  | [] => false
  | b :: _ => b

/-- Ask `SnkFail()` (20_memory.md R55): the answer is taken from the list. Log 4. -/
def askSnkFail (s : State) : Bool × State :=
  (nextAnswer s.snkFails, { s with snkFails := s.snkFails.tail })

/-- Ask `SrcFail()` (20_memory.md R55): the answer is taken from the list. Log 4. -/
def askSrcFail (s : State) : Bool × State :=
  (nextAnswer s.srcFails, { s with srcFails := s.srcFails.tail })

/-- `Append(b)` (00_scope.md R17, 20_memory.md R56): one byte at `POS`, then `POS + 1`. -/
def append (b : Byte) (s : State) : Run :=
  if s.sinkCap.size ≤ s.pos.toNat then raise .outputStreamFailure s
  else
    let (fails, s) := askSnkFail s
    if fails then raise .outputStreamFailure s
    else
      let s := memWrite s s.pos.toNat [b]
      .done { s with pos := s.pos + 1#32 }

/-- One patch of CLOSE (44_container.md R175): ask `SnkFail()`, then write at a fixed address. -/
def patch (addr : Nat) (v : List Byte) (s : State) : Run :=
  let (fails, s) := askSnkFail s
  if fails then raise .outputStreamFailure s else .done (memWrite s addr v)

/-- What `ReadIn()` answers: a byte, the end of the image, or a raise. -/
inductive ReadIn where
  | byte (v : Byte) (s : State)
  | eof (s : State)
  | raised (s : State)
  deriving DecidableEq, Repr

/-- `ReadIn()` (00_scope.md R17, 20_memory.md R51). -/
def readIn (s : State) : ReadIn :=
  if s.inLen.toNat ≤ s.ipos.toNat then .eof s
  else
    let (fails, s) := askSrcFail s
    if fails then .raised (raise .inputStreamFailure s).state
    else
      let v := memRead s s.ipos.toNat
      .byte v { s with ipos := s.ipos + 1#32 }

/-! ### The tone filter -/

/-- `ToByte(y)`: clamp, truncate toward zero, offset (41_filter.md R123). The byte of a NaN is free.
Log 11.
(Irreducible, as the two updates below, so that no elaboration runs the arithmetic by accident; the kernel
computes them all the same.) -/
@[irreducible] def toByte (y : Binary64) : Byte :=
  if f64IsNaN y then Config.nanSample y
  else
    let c := if f64Lt y (f64OfInt (-clip)) then f64OfInt (-clip) else y
    let c := if f64Lt (f64OfInt clip) c then f64OfInt clip else c
    BitVec.ofInt 8 (f64Trunc c) ^^^ offsetMask

/-- The new `LP` (41_filter.md R122, first line). -/
@[irreducible] def nextLp (level : Int) (lp : Binary64) : Binary64 :=
  fadd lp (fmul (fsub (f64OfInt level) lp) kLp)

/-- The new `HP`, from the `LP` just written (41_filter.md R122, second line). -/
@[irreducible] def nextHp (lp hp : Binary64) : Binary64 :=
  fadd hp (fmul (fsub lp hp) kHp)

/-- `Filter(level)`: the sample byte and the state with both accumulators updated
(41_filter.md R122). -/
def toneFilter (level : Int) (s : State) : Byte × State :=
  let lp := nextLp level s.lp
  let hp := nextHp lp s.hp
  (toByte (fsub lp hp), { s with lp := lp, hp := hp })

/-- `Sample(level)`: filter, then append (00_scope.md R17). -/
def sample (level : Int) (s : State) : Run :=
  let (b, s) := toneFilter level s
  append b s

/-! ### Acceptance -/

/-- `Accept` (30_encoding.md R86): the checks in order, then the operation's rule. Step 2 for words
that decode to no instruction is `rejectWord`; an instruction whose word is illegal raises here. -/
def accept (i : Instr) (run : State → Run) (s : State) : State :=
  if s.fault then s
  else if !i.wellFormed then (raise .illegalCommand s).state
  else if !legalIn i s.sess then (raise .sequenceError s).state
  else if needsSource i && !s.srcPresent then (raise .inputUnreadable s).state
  else if needsSink i && !s.snkPresent then (raise .outputUnwritable s).state
  else (run s).state

/-- A word that is no instruction (30_encoding.md R84, R86 steps 1 and 2): refused without effect
while `FAULT = 1`, else `IllegalCommand`. -/
def rejectWord (s : State) : State :=
  if s.fault then s else (raise .illegalCommand s).state

end Sys2Proof.Machine
end

