-- ==== Sys2Proof/Machine/Filter.lean ====
section
/-! DEFINITION. Tone Filter: FILTER (41_filter.md). -/

namespace Sys2Proof.Machine

/-- FILTER `sel` after acceptance (41_filter.md R124). -/
def runFilter (arg : BitVec 8) (s : State) : Run :=
  sample (selAmp s.cfgGain (argBit arg)) s

/-- FILTER (41_filter.md R124). -/
def execFilter (arg : BitVec 8) (s : State) : Host.Outcome State Fault Refusal :=
  .next (accept (.filter arg) (runFilter arg) s)

end Sys2Proof.Machine
end

