-- ==== Sys2Proof/Machine/Container.lean ====
section
/-! DEFINITION. Container Writer: OPEN and CLOSE (44_container.md). -/

namespace Sys2Proof.Machine

/-- OPEN after acceptance: append the placeholder header, then `SESS <- OPEN` (44_container.md
R171). -/
def runOpen (s : State) : Run :=
  (forEachRun (containerHeader placeholder placeholder s.cfgSrate) append s).andThen fun s =>
    .done { s with sess := .opened }

/-- `total_length = POS - 8` (44_container.md R173). -/
def totalLength (s : State) : Word32 := s.pos - 8#32

/-- `data_length = POS - 44` (44_container.md R173). -/
def dataLength (s : State) : Word32 := s.pos - 44#32

/-- CLOSE after acceptance: patch both length fields, then `SESS <- CLOSED` (44_container.md R175). -/
def runClose (s : State) : Run :=
  (patch 4 (le32 (totalLength s)) s).andThen fun s =>
    (patch 40 (le32 (dataLength s)) s).andThen fun s =>
      .done { s with sess := .closed }

/-- OPEN (44_container.md R171). -/
def execOpenSink (s : State) : Host.Outcome State Fault Refusal :=
  .next (accept .openSink runOpen s)

/-- CLOSE (44_container.md R175). -/
def execCloseSink (s : State) : Host.Outcome State Fault Refusal :=
  .next (accept .closeSink runClose s)

end Sys2Proof.Machine
end

