-- ==== Sys2Proof/Machine/Modulator.lean ====
section
/-! DEFINITION. Bit/Byte Modulator: BIT and BYTE (42_modulator.md). -/

namespace Sys2Proof.Machine

/-- `LVL <- 1 - LVL` (42_modulator.md R136). -/
def toggleLvl (s : State) : State := { s with lvl := !s.lvl }

/-- `Half(n)`: `n` samples at the current level, then toggle it (42_modulator.md R136). If a sample
raises, the toggle does not happen. -/
def half (n : Nat) (s : State) : Run :=
  (repeatRun n (fun s => sample (amp s) s) s).andThen fun s => .done (toggleLvl s)

/-- BIT `b` after acceptance (42_modulator.md R138). -/
def runBit (b : Bool) (s : State) : Run :=
  let p := period s.cfgSrate b
  if b then (half p s).andThen (half p) else half p s

/-- BYTE `v` after acceptance: `BIT v[7]` down to `BIT v[0]` (42_modulator.md R139). -/
def runByte (v : Byte) (s : State) : Run :=
  forEachRun (bitsMsbFirst v) runBit s

/-- BIT (42_modulator.md R138). -/
def execBit (arg : BitVec 8) (s : State) : Host.Outcome State Fault Refusal :=
  .next (accept (.bit arg) (runBit (argBit arg)) s)

/-- BYTE (42_modulator.md R139). -/
def execByte (v : BitVec 8) (s : State) : Host.Outcome State Fault Refusal :=
  .next (accept (.byte v) (runByte v) s)

end Sys2Proof.Machine
end

