-- ==== Sys2Proof/Machine/Framing.lean ====
section
/-! DEFINITION. Framing Encoder: INIT, GAP, LEADER, PAYLOAD and ENCODE (43_framing.md). -/

namespace Sys2Proof.Machine

/-- INIT after acceptance (43_framing.md R150). -/
def runInit (s : State) : Run :=
  .done { s with lp := 0#64, hp := 0#64, lvl := lvlReset }

/-- GAP after acceptance: `NSIL` samples of the silence amplitude (43_framing.md R153). -/
def runGap (s : State) : Run :=
  repeatRun (nsil s.cfgSrate) (sample 0) s

/-- LEADER after acceptance: `BYTE 0xAA`, 255 times (43_framing.md R154). -/
def runLeader (s : State) : Run :=
  repeatRun leaderCount (runByte leaderByte) s

/-- The loop of PAYLOAD: read a byte, send it (43_framing.md R156). The bound is the number of bytes
left: after that many reads `ReadIn` answers `EOF` and nothing more happens. -/
def payloadLoop : Nat → State → Run
  | 0, s => .done s
  | n + 1, s =>
    match readIn s with
    | .eof s => .done s
    | .raised s => .raised s
    | .byte v s => (runByte v s).andThen (payloadLoop n)

/-- PAYLOAD after acceptance: the whole image from offset 0 (43_framing.md R156). -/
def runPayload (s : State) : Run :=
  payloadLoop s.inLen.toNat { s with ipos := 0#32 }

/-- ENCODE after acceptance: its seven operations in order, without a new acceptance check
(43_framing.md R158). -/
def runEncode (s : State) : Run :=
  (((((((runInit s).andThen runOpen).andThen runGap).andThen runLeader).andThen runPayload).andThen
    runGap).andThen runClose)

/-- INIT (43_framing.md R150). -/
def execInit (s : State) : Host.Outcome State Fault Refusal :=
  .next (accept .init runInit s)

/-- GAP (43_framing.md R153). -/
def execGap (s : State) : Host.Outcome State Fault Refusal :=
  .next (accept .gap runGap s)

/-- LEADER (43_framing.md R154). -/
def execLeader (s : State) : Host.Outcome State Fault Refusal :=
  .next (accept .leader runLeader s)

/-- PAYLOAD (43_framing.md R156). -/
def execPayload (s : State) : Host.Outcome State Fault Refusal :=
  .next (accept .payload runPayload s)

/-- ENCODE (43_framing.md R158). -/
def execEncode (s : State) : Host.Outcome State Fault Refusal :=
  .next (accept .encode runEncode s)

end Sys2Proof.Machine
end

