-- ==== Sys2Proof/Machine/Inspector.lean ====
section
/-! DEFINITION. Header Inspector: INSPECT (40_inspector.md). -/

namespace Sys2Proof.Machine

/-- Record the outcome of an inspection in `HDR_STAT` and `HDR_SIZE` (40_inspector.md R112). -/
def setHeader (st : HdrStat) (size : Word32) (s : State) : Run :=
  .done { s with hdrStat := st, hdrSize := size }

/-- Compare the next bytes of the image with the signature, reading on after a mismatch; stop at the
end of the image (40_inspector.md R112, the first loop). The answer is whether all matched. -/
def matchSig : List Byte → Bool → State → (Bool × Run)
  | [], ok, s => (ok, .done s)
  | c :: cs, ok, s =>
    match readIn s with
    | .eof s => (false, .done s)
    | .raised s => (false, .raised s)
    | .byte v s => matchSig cs (ok && v == c) s

/-- The byte after the zero terminator decides (40_inspector.md R112, the last part). -/
def checkMarker (s : State) : Run :=
  match readIn s with
  | .eof s => setHeader .malformed 0#32 s
  | .raised s => .raised s
  | .byte m s =>
    if m = marker then setHeader .found s.ipos s else setHeader .malformed 0#32 s

/-- Scan forward to a zero byte (40_inspector.md R112, the second loop). The bound is the number of
bytes left: after that many reads `ReadIn` answers `EOF`. -/
def scanZero : Nat → State → Run
  | 0, s => setHeader .malformed 0#32 s
  | n + 1, s =>
    match readIn s with
    | .eof s => setHeader .malformed 0#32 s
    | .raised s => .raised s
    | .byte v s => if v = 0#8 then checkMarker s else scanZero n s

/-- INSPECT after acceptance (40_inspector.md R112). -/
def runInspect (s : State) : Run :=
  let r := matchSig sig true { s with ipos := 0#32 }
  r.2.andThen fun s =>
    if r.1 then scanZero (s.inLen.toNat - s.ipos.toNat) s else setHeader .noHeader 0#32 s

/-- INSPECT (40_inspector.md R112). -/
def execInspect (s : State) : Host.Outcome State Fault Refusal :=
  .next (accept .inspect runInspect s)

end Sys2Proof.Machine
end

