-- ==== Sys2Proof/Machine/Dispatch.lean ====
section
/-! DEFINITION. One arm per command. -/

namespace Sys2Proof.Machine

def exec (i : Instr) (s : State) : Host.Outcome State Fault Refusal :=
  match i with
  | .init => Sys2Proof.Machine.execInit s
  | .inspect => Sys2Proof.Machine.execInspect s
  | .openSink => Sys2Proof.Machine.execOpenSink s
  | .filter arg => Sys2Proof.Machine.execFilter arg s
  | .bit arg => Sys2Proof.Machine.execBit arg s
  | .byte v => Sys2Proof.Machine.execByte v s
  | .gap => Sys2Proof.Machine.execGap s
  | .leader => Sys2Proof.Machine.execLeader s
  | .payload => Sys2Proof.Machine.execPayload s
  | .closeSink => Sys2Proof.Machine.execCloseSink s
  | .encode => Sys2Proof.Machine.execEncode s

end Sys2Proof.Machine
end

