-- ==== Sys2Proof/Machine/HostPort.lean ====
section
/-! DEFINITION. The host's side of the block: its moves between commands and what it may read
(70_reset_and_hazards.md R215, 10_state.md R34, 20_memory.md R66). -/

namespace Sys2Proof.Machine

/-- Present a command word (70_reset_and_hazards.md R215). A launch with an illegal `SRATE` or `GAIN`
is refused (00_scope.md R8, log 10); otherwise the word is decoded and its instruction runs, or it is
rejected (30_encoding.md R86). -/
def presentCommand (w : CmdWord) (s : State) : Host.Outcome State Fault Refusal :=
  if launchLegal s then
    let s := { s with started := true }
    match decode w with
    | .ok i => exec i s
    | .error _ => .next (rejectWord s)
  else .refused .illegalConfiguration

/-- A write of the host that is allowed only between reset and the first command
(70_reset_and_hazards.md R217, 20_memory.md R66). -/
def beforeFirstCommand (s t : State) : Host.Outcome State Fault Refusal :=
  if s.started then .refused .writeAfterFirstCommand else .next t

/-- One move of the host (70_reset_and_hazards.md R215). -/
def hostMove (m : HostMove) (s : State) : Host.Outcome State Fault Refusal :=
  match m with
  | .command w => presentCommand w s
  | .reset => .next (resetEvent s)
  | .writeSrate v => beforeFirstCommand s { s with cfgSrate := v }
  | .writeGain v => beforeFirstCommand s { s with cfgGain := v }
  | .writeInLen v => beforeFirstCommand s { s with inLen := v }
  | .writeImage a v => beforeFirstCommand s { s with img := s.img.write a.toNat v }
  | .drivePins src snk => .next { s with srcPresent := src, snkPresent := snk }

/-- The registers the host can read, by number, widened with zeros (10_state.md R34). -/
def hostReadReg (n : Nat) (s : State) : Except Refusal Word32 :=
  match n with
  | 0 => .ok s.cfgSrate
  | 1 => .ok (s.cfgGain.setWidth 32)
  | 2 => .ok ((statusByte s).setWidth 32)
  | 3 => .ok s.pos
  | 4 => .ok s.ipos
  | 5 => .ok s.hdrSize
  | 6 => .ok s.inLen
  | 8 => .ok ((BitVec.ofBool s.lvl).setWidth 32)
  | _ => .error .noReadableRegister

/-- The host reads `OUT[a]`: only when `DONE` holds, and only below `POS` (20_memory.md R66). -/
def hostReadOut (a : Nat) (s : State) : Except Refusal Byte :=
  if s.done ∧ a < s.pos.toNat then
    match s.out.read a with
    | some b => .ok b
    | none => .error .sinkNotReadable
  else .error .sinkNotReadable

end Sys2Proof.Machine
end

