-- ==== Sys2Proof/Machine/Step.lean ====
section
/-! DEFINITION. One step: the host's next move. The block has no program counter and fetches nothing
(10_state.md R24); after reset it is idle until the host presents a command (70_reset_and_hazards.md
R211). -/

namespace Sys2Proof.Machine

/-- One step of the machine: the host's next move, a presented command running to completion or to a
fault (70_reset_and_hazards.md R215, R223); with no move left the block stays idle (R211). -/
def step (s : State) : Host.Outcome State Fault Refusal :=
  match s.hostQ with
  | [] => .next s
  | m :: rest => hostMove m { s with hostQ := rest }

/-- Make a word the host's next move: the command that the next step runs. Log 1. -/
def State.withFetchWord (s : State) (_nbits w : Nat) : State :=
  { s with hostQ := .command (BitVec.ofNat 16 w) :: s.hostQ }

end Sys2Proof.Machine
end

