-- ==== Sys2Proof/Safety.lean ====
section
/-! DEFINITION. What counts as a safe run, in the terms the statements use: acceptance, the premise of
no stream failure, room in the sink, and the invariants of the machine. -/

namespace Sys2Proof.Machine

/-- Every answer the environment will give to `SrcFail()` is false (20_memory.md R55). -/
abbrev NoSourceFailure (s : State) : Prop := ∀ b ∈ s.srcFails, b = false

/-- Every answer the environment will give to `SnkFail()` is false (20_memory.md R55). -/
abbrev NoSinkFailure (s : State) : Prop := ∀ b ∈ s.snkFails, b = false

/-- The command passes all of `Accept` (30_encoding.md R86). -/
abbrev Accepted (i : Instr) (s : State) : Prop :=
  s.fault = false ∧ i.wellFormed = true ∧ legalIn i s.sess = true ∧
    (needsSource i = true → s.srcPresent = true) ∧ (needsSink i = true → s.snkPresent = true)

/-- The sink has room for `n` more bytes (20_memory.md R56). -/
abbrev Room (n : Nat) (s : State) : Prop := s.pos.toNat + n ≤ s.sinkCap.size

/-- What the spec says of every reachable state: `FCAUSE` goes with `FAULT` (10_state.md R30); `OUT`
lists exactly the addresses below `POS` (R36) and so is canonical; the image is canonical; `POS` and
`IPOS` stay in their spaces (R26, R27); `POS` is 0 in a fault-free `IDLE` and at least 44 after OPEN
(44_container.md R171, R175); `HDR_SIZE` goes with `HDR_STAT` (40_inspector.md R114); before the
first command the registers of the run are at their reset values. -/
structure StateInv (s : State) : Prop where
  fault_cause : s.fault = true ↔ s.fcause ≠ .none
  out_addresses : s.out.map Prod.fst = List.range s.pos.toNat
  image_canonical : s.img.wf
  pos_in_sink : s.pos.toNat ≤ s.sinkCap.size
  ipos_in_image : s.ipos.toNat ≤ s.inLen.toNat
  idle_empty : s.sess = .idle → s.fault = false → s.pos = 0#32
  open_has_header : s.sess ≠ .idle → 44 ≤ s.pos.toNat
  header_size : s.hdrSize ≠ 0#32 ↔ s.hdrStat = .found
  header_bounds : s.hdrStat = .found → 34 ≤ s.hdrSize.toNat ∧ s.hdrSize.toNat ≤ s.inLen.toNat
  not_started : s.started = false →
    s.sess = .idle ∧ s.fault = false ∧ s.ipos = 0#32 ∧ s.hdrStat = .notRun ∧
      s.lvl = false ∧ s.lp = 0#64 ∧ s.hp = 0#64

/-- The bytes of `OUT` from address 0, as far as they are listed. -/
def outPrefix (n : Nat) (s : State) : List (Option Byte) := (List.range n).map s.out.read

/-- What the header in the sink says while no fault is recorded: the placeholders while `OPEN`
(20_memory.md R65), the true lengths once `CLOSED` (44_container.md R176). -/
structure ContainerInv (s : State) : Prop where
  while_open : s.fault = false → s.sess = .opened →
    outPrefix 44 s = (containerHeader 0#32 0#32 s.cfgSrate).map some
  when_done : s.done = true →
    outPrefix 44 s = (containerHeader (s.pos - 8#32) (s.pos - 44#32) s.cfgSrate).map some

/-- A finite value in the interval from `lo` to `hi`. -/
def f64Between (lo hi : Int) (x : Binary64) : Prop :=
  f64IsFinite x = true ∧ lo * 2 ^ 1074 ≤ f64Units x ∧ f64Units x ≤ hi * 2 ^ 1074

/-- Both accumulators lie between 0 and the gain amplitude (41_filter.md R126). -/
structure FilterInv (s : State) : Prop where
  lp_bounded : f64Between 0 (gainAmp s.cfgGain) s.lp
  hp_bounded : f64Between 0 (gainAmp s.cfgGain) s.hp
  not_started : s.started = false → s.lp = 0#64 ∧ s.hp = 0#64

end Sys2Proof.Machine
end

