-- ==== Sys2Proof/Safety/Waveform.lean ====
section
/-! DEFINITION. What the commands should produce, said without their loops: the half-cycles of a bit
string, the filter inputs they stand for, the sample bytes, the inspection table and the whole tape
file. The statements compare the machine with these. -/

namespace Sys2Proof.Machine

/-! ### The filter over a list of inputs -/

/-- Both accumulators after the filter has been given a list of levels (41_filter.md R122). -/
def filterAcc : Binary64 → Binary64 → List Int → Binary64 × Binary64
  | lp, hp, [] => (lp, hp)
  | lp, hp, l :: ls => filterAcc (nextLp l lp) (nextHp (nextLp l lp) hp) ls

/-- The sample bytes the filter produces for a list of levels (41_filter.md R122, R123). -/
def filterBytes : Binary64 → Binary64 → List Int → List Byte
  | _, _, [] => []
  | lp, hp, l :: ls =>
    toByte (fsub (nextLp l lp) (nextHp (nextLp l lp) hp)) ::
      filterBytes (nextLp l lp) (nextHp (nextLp l lp) hp) ls

/-- The state after one sample for each level has been produced and appended, with every answer to
`SnkFail()` false: accumulators, `OUT` and `POS` (00_scope.md R17). -/
def emit (levels : List Int) (s : State) : State :=
  { s with
    lp := (filterAcc s.lp s.hp levels).1
    hp := (filterAcc s.lp s.hp levels).2
    out := s.out.writeBytes s.pos.toNat (filterBytes s.lp s.hp levels)
    pos := s.pos + BitVec.ofNat 32 levels.length
    snkFails := s.snkFails.drop levels.length }

/-! ### The line code -/

/-- A half-cycle: its length in samples and the level flag during it (42_modulator.md R136). -/
abbrev HalfCycle := Nat × Bool

/-- The level flag after a bit: inverted by a 0, unchanged by a 1 (42_modulator.md R138). -/
def lvlAfterBit (lvl b : Bool) : Bool := if b then lvl else !lvl

/-- The half-cycles of one bit: one of `P0` samples for a 0, two of `P1` for a 1 (30_encoding.md
R90). -/
def bitHalves (srate : Word32) (lvl b : Bool) : List HalfCycle :=
  if b then [(period srate true, lvl), (period srate true, !lvl)] else [(period srate false, lvl)]

/-- The half-cycles of a bit string, each starting at the level the one before it left
(42_modulator.md R137). -/
def bitsHalves (srate : Word32) : Bool → List Bool → List HalfCycle
  | _, [] => []
  | lvl, b :: bs => bitHalves srate lvl b ++ bitsHalves srate (lvlAfterBit lvl b) bs

/-- The filter inputs of a list of half-cycles (30_encoding.md R93). -/
def halvesLevels (gain : BitVec 3) (hs : List HalfCycle) : List Int :=
  hs.flatMap fun h => List.replicate h.1 (levelAmp gain h.2)

/-- The level flag during each sample of a list of half-cycles (42_modulator.md R136). -/
def halvesFlags (hs : List HalfCycle) : List Bool :=
  hs.flatMap fun h => List.replicate h.1 h.2

/-- The filter inputs of a bit string. -/
def bitsLevels (srate : Word32) (gain : BitVec 3) (lvl : Bool) (bs : List Bool) : List Int :=
  halvesLevels gain (bitsHalves srate lvl bs)

/-- The level flag after a bit string. -/
def lvlAfter (lvl : Bool) (bs : List Bool) : Bool := bs.foldl lvlAfterBit lvl

/-- The bits of a byte string in the order sent (30_encoding.md R91). -/
def bytesBits (vs : List Byte) : List Bool := vs.flatMap bitsMsbFirst

/-- The state after a bit string has been sent without a stream failure. -/
def sendBits (bs : List Bool) (s : State) : State :=
  { emit (bitsLevels s.cfgSrate s.cfgGain s.lvl bs) s with lvl := lvlAfter s.lvl bs }

/-- The number of 1 bits of a byte (00_scope.md R12). -/
def popcount (v : Byte) : Nat := ((List.range 8).filter fun i => v.getLsbD i).length

/-! ### The tape image and the file -/

/-- The bytes of the tape image, `IN[0 .. IN_LEN - 1]` (10_state.md R35). -/
def imageBytes (s : State) : List Byte := (List.range s.inLen.toNat).map (memRead s)

/-- The inspection table of 40_inspector.md R111: `HDR_STAT`, `HDR_SIZE` and `IPOS` afterwards, as a
function of the image. -/
def inspection (image : List Byte) : HdrStat × Nat × Nat :=
  if image.take 32 = sig then
    match (image.drop 32).findIdx? (· == 0#8) with
    | none => (.malformed, 0, image.length)
    | some k =>
      match image[32 + k + 1]? with
      | none => (.malformed, 0, image.length)
      | some m => if m = marker then (.found, 32 + k + 2, 32 + k + 2) else (.malformed, 0, 32 + k + 2)
  else (.noHeader, 0, min 32 image.length)

/-- All the bits of a tape: the leader, then the whole image (43_framing.md R157).
(Irreducible, so that no elaboration unfolds the leader's 2040 bits by accident.) -/
@[irreducible] def tapeBits (image : List Byte) : List Bool :=
  bytesBits (List.replicate 255 0xAA#8 ++ image)

/-- All the filter inputs of a run: gap, leader, payload, gap (43_framing.md R157, R158). -/
def tapeLevels (srate : Word32) (gain : BitVec 3) (image : List Byte) : List Int :=
  List.replicate (nsil srate) 0 ++ bitsLevels srate gain false (tapeBits image) ++
    List.replicate (nsil srate) 0

/-- The memory that holds a byte string from address 0. -/
def memoryOf (bs : List Byte) : Memory := (List.range bs.length).zip bs

/-- The bytes of the finished file: the header with both lengths, then the samples
(44_container.md R176). -/
def tapeFile (srate : Word32) (gain : BitVec 3) (image : List Byte) : List Byte :=
  let levels := tapeLevels srate gain image
  containerHeader (BitVec.ofNat 32 (36 + levels.length)) (BitVec.ofNat 32 levels.length) srate ++
    filterBytes 0#64 0#64 levels

end Sys2Proof.Machine
end

