-- ==== Sys2Proof/Certificates/Slice0/Obligations.lean ====
section
/-! DEFINITION. The statements for the provers. -/

open Sys2Proof Sys2Proof.Machine

/-! ### Encoding -/

/-- Decoding an encoded instruction gives it back exactly when it is well formed, and is an illegal
word otherwise; a legal word is the encoding of what it decodes to (30_encoding.md R80 to R84; the
encoding is the spec's decision D3). -/
def Obligations.DecodeAndEncodeAgree : Prop :=
  (∀ i : Instr, decode (encode i) = if i.wellFormed then .ok i else .error .argBits) ∧
  (∀ (w : CmdWord) (i : Instr), decode w = .ok i → encode i = w ∧ i.wellFormed = true)

/-- The legal words are exactly those listed in 30_encoding.md R82 (decision D3). -/
def Obligations.LegalWordsAreTheListedOnes : Prop :=
  ∀ w : CmdWord, (∃ i, decode w = .ok i) ↔
    (w ∈ [0x1000#16, 0x2000#16, 0x3000#16, 0x4000#16, 0x4001#16, 0x5000#16, 0x5001#16, 0x7000#16,
        0x8000#16, 0x9000#16, 0xA000#16, 0xB000#16] ∨
      ∃ v : BitVec 8, w = 0x6000#16 + v.setWidth 16)

/-- Words written out from the encodings of 30_encoding.md R82 and the illegal ones of
95_test_vectors.md V10 (decision D3). -/
def Obligations.WrittenOutWordsDecode : Prop :=
  decode 0b0001000000000000#16 = .ok .init ∧
  decode 0b0010000000000000#16 = .ok .inspect ∧
  decode 0b0011000000000000#16 = .ok .openSink ∧
  decode 0b0100000000000001#16 = .ok (.filter 1#8) ∧
  decode 0b0101000000000000#16 = .ok (.bit 0#8) ∧
  decode 0b0110000010101010#16 = .ok (.byte 0xAA#8) ∧
  decode 0b1001000000000000#16 = .ok .payload ∧
  decode 0b1011000000000000#16 = .ok .encode ∧
  decode 0x0000#16 = .error .opcode ∧
  decode 0xC000#16 = .error .opcode ∧
  decode 0x6100#16 = .error .zField ∧
  decode 0x1001#16 = .error .argBits ∧
  decode 0x4002#16 = .error .argBits

/-! ### The step and the host port -/

/-- A presented legal word runs its instruction; an illegal one raises IllegalCommand, or has no
effect while `FAULT = 1` (30_encoding.md R84, R86; the queue and `started` are the model's own, logs 1
and 3). -/
def Obligations.StepRunsThePresentedCommand : Prop :=
  (∀ (s : State) (w : CmdWord) (rest : List HostMove) (i : Instr),
    s.hostQ = .command w :: rest → launchLegal s = true → decode w = .ok i →
      step s = exec i { s with hostQ := rest, started := true }) ∧
  (∀ (s : State) (w : CmdWord) (rest : List HostMove) (e : IllegalWord),
    s.hostQ = .command w :: rest → launchLegal s = true → decode w = .error e →
      step s = .next (if s.fault then { s with hostQ := rest, started := true }
        else { s with hostQ := rest, started := true, fault := true, fcause := .illegalCommand })) ∧
  (∀ (s : State) (n w : Nat) (i : Instr), launchLegal s = true → decodeTableWord n w = some i →
      step (s.withFetchWord n w) = exec i { s with started := true })

/-- A command presented with a sample rate or gain outside the legal sets is refused by the model
(00_scope.md R8, 60_exceptions.md R188; that the refusal is made at the presentation of a command is
the model's choice, log 10). -/
def Obligations.IllegalLaunchIsRefused : Prop :=
  (∀ s : State, launchLegal s = true ↔
    s.cfgSrate.toNat ∈ [48000, 44100, 22050, 11025, 8000] ∧ 1 ≤ s.cfgGain.toNat ∧ s.cfgGain.toNat ≤ 7) ∧
  (∀ (s : State) (w : CmdWord) (rest : List HostMove),
    s.hostQ = .command w :: rest → launchLegal s = false → step s = .refused .illegalConfiguration)

/-- The host's other moves: writes of the configuration and the image before the first command and
never later, the pins at any time, and nothing at all when it makes no move (70_reset_and_hazards.md
R211, R215, R217; decisions D20, D23; the refusal's name is the model's, log 2). An image byte the host
has written is what the block reads at its address, and every other address reads as before
(20_memory.md R53, 10_state.md R35). -/
def Obligations.HostMovesKeepTheContract : Prop :=
  (∀ s : State, s.hostQ = [] → step s = .next s) ∧
  (∀ (s : State) (rest : List HostMove) (m : HostMove) (r : Word32) (g : BitVec 3) (n a : Word32) (b : Byte),
    s.hostQ = m :: rest → m ∈ [.writeSrate r, .writeGain g, .writeInLen n, .writeImage a b] →
    s.started = true → step s = .refused .writeAfterFirstCommand) ∧
  (∀ (s : State) (rest : List HostMove), s.started = false →
    (∀ r, s.hostQ = .writeSrate r :: rest → step s = .next { s with hostQ := rest, cfgSrate := r }) ∧
    (∀ g, s.hostQ = .writeGain g :: rest → step s = .next { s with hostQ := rest, cfgGain := g }) ∧
    (∀ n, s.hostQ = .writeInLen n :: rest → step s = .next { s with hostQ := rest, inLen := n }) ∧
    (∀ a b, s.hostQ = .writeImage a b :: rest →
      step s = .next { s with hostQ := rest, img := s.img.write a.toNat b })) ∧
  (∀ (s : State) (rest : List HostMove) (a : Word32) (b : Byte),
    s.started = false → s.hostQ = .writeImage a b :: rest →
    ∃ t, step s = .next t ∧ memRead t a.toNat = b ∧
      ∀ k, k ≠ a.toNat → memRead t k = memRead s k) ∧
  (∀ (s : State) (rest : List HostMove) (src snk : Bool), s.hostQ = .drivePins src snk :: rest →
    step s = .next { s with hostQ := rest, srcPresent := src, snkPresent := snk })

/-- RESET at any time: the table of 10_state.md R40 (70_reset_and_hazards.md R210, decision D15).
`IN_LEN = 0`, the empty listing of `IN`, and what stays are the model's choices (logs 7 and 17). -/
def Obligations.ResetEstablishesTheResetTable : Prop :=
  ∀ (s : State) (rest : List HostMove), s.hostQ = .reset :: rest →
    ∃ t, step s = .next t ∧
      t.lp = 0#64 ∧ t.hp = 0#64 ∧ t.lvl = false ∧ t.sess = .idle ∧ t.pos = 0#32 ∧ t.ipos = 0#32 ∧
      t.cfgSrate = 44100#32 ∧ t.cfgGain = 6#3 ∧ t.fault = false ∧ t.fcause = .none ∧
      t.hdrStat = .notRun ∧ t.hdrSize = 0#32 ∧ t.inLen = 0#32 ∧ (∀ a, t.out.read a = none) ∧
      (∀ a, t.img.read a = none) ∧ t.started = false ∧ t.sinkCap = s.sinkCap ∧
      t.srcPresent = s.srcPresent ∧ t.snkPresent = s.snkPresent ∧ t.srcFails = s.srcFails ∧
      t.snkFails = s.snkFails ∧ t.hostQ = rest

/-- The status register and the host's register map, and the decoder of `STATUS`
(10_state.md R34, 93_implementation_defined.md U10; decision D4). -/
def Obligations.RegisterMapReadsTheState : Prop :=
  (∀ s : State,
    (statusByte s).extractLsb' 0 2 = s.sess.code ∧ (statusByte s).getLsbD 2 = s.fault ∧
    (statusByte s).extractLsb' 3 3 = s.fcause.code ∧ (statusByte s).extractLsb' 6 2 = s.hdrStat.code ∧
    decodeStatus (statusByte s) = .ok (s.sess, s.fault, s.fcause, s.hdrStat) ∧
    hostReadReg 0 s = .ok s.cfgSrate ∧ hostReadReg 1 s = .ok (s.cfgGain.setWidth 32) ∧
    hostReadReg 2 s = .ok ((statusByte s).setWidth 32) ∧ hostReadReg 3 s = .ok s.pos ∧
    hostReadReg 4 s = .ok s.ipos ∧ hostReadReg 5 s = .ok s.hdrSize ∧ hostReadReg 6 s = .ok s.inLen ∧
    hostReadReg 7 s = .error .noReadableRegister ∧
    hostReadReg 8 s = .ok (if s.lvl then 1#32 else 0#32) ∧
    ∀ n, 8 < n → hostReadReg n s = .error .noReadableRegister) ∧
  (∀ b : Byte, decodeStatus b = .error .unreachableStatus ↔
    b.extractLsb' 0 2 = 3#2 ∨ b.extractLsb' 3 3 = 7#3)

/-- When `DONE` holds the host reads every byte below `POS`, and nothing else (20_memory.md R66,
decision D23). -/
def Obligations.ResultIsReadableExactlyWhenDone : Prop :=
  (∀ (s : State) (a : Nat), StateInv s → s.done = true → a < s.pos.toNat →
    ∃ b, s.out.read a = some b ∧ hostReadOut a s = .ok b) ∧
  (∀ (s : State) (a : Nat), s.done = false ∨ s.pos.toNat ≤ a →
    hostReadOut a s = .error .sinkNotReadable)

/-! ### Acceptance and faults -/

/-- The acceptance checks in order, for every command and every state (30_encoding.md R85, R86,
60_exceptions.md R185, R191, R195; decisions D15, D18, D25). -/
def Obligations.AcceptanceChecksInOrder : Prop :=
  ∀ (i : Instr) (s : State),
    (s.fault = true → exec i s = .next s) ∧
    (s.fault = false → i.wellFormed = false →
      exec i s = .next { s with fault := true, fcause := .illegalCommand }) ∧
    (s.fault = false → i.wellFormed = true → legalIn i s.sess = false →
      exec i s = .next { s with fault := true, fcause := .sequenceError }) ∧
    (s.fault = false → i.wellFormed = true → legalIn i s.sess = true →
      i ∈ [.inspect, .payload, .encode] → s.srcPresent = false →
      exec i s = .next { s with fault := true, fcause := .inputUnreadable }) ∧
    (s.fault = false → i.wellFormed = true → legalIn i s.sess = true →
      i ∈ [.openSink, .encode] → s.snkPresent = false → (i = .encode → s.srcPresent = true) →
      exec i s = .next { s with fault := true, fcause := .outputUnwritable })

/-- A fault is sticky: every command is refused without effect, no move of the host but RESET leaves
the faulted state, and RESET starts a new run with nothing carried over (60_exceptions.md R197). -/
def Obligations.FaultIsStickyUntilReset : Prop :=
  (∀ (i : Instr) (s : State), s.fault = true → exec i s = .next s) ∧
  (∀ (s t : State) (m : HostMove) (rest : List HostMove), s.fault = true → s.hostQ = m :: rest →
    step s = .next t → (t.fault = false ↔ m = .reset) ∧
      (m ≠ .reset → t.fcause = s.fcause ∧ t.out = s.out ∧ t.pos = s.pos ∧ t.ipos = s.ipos ∧
        t.sess = s.sess ∧ t.lvl = s.lvl ∧ t.lp = s.lp ∧ t.hp = s.hp ∧ t.hdrStat = s.hdrStat ∧
        t.hdrSize = s.hdrSize) ∧
      (m = .reset → t.fcause = .none ∧ (∀ a, t.out.read a = none) ∧ t.pos = 0#32 ∧ t.ipos = 0#32 ∧
        t.sess = .idle ∧ t.lvl = false ∧ t.lp = 0#64 ∧ t.hp = 0#64 ∧ t.hdrStat = .notRun ∧
        t.hdrSize = 0#32 ∧ t.cfgSrate = 44100#32 ∧ t.cfgGain = 6#3))

/-- The end of a run: normally exactly when `DONE` holds, abnormally exactly when `FAULT = 1`. With
`FAULT = 1` every further command, legal word or not, is refused without effect; in `DONE` none is legal,
a further one changes none of `OUT`, `POS`, `LVL`, `LP`, `HP`, raises `IllegalCommand` or
`SequenceError`, and `DONE` no longer holds (70_reset_and_hazards.md R219, decision D15). -/
def Obligations.NoCommandIsLegalAfterTheEnd : Prop :=
  (∀ s : State, s.done = true ↔ s.sess = .closed ∧ s.fault = false) ∧
  (∀ (s : State) (w : CmdWord) (rest : List HostMove), launchLegal s = true →
    s.hostQ = .command w :: rest → s.fault = true →
    step s = .next { s with hostQ := rest, started := true }) ∧
  (∀ (s : State) (w : CmdWord) (rest : List HostMove), launchLegal s = true →
    s.hostQ = .command w :: rest → s.done = true →
    ∃ t, step s = .next t ∧ t.out = s.out ∧ t.pos = s.pos ∧ t.lvl = s.lvl ∧ t.lp = s.lp ∧ t.hp = s.hp ∧
      t.fault = true ∧ (t.fcause = .illegalCommand ∨ t.fcause = .sequenceError) ∧ t.done = false)

/-! ### Invariants -/

/-- The reset state meets the three invariants (10_state.md R40). -/
def Obligations.ResetMeetsTheInvariants : Prop :=
  StateInv State.reset ∧ ContainerInv State.reset ∧ FilterInv State.reset

/-- Every step keeps the invariant of the registers and memories (10_state.md R26, R27, R30, R36,
40_inspector.md R114, 44_container.md R171, R175). -/
def Obligations.StepKeepsTheStateInvariant : Prop :=
  ∀ s t : State, StateInv s → step s = .next t → StateInv t

/-- Every step keeps: placeholders in the sink while `OPEN`, the true lengths once `DONE`
(20_memory.md R65, 44_container.md R171, R176; the header constants are decisions D12, D13). -/
def Obligations.StepKeepsTheContainerHeader : Prop :=
  ∀ s t : State, StateInv s → ContainerInv s → step s = .next t → ContainerInv t

/-- Every step keeps both accumulators finite and between 0 and the gain amplitude (41_filter.md R126;
the number format is decision D5). -/
def Obligations.StepKeepsTheFilterBounded : Prop :=
  ∀ s t : State, FilterInv s → step s = .next t → FilterInv t

/-- With the accumulators so bounded, the filter output of every level a command can give is finite and
at most the gain amplitude in magnitude, so the clamp of `ToByte` never engages (41_filter.md R126). -/
def Obligations.ClampNeverEngages : Prop :=
  ∀ (s : State) (sel : Bool), FilterInv s →
    let lp := nextLp (selAmp s.cfgGain sel) s.lp
    let y := fsub lp (nextHp lp s.hp)
    f64Between (-gainAmp s.cfgGain) (gainAmp s.cfgGain) y ∧
      toByte y = BitVec.ofInt 8 (f64Trunc y) ^^^ 0x80#8

/-! ### The filter -/

/-- `fadd` and `fsub` are correctly rounded: the result is finite below the overflow threshold, no
finite value is nearer to the exact sum or difference, and on a tie the result is even
(00_scope.md R13, 41_filter.md R121; decision D5). That it overflows exactly from the threshold on is
PRESUMED, as IEEE 754 has it (log 12). -/
def Obligations.AdditionIsCorrectlyRounded : Prop :=
  ∀ x y : Binary64, f64IsFinite x = true → f64IsFinite y = true →
    ∀ r v, (r = fadd x y ∧ v = f64Units x + f64Units y) ∨ (r = fsub x y ∧ v = f64Units x - f64Units y) →
      (f64IsFinite r = true ↔ v.natAbs < (2 ^ 54 - 1) * 2 ^ 2044) ∧
      (f64IsFinite r = true → ∀ z, f64IsFinite z = true →
        (f64Units r - v).natAbs ≤ (f64Units z - v).natAbs ∧
        ((f64Units r - v).natAbs = (f64Units z - v).natAbs → f64Units z ≠ f64Units r → r.getLsbD 0 = false))

/-- `fmul` is correctly rounded, in the same sense (00_scope.md R13, 41_filter.md R121; decision D5).
A product counts units of 2^-2148. That it overflows exactly from the threshold on is PRESUMED, as
IEEE 754 has it (log 12). -/
def Obligations.MultiplicationIsCorrectlyRounded : Prop :=
  ∀ x y : Binary64, f64IsFinite x = true → f64IsFinite y = true →
    (f64IsFinite (fmul x y) = true ↔
      (f64Units x * f64Units y).natAbs < (2 ^ 54 - 1) * 2 ^ (2044 + 1074)) ∧
    (f64IsFinite (fmul x y) = true → ∀ z, f64IsFinite z = true →
      (f64Units (fmul x y) * 2 ^ 1074 - f64Units x * f64Units y).natAbs ≤
        (f64Units z * 2 ^ 1074 - f64Units x * f64Units y).natAbs ∧
      ((f64Units (fmul x y) * 2 ^ 1074 - f64Units x * f64Units y).natAbs =
        (f64Units z * 2 ^ 1074 - f64Units x * f64Units y).natAbs →
        f64Units z ≠ f64Units (fmul x y) → (fmul x y).getLsbD 0 = false))

/-- `Filter(level)` computes its seven operations in the order of 41_filter.md R122, and reads and
writes `LP` and `HP` and nothing else. -/
def Obligations.FilterComputesTheRecurrence : Prop :=
  ∀ (level : Int) (s : State),
    let m1 := fmul (fsub (f64OfInt level) s.lp) kLp
    let lp := fadd s.lp m1
    let m2 := fmul (fsub lp s.hp) kHp
    let hp := fadd s.hp m2
    let y := fsub lp hp
    toneFilter level s = (toByte y, { s with lp := lp, hp := hp })

/-- The filter's two coefficients are 5023315024369051 / 2^53 and 8183898008301243 / 2^60 (41_filter.md
R121, decision D5), and `real(n)` is exact for every integer of magnitude below 2^53 (00_scope.md R13). -/
def Obligations.FilterConstantsAreExact : Prop :=
  (f64IsFinite kLp = true ∧ f64Units kLp * 2 ^ 53 = 5023315024369051 * 2 ^ 1074) ∧
  (f64IsFinite kHp = true ∧ f64Units kHp * 2 ^ 60 = 8183898008301243 * 2 ^ 1074) ∧
  ∀ n : Int, n.natAbs < 2 ^ 53 →
    f64IsFinite (f64OfInt n) = true ∧ f64Units (f64OfInt n) = n * 2 ^ 1074

/-- `ToByte` of a finite value clamps, truncates toward zero and offsets by 128; no finite value gives
the byte 0 (41_filter.md R123, R125, 30_encoding.md R92; the truncation is decision D6). -/
def Obligations.SampleByteIsClampedAndOffset : Prop :=
  ∀ y : Binary64, f64IsFinite y = true →
    ((toByte y).toNat : Int) = 128 + max (-127) (min 127 (f64Trunc y)) ∧ toByte y ≠ 0#8

/-- The gain amplitude is the gain times 15, one of 15, 30, ... 105 for a legal gain, and 90 for the
default; FILTER 0 selects the silence amplitude 0 (00_scope.md R11). -/
def Obligations.GainAmplitudeIsFifteenfold : Prop :=
  (∀ g : BitVec 3, gainAmp g = (g.toNat : Int) * 15 ∧
    (g ≠ 0#3 → gainAmp g ∈ [15, 30, 45, 60, 75, 90, (105 : Int)])) ∧
  gainAmp State.reset.cfgGain = 90 ∧ ∀ g : BitVec 3, selAmp g false = 0

/-! ### Lengths -/

/-- The half-cycle and gap lengths at the five legal rates (00_scope.md R10, 42_modulator.md R135,
43_framing.md R152; the gap's rounding is decision D10), and linearity in the rate up to one sample
(43_framing.md R161). -/
def Obligations.PeriodsAndGapsOfTheLegalRates : Prop :=
  [48000#32, 44100#32, 22050#32, 11025#32, 8000#32].map
      (fun r => (period r false, period r true, nsil r)) =
    [(42, 21, 324), (38, 19, 298), (19, 10, 149), (10, 5, 74), (7, 3, 54)] ∧
  ∀ r q : Word32, q.toNat = 2 * r.toNat →
    ((nsil q : Int) - 2 * nsil r).natAbs ≤ 1 ∧
    ∀ b, ((period q b : Int) - 2 * period r b).natAbs ≤ 1

/-- The toggles and samples of a byte, `n` of whose bits are 1: an accepted BYTE with room and no
stream failure appends `(8 - n) * P0 + n * 2 * P1` samples, which at the legal rates is the table of
42_modulator.md R141, and leaves the level inverted exactly when `n` is odd (R140); it is made of `8 + n`
half-cycles, each with its toggle. -/
def Obligations.ByteTogglesAndSamples : Prop :=
  (∀ (s : State) (v : Byte), Accepted (.byte v) s → NoSinkFailure s →
    let n := popcount v
    let samples := (8 - n) * period s.cfgSrate false + n * (2 * period s.cfgSrate true)
    (launchLegal s = true → (s.cfgSrate, samples) ∈
      [(48000#32, 336), (44100#32, 304), (22050#32, 152 + n), (11025#32, 80), (8000#32, 56 - n)]) ∧
    (Room samples s → ∃ t, exec (.byte v) s = .next t ∧ t.fault = false ∧
      t.pos.toNat = s.pos.toNat + samples ∧ t.lvl = (s.lvl ^^ decide (n % 2 = 1)))) ∧
  ∀ (srate : Word32) (lvl : Bool) (v : Byte),
    popcount v ≤ 8 ∧ (bitsHalves srate lvl (bitsMsbFirst v)).length = 8 + popcount v

/-- The size of the result: an accepted ENCODE from an empty sink, without a stream failure and with
room for it, completes with `POS` at 44 and the samples of two gaps, of the leader and of each bit of the
image by its kind (43_framing.md R159; the gap's rounding is decision D10); and the file sizes that gives
for the empty image. -/
def Obligations.TapeLengthFormula : Prop :=
  ∀ s : State, Accepted .encode s → NoSourceFailure s → NoSinkFailure s → s.pos = 0#32 → s.out = [] →
    let n1 := ((imageBytes s).map popcount).sum
    let size := 44 + 2 * nsil s.cfgSrate +
      255 * (4 * period s.cfgSrate false + 8 * period s.cfgSrate true) +
      (8 * s.inLen.toNat - n1) * period s.cfgSrate false + n1 * (2 * period s.cfgSrate true)
    n1 ≤ 8 * s.inLen.toNat ∧
    (size ≤ s.sinkCap.size →
      ∃ t, exec .encode s = .next t ∧ t.done = true ∧ t.pos.toNat = size) ∧
    (launchLegal s = true → s.inLen = 0#32 → (s.cfgSrate, size) ∈
      [(48000#32, 86372), (44100#32, 78160), (22050#32, 40122), (11025#32, 20592), (8000#32, 13412)])

/-! ### What each command does -/

/-- INIT (43_framing.md R150; the level's value is decision D8): the accumulators and the level to
their initial values, and nothing else. -/
def Obligations.InitResult : Prop :=
  ∀ s : State, Accepted .init s →
    exec .init s = .next { s with lp := 0#64, hp := 0#64, lvl := false }

/-- INSPECT without a read failure gives the table of 40_inspector.md R111 and changes nothing else
(R112; short images are decision D17). Each byte read takes one answer of the environment (log 4). -/
def Obligations.InspectFollowsTheTable : Prop :=
  ∀ s : State, Accepted .inspect s → NoSourceFailure s →
    exec .inspect s = .next { s with
      hdrStat := (inspection (imageBytes s)).1
      hdrSize := BitVec.ofNat 32 (inspection (imageBytes s)).2.1
      ipos := BitVec.ofNat 32 (inspection (imageBytes s)).2.2
      srcFails := s.srcFails.drop (inspection (imageBytes s)).2.2 }

/-- A textual header: the signature, a field of non-zero bytes with its terminator, and the marker. INSPECT
finds it, whatever follows, and the header size is the offset of the byte after the marker
(30_encoding.md R96). The 32 bytes are those of R95, whose ASCII codes the spec supplies from general
knowledge (93_implementation_defined.md G2). -/
def Obligations.HeaderSizeIsTheOffsetAfterTheMarker : Prop :=
  ∀ (s : State) (field rest : List Byte), Accepted .inspect s → NoSourceFailure s →
    (∀ b ∈ field, b ≠ 0x00#8) →
    imageBytes s =
      [0x43#8, 0x6F#8, 0x6C#8, 0x6F#8, 0x75#8, 0x72#8, 0x20#8, 0x47#8, 0x65#8, 0x6E#8, 0x69#8, 0x65#8,
        0x20#8, 0x2D#8, 0x20#8, 0x56#8, 0x69#8, 0x72#8, 0x74#8, 0x75#8, 0x61#8, 0x6C#8, 0x20#8, 0x54#8,
        0x61#8, 0x70#8, 0x65#8, 0x20#8, 0x46#8, 0x69#8, 0x6C#8, 0x65#8] ++
      (field ++ [0x00#8]) ++ [0x66#8] ++ rest →
    ∃ t, exec .inspect s = .next t ∧ t.hdrStat = .found ∧ t.fault = false ∧
      t.hdrSize.toNat = 32 + (field ++ [0x00#8]).length + 1

/-- A read failure inside INSPECT: `HDR_STAT` and `HDR_SIZE` keep their values and `IPOS` points at the
byte whose read failed (40_inspector.md R112, 60_exceptions.md R195; decisions D18, D30). -/
def Obligations.InspectReadFailure : Prop :=
  ∀ (s : State) (k : Nat) (rest : List Bool), Accepted .inspect s →
    s.srcFails = List.replicate k false ++ true :: rest → k < (inspection (imageBytes s)).2.2 →
    exec .inspect s = .next { s with
      ipos := BitVec.ofNat 32 k, srcFails := rest, fault := true, fcause := .inputStreamFailure }

/-- OPEN appends the 44 header bytes and opens the session (44_container.md R171, 30_encoding.md R97;
the constants are decisions D12, D13). -/
def Obligations.OpenWritesThePlaceholderHeader : Prop :=
  ∀ s : State, Accepted .openSink s → NoSinkFailure s → Room 44 s →
    exec .openSink s = .next { s with
      out := s.out.writeBytes s.pos.toNat
        ([0x52#8, 0x49#8, 0x46#8, 0x46#8, 0x00#8, 0x00#8, 0x00#8, 0x00#8, 0x57#8, 0x41#8, 0x56#8,
          0x45#8, 0x66#8, 0x6D#8, 0x74#8, 0x20#8, 0x10#8, 0x00#8, 0x00#8, 0x00#8, 0x01#8, 0x00#8,
          0x01#8, 0x00#8] ++ le32 s.cfgSrate ++ le32 s.cfgSrate ++
         [0x01#8, 0x00#8, 0x08#8, 0x00#8, 0x64#8, 0x61#8, 0x74#8, 0x61#8, 0x00#8, 0x00#8, 0x00#8,
          0x00#8])
      pos := s.pos + 44#32, sess := .opened, snkFails := s.snkFails.drop 44 }

/-- OPEN that fails at its append number `k`, because the stream fails or the sink is full: the session
stays, the header is incomplete and `POS` counts the bytes written (44_container.md R171, 20_memory.md
R56, 60_exceptions.md R195; decisions D18, D30). -/
def Obligations.OpenWriteFailure : Prop :=
  ∀ (s : State) (k : Nat) (rest : List Bool), Accepted .openSink s → k < 44 →
    (s.pos.toNat + k < s.sinkCap.size → s.snkFails = List.replicate k false ++ true :: rest →
      exec .openSink s = .next { s with
        out := s.out.writeBytes s.pos.toNat ((containerHeader 0#32 0#32 s.cfgSrate).take k)
        pos := s.pos + BitVec.ofNat 32 k, snkFails := rest
        fault := true, fcause := .outputStreamFailure }) ∧
    (s.pos.toNat + k = s.sinkCap.size → NoSinkFailure s →
      exec .openSink s = .next { s with
        out := s.out.writeBytes s.pos.toNat ((containerHeader 0#32 0#32 s.cfgSrate).take k)
        pos := s.pos + BitVec.ofNat 32 k, snkFails := s.snkFails.drop k
        fault := true, fcause := .outputStreamFailure })

/-- CLOSE patches `POS - 8` at 4 and `POS - 44` at 40, least significant byte first, and closes the
session (44_container.md R173 to R175; that the patches leave `POS` is decision D26). -/
def Obligations.ClosePatchesBothLengths : Prop :=
  ∀ s : State, Accepted .closeSink s → NoSinkFailure s →
    exec .closeSink s = .next { s with
      out := (s.out.writeBytes 4 (le32 (s.pos - 8#32))).writeBytes 40 (le32 (s.pos - 44#32))
      sess := .closed, snkFails := s.snkFails.drop 2 }

/-- The length fields after CLOSE, least significant byte first: the file size less 8, and the file size
less the 44 header bytes, which is the number of samples; 36 and 0 for a file of exactly 44 bytes
(30_encoding.md R99). -/
def Obligations.LengthFieldsAfterClose : Prop :=
  ∀ s : State, StateInv s → Accepted .closeSink s → NoSinkFailure s →
    ∃ t, exec .closeSink s = .next t ∧ t.sess = .closed ∧ t.out.length = t.pos.toNat ∧
      (List.range 4).map (fun k => t.out.read (4 + k)) =
        (le32 (BitVec.ofNat 32 (t.out.length - 8))).map some ∧
      (List.range 4).map (fun k => t.out.read (40 + k)) =
        (le32 (BitVec.ofNat 32 (t.out.length - 44))).map some ∧
      (t.out.length = 44 →
        (List.range 4).map (fun k => t.out.read (4 + k)) = [some 0x24#8, some 0#8, some 0#8, some 0#8] ∧
        (List.range 4).map (fun k => t.out.read (40 + k)) = [some 0#8, some 0#8, some 0#8, some 0#8])

/-- CLOSE that fails before its first or its second patch: the session stays open, and a failure before
the second leaves the first made (44_container.md R175; decisions D18, D30). -/
def Obligations.CloseWriteFailure : Prop :=
  ∀ (s : State) (rest : List Bool), Accepted .closeSink s →
    (s.snkFails = true :: rest →
      exec .closeSink s = .next { s with
        snkFails := rest, fault := true, fcause := .outputStreamFailure }) ∧
    (s.snkFails = false :: true :: rest →
      exec .closeSink s = .next { s with
        out := s.out.writeBytes 4 (le32 (s.pos - 8#32))
        snkFails := rest, fault := true, fcause := .outputStreamFailure })

/-- FILTER appends one sample of the selected amplitude (41_filter.md R124). -/
def Obligations.FilterAppendsOneSample : Prop :=
  ∀ (s : State) (sel : BitVec 8), Accepted (.filter sel) s → NoSinkFailure s → Room 1 s →
    exec (.filter sel) s = .next (emit [if sel = 1#8 then gainAmp s.cfgGain else 0] s)

/-- FILTER and GAP that fail at their sample number `k`, because the stream fails or the sink is full:
the samples before it stay, the accumulators have taken the failing sample, `POS`, `OUT` and `LVL` have
not (41_filter.md R124, 43_framing.md R153, 20_memory.md R56, 60_exceptions.md R195; decisions D14, D18,
D29, D30). -/
def Obligations.FilterAndGapWriteFailure : Prop :=
  ∀ (s : State) (i : Instr) (levels : List Int) (k : Nat) (rest : List Bool),
    (i = .filter 0#8 ∧ levels = [0]) ∨ (i = .filter 1#8 ∧ levels = [gainAmp s.cfgGain]) ∨
      (i = .gap ∧ levels = List.replicate (nsil s.cfgSrate) 0) →
    Accepted i s → k < levels.length →
    let acc := filterAcc s.lp s.hp (levels.take (k + 1))
    (s.pos.toNat + k < s.sinkCap.size → s.snkFails = List.replicate k false ++ true :: rest →
      exec i s = .next { emit (levels.take k) s with
        lp := acc.1, hp := acc.2, snkFails := rest, fault := true, fcause := .outputStreamFailure }) ∧
    (s.pos.toNat + k = s.sinkCap.size → NoSinkFailure s →
      exec i s = .next { emit (levels.take k) s with
        lp := acc.1, hp := acc.2, fault := true, fcause := .outputStreamFailure })

/-- BIT 0 is one half-cycle of `P0` samples at the current level and one toggle; BIT 1 two of `P1`, the
second at the inverted level, and two toggles (42_modulator.md R136, R138; the amplitudes are decision
D7). -/
def Obligations.BitEmitsItsHalfCycles : Prop :=
  ∀ s : State, NoSinkFailure s →
    (Accepted (.bit 0#8) s → Room (period s.cfgSrate false) s →
      exec (.bit 0#8) s = .next
        { emit (List.replicate (period s.cfgSrate false) (levelAmp s.cfgGain s.lvl)) s with
          lvl := !s.lvl }) ∧
    (Accepted (.bit 1#8) s → Room (2 * period s.cfgSrate true) s →
      exec (.bit 1#8) s = .next
        (emit (List.replicate (period s.cfgSrate true) (levelAmp s.cfgGain s.lvl) ++
          List.replicate (period s.cfgSrate true) (levelAmp s.cfgGain (!s.lvl))) s))

/-- BIT, BYTE and LEADER that fail at their sample number `k`, because the stream fails or the sink is
full: the samples before it stay, the accumulators have taken the failing sample, and `LVL` is the level
of the unfinished half-cycle, whose toggle is not made (42_modulator.md R136, R138, R139,
60_exceptions.md R195; decisions D14, D18, D29, D30). -/
def Obligations.ModulatorWriteFailure : Prop :=
  ∀ (s : State) (i : Instr) (bits : List Bool) (k : Nat) (rest : List Bool),
    (∃ a, i = .bit a ∧ bits = [a.getLsbD 0]) ∨ (∃ v, i = .byte v ∧ bits = bitsMsbFirst v) ∨
      (i = .leader ∧ bits = bytesBits (List.replicate 255 0xAA#8)) →
    Accepted i s →
    let levels := bitsLevels s.cfgSrate s.cfgGain s.lvl bits
    let flags := halvesFlags (bitsHalves s.cfgSrate s.lvl bits)
    let acc := filterAcc s.lp s.hp (levels.take (k + 1))
    k < levels.length →
    (s.pos.toNat + k < s.sinkCap.size → s.snkFails = List.replicate k false ++ true :: rest →
      exec i s = .next { emit (levels.take k) s with
        lp := acc.1, hp := acc.2, lvl := flags[k]?.getD s.lvl, snkFails := rest
        fault := true, fcause := .outputStreamFailure }) ∧
    (s.pos.toNat + k = s.sinkCap.size → NoSinkFailure s →
      exec i s = .next { emit (levels.take k) s with
        lp := acc.1, hp := acc.2, lvl := flags[k]?.getD s.lvl
        fault := true, fcause := .outputStreamFailure })

/-- BYTE sends its eight bits, most significant first (42_modulator.md R139). -/
def Obligations.ByteSendsEightBits : Prop :=
  ∀ (s : State) (v : Byte), Accepted (.byte v) s → NoSinkFailure s →
    Room (bitsLevels s.cfgSrate s.cfgGain s.lvl (bitsMsbFirst v)).length s →
    exec (.byte v) s = .next (sendBits
      [v.getLsbD 7, v.getLsbD 6, v.getLsbD 5, v.getLsbD 4, v.getLsbD 3, v.getLsbD 2, v.getLsbD 1,
        v.getLsbD 0] s)

/-- GAP appends `NSIL` samples of amplitude 0 and leaves the level flag (43_framing.md R152, R153;
decisions D10, D11). -/
def Obligations.GapEmitsSilence : Prop :=
  ∀ s : State, Accepted .gap s → NoSinkFailure s → Room (15000 * s.cfgSrate.toNat / 2216750) s →
    exec .gap s = .next (emit (List.replicate (15000 * s.cfgSrate.toNat / 2216750) 0) s)

/-- LEADER sends 255 bytes, each the bit sequence 1, 0, 1, 0, 1, 0, 1, 0 (30_encoding.md R94), and
leaves the level flag as it was. -/
def Obligations.LeaderSendsTheSyncPattern : Prop :=
  ∀ s : State, Accepted .leader s → NoSinkFailure s →
    Room (255 * (4 * period s.cfgSrate false + 8 * period s.cfgSrate true)) s →
    exec .leader s = .next (sendBits
      (List.replicate 255 [true, false, true, false, true, false, true, false]).flatten s) ∧
    (sendBits (List.replicate 255 [true, false, true, false, true, false, true, false]).flatten s).lvl =
      s.lvl

/-- PAYLOAD sends every byte of the image from offset 0, whatever INSPECT found, and ends with
`IPOS = IN_LEN` (43_framing.md R155, R156; the rewinding is decision D16). -/
def Obligations.PayloadSendsTheWholeImage : Prop :=
  ∀ s : State, Accepted .payload s → NoSourceFailure s → NoSinkFailure s →
    Room (bitsLevels s.cfgSrate s.cfgGain s.lvl (bytesBits (imageBytes s))).length s →
    exec .payload s = .next { sendBits (bytesBits (imageBytes s)) s with
      ipos := s.inLen, srcFails := s.srcFails.drop s.inLen.toNat }

/-- PAYLOAD whose read number `k` fails: exactly the bytes before it have been sent and `IPOS` points
at it (43_framing.md R156, 60_exceptions.md R195; decisions D18, D30). -/
def Obligations.PayloadReadFailure : Prop :=
  ∀ (s : State) (k : Nat) (rest : List Bool), Accepted .payload s → NoSinkFailure s →
    k < s.inLen.toNat → s.srcFails = List.replicate k false ++ true :: rest →
    Room (bitsLevels s.cfgSrate s.cfgGain s.lvl (bytesBits ((imageBytes s).take k))).length s →
    exec .payload s = .next { sendBits (bytesBits ((imageBytes s).take k)) s with
      ipos := BitVec.ofNat 32 k, srcFails := rest, fault := true, fcause := .inputStreamFailure }

/-- PAYLOAD whose append fails at sample number `k` of the whole image, inside byte number `j`, because
the stream fails or the sink is full: `IPOS` is just after that byte, and the rest is as for BYTE (43_framing.md R156, 60_exceptions.md R191, R195;
decisions D14, D18, D29, D30). -/
def Obligations.PayloadWriteFailure : Prop :=
  ∀ (s : State) (j k : Nat) (rest : List Bool), Accepted .payload s → NoSourceFailure s →
    j < s.inLen.toNat →
    let bits := bytesBits (imageBytes s)
    let levels := bitsLevels s.cfgSrate s.cfgGain s.lvl bits
    let upTo := fun n => (bitsLevels s.cfgSrate s.cfgGain s.lvl (bytesBits ((imageBytes s).take n))).length
    let flags := halvesFlags (bitsHalves s.cfgSrate s.lvl bits)
    let acc := filterAcc s.lp s.hp (levels.take (k + 1))
    upTo j ≤ k → k < upTo (j + 1) →
    (s.pos.toNat + k < s.sinkCap.size → s.snkFails = List.replicate k false ++ true :: rest →
      exec .payload s = .next { emit (levels.take k) s with
        lp := acc.1, hp := acc.2, lvl := flags[k]?.getD s.lvl
        ipos := BitVec.ofNat 32 (j + 1), srcFails := s.srcFails.drop (j + 1), snkFails := rest
        fault := true, fcause := .outputStreamFailure }) ∧
    (s.pos.toNat + k = s.sinkCap.size → NoSinkFailure s →
      exec .payload s = .next { emit (levels.take k) s with
        lp := acc.1, hp := acc.2, lvl := flags[k]?.getD s.lvl
        ipos := BitVec.ofNat 32 (j + 1), srcFails := s.srcFails.drop (j + 1)
        fault := true, fcause := .outputStreamFailure })

/-- ENCODE from an empty sink, without a stream failure and with room, leaves exactly the tape file in
the sink: the header with both lengths, then the filtered samples of gap, leader, whole image and gap;
the session is closed (43_framing.md R157, R158, 44_container.md R176; the sample values rest on
decisions D5 to D8 and D10, the header constants on D12 and D13). -/
def Obligations.EncodeProducesTheTapeFile : Prop :=
  ∀ s : State, Accepted .encode s → NoSourceFailure s → NoSinkFailure s → s.pos = 0#32 → s.out = [] →
    let levels := tapeLevels s.cfgSrate s.cfgGain (imageBytes s)
    44 + levels.length ≤ s.sinkCap.size →
    exec .encode s = .next { s with
      out := memoryOf (tapeFile s.cfgSrate s.cfgGain (imageBytes s))
      pos := BitVec.ofNat 32 (44 + levels.length)
      lp := (filterAcc 0#64 0#64 levels).1, hp := (filterAcc 0#64 0#64 levels).2
      lvl := lvlAfter false (tapeBits (imageBytes s)), ipos := s.inLen, sess := .closed
      srcFails := s.srcFails.drop s.inLen.toNat, snkFails := s.snkFails.drop (46 + levels.length) }

/-! ### Equivalences -/

/-- The state a list of commands leaves, each presented after the one before it has ended. -/
def execAll (is : List Instr) (s : State) : State :=
  is.foldl (fun s i => match exec i s with
    | .next t => t
    | .fault _ => s
    | .refused _ => s) s

/-- A byte is sent as its 8 bits, 7 down to 0, and as nothing else (30_encoding.md R91): BYTE is its
eight BIT commands. The leader is 255 bytes 0xAA, each the bits 1, 0, 1, 0, 1, 0, 1, 0 (R94): LEADER is
those 2040 BIT commands. In every state, and whatever fails. -/
def Obligations.BytesAreTheirBitsAndNothingElse : Prop :=
  (∀ (s : State) (v : Byte), exec (.byte v) s = .next (execAll
    ([v.getLsbD 7, v.getLsbD 6, v.getLsbD 5, v.getLsbD 4, v.getLsbD 3, v.getLsbD 2, v.getLsbD 1,
      v.getLsbD 0].map fun b => .bit (if b then 1#8 else 0#8)) s)) ∧
  (∀ s : State, exec .leader s = .next (execAll (List.replicate 255 (.byte 0xAA#8)) s)) ∧
  (∀ s : State, exec .leader s = .next (execAll (List.replicate 255
    [.bit 1#8, .bit 0#8, .bit 1#8, .bit 0#8, .bit 1#8, .bit 0#8, .bit 1#8, .bit 0#8]).flatten s))

/-- GAP is `NSIL` commands FILTER 0, whatever fails (30_encoding.md R88; 43_framing.md R153). Where
`NSIL` is 0, which it is at no legal rate, there would be no command to compare with. -/
def Obligations.GapIsFilterZeroRepeated : Prop :=
  ∀ s : State, nsil s.cfgSrate ≠ 0 →
    exec .gap s = .next (execAll (List.replicate (nsil s.cfgSrate) (.filter 0#8)) s)

/-- The payload is the whole image, byte by byte, any header included: but for `IPOS` and the
environment's answers to reads, PAYLOAD is one BYTE command for each byte of the image, whatever
write fails. What INSPECT found and the position it left are not consulted (43_framing.md R155). -/
def Obligations.PayloadIsTheWholeImage : Prop :=
  (∀ s : State, Accepted .payload s → NoSourceFailure s →
    ∃ t, exec .payload s = .next t ∧
      { t with ipos := s.ipos, srcFails := s.srcFails } =
        execAll ((imageBytes s).map fun v => .byte v) s) ∧
  (∀ (s : State) (st : HdrStat) (size p : Word32), Accepted .payload s →
    ∃ t, exec .payload s = .next t ∧
      exec .payload { s with hdrStat := st, hdrSize := size, ipos := p } =
        .next { t with hdrStat := st, hdrSize := size })

/-- ENCODE is the seven commands issued one after another, in every state in which it is legal and both
pins are 1, whatever fails inside (43_framing.md R158, 30_encoding.md R88). -/
def Obligations.EncodeIsItsSevenCommands : Prop :=
  ∀ s : State, s.fault = false → s.sess = .idle → s.srcPresent = true → s.snkPresent = true →
    exec .encode s =
      .next (execAll [.init, .openSink, .gap, .leader, .payload, .gap, .closeSink] s)

/-- Whether INSPECT ran before does not change what ENCODE writes, nor anything else of it but the
inspection registers, and `IPOS` when ENCODE stops before its payload (40_inspector.md R113, R114 d). -/
def Obligations.InspectionDoesNotChangeTheTape : Prop :=
  ∀ s : State, NoSourceFailure s → Accepted .encode s →
    let t := execAll [.inspect, .encode] s
    let u := execAll [.encode] s
    t.out = u.out ∧ t.pos = u.pos ∧ t.sess = u.sess ∧ t.lvl = u.lvl ∧ t.lp = u.lp ∧ t.hp = u.hp ∧
      t.fault = u.fault ∧ t.fcause = u.fcause ∧ (u.fault = false → t.ipos = u.ipos)

/-! ### Frames -/

/-- No command writes the configuration, the image, its length, the launch parameter, the pins or the
host's queue, and every command answers a next state; none clears `FAULT`, and `FCAUSE` changes only when
`FAULT` is set (10_state.md R30, R35, R37, 70_reset_and_hazards.md R217). -/
def Obligations.NoCommandWritesTheLaunch : Prop :=
  ∀ (i : Instr) (s : State), ∃ t, exec i s = .next t ∧
    t.cfgSrate = s.cfgSrate ∧ t.cfgGain = s.cfgGain ∧ t.img = s.img ∧ t.inLen = s.inLen ∧
    t.sinkCap = s.sinkCap ∧ t.srcPresent = s.srcPresent ∧ t.snkPresent = s.snkPresent ∧
    t.hostQ = s.hostQ ∧ t.started = s.started ∧
    (s.fault = true → t.fault = true) ∧ (t.fault = s.fault → t.fcause = s.fcause)

/-- Frame of the commands that produce samples and read no image, FILTER, GAP, BIT, BYTE and LEADER,
whether or not they raise: beside `LP`, `HP`, `POS`, the fault registers and the environment's answers
to writes they change only `LVL`, and FILTER and GAP not even that; every byte outside
`OUT[POS .. POS' - 1]` stays (41_filter.md R124, 42_modulator.md R138, R139, 43_framing.md R153,
R154). -/
def Obligations.SampleCommandsFrame : Prop :=
  ∀ (i : Instr) (s t : State), i ∈ [.gap, .leader] ∨ (∃ a, i ∈ [.filter a, .bit a, .byte a]) →
    exec i s = .next t →
    t.sess = s.sess ∧ t.ipos = s.ipos ∧ t.cfgSrate = s.cfgSrate ∧ t.cfgGain = s.cfgGain ∧
    t.hdrStat = s.hdrStat ∧ t.hdrSize = s.hdrSize ∧ t.inLen = s.inLen ∧ t.img = s.img ∧
    t.sinkCap = s.sinkCap ∧ t.srcPresent = s.srcPresent ∧ t.snkPresent = s.snkPresent ∧
    t.srcFails = s.srcFails ∧ t.hostQ = s.hostQ ∧ t.started = s.started ∧
    (i = .gap ∨ (∃ a, i = .filter a) → t.lvl = s.lvl) ∧
    s.pos.toNat ≤ t.pos.toNat ∧
    ∀ a, a < s.pos.toNat ∨ t.pos.toNat ≤ a → t.out.read a = s.out.read a

/-- Frame of PAYLOAD: as the other sample commands, and `IPOS` and the environment's answers to reads
may change too (43_framing.md R156). -/
def Obligations.PayloadFrame : Prop :=
  ∀ s t : State, exec .payload s = .next t →
    t.sess = s.sess ∧ t.cfgSrate = s.cfgSrate ∧ t.cfgGain = s.cfgGain ∧
    t.hdrStat = s.hdrStat ∧ t.hdrSize = s.hdrSize ∧ t.inLen = s.inLen ∧ t.img = s.img ∧
    t.sinkCap = s.sinkCap ∧ t.srcPresent = s.srcPresent ∧ t.snkPresent = s.snkPresent ∧
    t.hostQ = s.hostQ ∧ t.started = s.started ∧ s.pos.toNat ≤ t.pos.toNat ∧
    ∀ a, a < s.pos.toNat ∨ t.pos.toNat ≤ a → t.out.read a = s.out.read a

/-- Frame of the commands that store nothing: INIT writes only the accumulators and the level flag,
INSPECT only its two status registers, `IPOS` and the environment's answers to reads; on a raise the
fault registers too. Every byte of `OUT` stays (43_framing.md R150, 40_inspector.md R112). -/
def Obligations.InitAndInspectFrame : Prop :=
  (∀ s t : State, exec .init s = .next t →
    { t with lp := s.lp, hp := s.hp, lvl := s.lvl, fault := s.fault, fcause := s.fcause } = s ∧
      ∀ a, t.out.read a = s.out.read a) ∧
  (∀ s t : State, exec .inspect s = .next t →
    { t with hdrStat := s.hdrStat, hdrSize := s.hdrSize, ipos := s.ipos, srcFails := s.srcFails,
             fault := s.fault, fcause := s.fcause } = s ∧
      (t.fault = true → t.hdrStat = s.hdrStat ∧ t.hdrSize = s.hdrSize) ∧
      ∀ a, t.out.read a = s.out.read a)

/-- Frame of the container commands: OPEN writes only `OUT[POS .. POS' - 1]`, `POS`, `SESS`, CLOSE only
the bytes 4 to 7 and 40 to 43 and `SESS`; on a raise the fault registers, and `SESS` stays
(44_container.md R171, R175). -/
def Obligations.OpenAndCloseFrame : Prop :=
  (∀ s t : State, exec .openSink s = .next t →
    { t with out := s.out, pos := s.pos, sess := s.sess, snkFails := s.snkFails,
             fault := s.fault, fcause := s.fcause } = s ∧
      (t.fault = true → t.sess = s.sess) ∧ s.pos.toNat ≤ t.pos.toNat ∧
      ∀ a, a < s.pos.toNat ∨ t.pos.toNat ≤ a → t.out.read a = s.out.read a) ∧
  (∀ s t : State, exec .closeSink s = .next t →
    { t with out := s.out, sess := s.sess, snkFails := s.snkFails,
             fault := s.fault, fcause := s.fcause } = s ∧
      (t.fault = true → t.sess = s.sess) ∧
      ∀ a, ¬(4 ≤ a ∧ a < 8) → ¬(40 ≤ a ∧ a < 44) → t.out.read a = s.out.read a)

/-- Frame of ENCODE: the inspection registers stay, and so does every byte outside
`OUT[POS .. POS' - 1]` and the two patched fields (43_framing.md R158, 90_conflicts.md C8). -/
def Obligations.EncodeFrame : Prop :=
  ∀ s t : State, exec .encode s = .next t →
    t.cfgSrate = s.cfgSrate ∧ t.cfgGain = s.cfgGain ∧ t.hdrStat = s.hdrStat ∧ t.hdrSize = s.hdrSize ∧
    t.inLen = s.inLen ∧ t.img = s.img ∧ t.sinkCap = s.sinkCap ∧ t.srcPresent = s.srcPresent ∧
    t.snkPresent = s.snkPresent ∧ t.hostQ = s.hostQ ∧ t.started = s.started ∧
    s.pos.toNat ≤ t.pos.toNat ∧
    ∀ a, a < s.pos.toNat ∨ t.pos.toNat ≤ a → ¬(4 ≤ a ∧ a < 8) → ¬(40 ≤ a ∧ a < 44) →
      t.out.read a = s.out.read a
end

