-- ==== Sys2Proof/Laws/State.lean ====
section
/-! SUPPORT. One lemma per field of State for each named update of it, true by rfl. -/

namespace Sys2Proof.Machine

variable (s : State)


/-! ### `memWrite` -/

@[simp] theorem memWrite_lvl (a : Nat) (v : List Byte) : (memWrite s a v).lvl = s.lvl := rfl
@[simp] theorem memWrite_lp (a : Nat) (v : List Byte) : (memWrite s a v).lp = s.lp := rfl
@[simp] theorem memWrite_hp (a : Nat) (v : List Byte) : (memWrite s a v).hp = s.hp := rfl
@[simp] theorem memWrite_sess (a : Nat) (v : List Byte) : (memWrite s a v).sess = s.sess := rfl
@[simp] theorem memWrite_pos (a : Nat) (v : List Byte) : (memWrite s a v).pos = s.pos := rfl
@[simp] theorem memWrite_ipos (a : Nat) (v : List Byte) : (memWrite s a v).ipos = s.ipos := rfl
@[simp] theorem memWrite_cfgSrate (a : Nat) (v : List Byte) : (memWrite s a v).cfgSrate = s.cfgSrate := rfl
@[simp] theorem memWrite_cfgGain (a : Nat) (v : List Byte) : (memWrite s a v).cfgGain = s.cfgGain := rfl
@[simp] theorem memWrite_fault (a : Nat) (v : List Byte) : (memWrite s a v).fault = s.fault := rfl
@[simp] theorem memWrite_fcause (a : Nat) (v : List Byte) : (memWrite s a v).fcause = s.fcause := rfl
@[simp] theorem memWrite_hdrStat (a : Nat) (v : List Byte) : (memWrite s a v).hdrStat = s.hdrStat := rfl
@[simp] theorem memWrite_hdrSize (a : Nat) (v : List Byte) : (memWrite s a v).hdrSize = s.hdrSize := rfl
@[simp] theorem memWrite_inLen (a : Nat) (v : List Byte) : (memWrite s a v).inLen = s.inLen := rfl
@[simp] theorem memWrite_img (a : Nat) (v : List Byte) : (memWrite s a v).img = s.img := rfl
@[simp] theorem memWrite_out (a : Nat) (v : List Byte) : (memWrite s a v).out = s.out.writeBytes a v := rfl
@[simp] theorem memWrite_sinkCap (a : Nat) (v : List Byte) : (memWrite s a v).sinkCap = s.sinkCap := rfl
@[simp] theorem memWrite_srcPresent (a : Nat) (v : List Byte) : (memWrite s a v).srcPresent = s.srcPresent := rfl
@[simp] theorem memWrite_snkPresent (a : Nat) (v : List Byte) : (memWrite s a v).snkPresent = s.snkPresent := rfl
@[simp] theorem memWrite_srcFails (a : Nat) (v : List Byte) : (memWrite s a v).srcFails = s.srcFails := rfl
@[simp] theorem memWrite_snkFails (a : Nat) (v : List Byte) : (memWrite s a v).snkFails = s.snkFails := rfl
@[simp] theorem memWrite_hostQ (a : Nat) (v : List Byte) : (memWrite s a v).hostQ = s.hostQ := rfl
@[simp] theorem memWrite_started (a : Nat) (v : List Byte) : (memWrite s a v).started = s.started := rfl

/-! ### `toggleLvl` -/

@[simp] theorem toggleLvl_lvl : (toggleLvl s).lvl = !s.lvl := rfl
@[simp] theorem toggleLvl_lp : (toggleLvl s).lp = s.lp := rfl
@[simp] theorem toggleLvl_hp : (toggleLvl s).hp = s.hp := rfl
@[simp] theorem toggleLvl_sess : (toggleLvl s).sess = s.sess := rfl
@[simp] theorem toggleLvl_pos : (toggleLvl s).pos = s.pos := rfl
@[simp] theorem toggleLvl_ipos : (toggleLvl s).ipos = s.ipos := rfl
@[simp] theorem toggleLvl_cfgSrate : (toggleLvl s).cfgSrate = s.cfgSrate := rfl
@[simp] theorem toggleLvl_cfgGain : (toggleLvl s).cfgGain = s.cfgGain := rfl
@[simp] theorem toggleLvl_fault : (toggleLvl s).fault = s.fault := rfl
@[simp] theorem toggleLvl_fcause : (toggleLvl s).fcause = s.fcause := rfl
@[simp] theorem toggleLvl_hdrStat : (toggleLvl s).hdrStat = s.hdrStat := rfl
@[simp] theorem toggleLvl_hdrSize : (toggleLvl s).hdrSize = s.hdrSize := rfl
@[simp] theorem toggleLvl_inLen : (toggleLvl s).inLen = s.inLen := rfl
@[simp] theorem toggleLvl_img : (toggleLvl s).img = s.img := rfl
@[simp] theorem toggleLvl_out : (toggleLvl s).out = s.out := rfl
@[simp] theorem toggleLvl_sinkCap : (toggleLvl s).sinkCap = s.sinkCap := rfl
@[simp] theorem toggleLvl_srcPresent : (toggleLvl s).srcPresent = s.srcPresent := rfl
@[simp] theorem toggleLvl_snkPresent : (toggleLvl s).snkPresent = s.snkPresent := rfl
@[simp] theorem toggleLvl_srcFails : (toggleLvl s).srcFails = s.srcFails := rfl
@[simp] theorem toggleLvl_snkFails : (toggleLvl s).snkFails = s.snkFails := rfl
@[simp] theorem toggleLvl_hostQ : (toggleLvl s).hostQ = s.hostQ := rfl
@[simp] theorem toggleLvl_started : (toggleLvl s).started = s.started := rfl

/-! ### `raise_state` -/

@[simp] theorem raise_state_lvl (c : Cause) : ((raise c s).state).lvl = s.lvl := rfl
@[simp] theorem raise_state_lp (c : Cause) : ((raise c s).state).lp = s.lp := rfl
@[simp] theorem raise_state_hp (c : Cause) : ((raise c s).state).hp = s.hp := rfl
@[simp] theorem raise_state_sess (c : Cause) : ((raise c s).state).sess = s.sess := rfl
@[simp] theorem raise_state_pos (c : Cause) : ((raise c s).state).pos = s.pos := rfl
@[simp] theorem raise_state_ipos (c : Cause) : ((raise c s).state).ipos = s.ipos := rfl
@[simp] theorem raise_state_cfgSrate (c : Cause) : ((raise c s).state).cfgSrate = s.cfgSrate := rfl
@[simp] theorem raise_state_cfgGain (c : Cause) : ((raise c s).state).cfgGain = s.cfgGain := rfl
@[simp] theorem raise_state_fault (c : Cause) : ((raise c s).state).fault = true := rfl
@[simp] theorem raise_state_fcause (c : Cause) : ((raise c s).state).fcause = c := rfl
@[simp] theorem raise_state_hdrStat (c : Cause) : ((raise c s).state).hdrStat = s.hdrStat := rfl
@[simp] theorem raise_state_hdrSize (c : Cause) : ((raise c s).state).hdrSize = s.hdrSize := rfl
@[simp] theorem raise_state_inLen (c : Cause) : ((raise c s).state).inLen = s.inLen := rfl
@[simp] theorem raise_state_img (c : Cause) : ((raise c s).state).img = s.img := rfl
@[simp] theorem raise_state_out (c : Cause) : ((raise c s).state).out = s.out := rfl
@[simp] theorem raise_state_sinkCap (c : Cause) : ((raise c s).state).sinkCap = s.sinkCap := rfl
@[simp] theorem raise_state_srcPresent (c : Cause) : ((raise c s).state).srcPresent = s.srcPresent := rfl
@[simp] theorem raise_state_snkPresent (c : Cause) : ((raise c s).state).snkPresent = s.snkPresent := rfl
@[simp] theorem raise_state_srcFails (c : Cause) : ((raise c s).state).srcFails = s.srcFails := rfl
@[simp] theorem raise_state_snkFails (c : Cause) : ((raise c s).state).snkFails = s.snkFails := rfl
@[simp] theorem raise_state_hostQ (c : Cause) : ((raise c s).state).hostQ = s.hostQ := rfl
@[simp] theorem raise_state_started (c : Cause) : ((raise c s).state).started = s.started := rfl

/-! ### `toneFilter_state` -/

@[simp] theorem toneFilter_state_lvl (l : Int) : ((toneFilter l s).2).lvl = s.lvl := rfl
@[simp] theorem toneFilter_state_lp (l : Int) : ((toneFilter l s).2).lp = nextLp l s.lp := rfl
@[simp] theorem toneFilter_state_hp (l : Int) : ((toneFilter l s).2).hp = nextHp (nextLp l s.lp) s.hp := rfl
@[simp] theorem toneFilter_state_sess (l : Int) : ((toneFilter l s).2).sess = s.sess := rfl
@[simp] theorem toneFilter_state_pos (l : Int) : ((toneFilter l s).2).pos = s.pos := rfl
@[simp] theorem toneFilter_state_ipos (l : Int) : ((toneFilter l s).2).ipos = s.ipos := rfl
@[simp] theorem toneFilter_state_cfgSrate (l : Int) : ((toneFilter l s).2).cfgSrate = s.cfgSrate := rfl
@[simp] theorem toneFilter_state_cfgGain (l : Int) : ((toneFilter l s).2).cfgGain = s.cfgGain := rfl
@[simp] theorem toneFilter_state_fault (l : Int) : ((toneFilter l s).2).fault = s.fault := rfl
@[simp] theorem toneFilter_state_fcause (l : Int) : ((toneFilter l s).2).fcause = s.fcause := rfl
@[simp] theorem toneFilter_state_hdrStat (l : Int) : ((toneFilter l s).2).hdrStat = s.hdrStat := rfl
@[simp] theorem toneFilter_state_hdrSize (l : Int) : ((toneFilter l s).2).hdrSize = s.hdrSize := rfl
@[simp] theorem toneFilter_state_inLen (l : Int) : ((toneFilter l s).2).inLen = s.inLen := rfl
@[simp] theorem toneFilter_state_img (l : Int) : ((toneFilter l s).2).img = s.img := rfl
@[simp] theorem toneFilter_state_out (l : Int) : ((toneFilter l s).2).out = s.out := rfl
@[simp] theorem toneFilter_state_sinkCap (l : Int) : ((toneFilter l s).2).sinkCap = s.sinkCap := rfl
@[simp] theorem toneFilter_state_srcPresent (l : Int) : ((toneFilter l s).2).srcPresent = s.srcPresent := rfl
@[simp] theorem toneFilter_state_snkPresent (l : Int) : ((toneFilter l s).2).snkPresent = s.snkPresent := rfl
@[simp] theorem toneFilter_state_srcFails (l : Int) : ((toneFilter l s).2).srcFails = s.srcFails := rfl
@[simp] theorem toneFilter_state_snkFails (l : Int) : ((toneFilter l s).2).snkFails = s.snkFails := rfl
@[simp] theorem toneFilter_state_hostQ (l : Int) : ((toneFilter l s).2).hostQ = s.hostQ := rfl
@[simp] theorem toneFilter_state_started (l : Int) : ((toneFilter l s).2).started = s.started := rfl

/-! ### `resetEvent` -/

@[simp] theorem resetEvent_lvl : (resetEvent s).lvl = State.reset.lvl := rfl
@[simp] theorem resetEvent_lp : (resetEvent s).lp = State.reset.lp := rfl
@[simp] theorem resetEvent_hp : (resetEvent s).hp = State.reset.hp := rfl
@[simp] theorem resetEvent_sess : (resetEvent s).sess = State.reset.sess := rfl
@[simp] theorem resetEvent_pos : (resetEvent s).pos = State.reset.pos := rfl
@[simp] theorem resetEvent_ipos : (resetEvent s).ipos = State.reset.ipos := rfl
@[simp] theorem resetEvent_cfgSrate : (resetEvent s).cfgSrate = State.reset.cfgSrate := rfl
@[simp] theorem resetEvent_cfgGain : (resetEvent s).cfgGain = State.reset.cfgGain := rfl
@[simp] theorem resetEvent_fault : (resetEvent s).fault = State.reset.fault := rfl
@[simp] theorem resetEvent_fcause : (resetEvent s).fcause = State.reset.fcause := rfl
@[simp] theorem resetEvent_hdrStat : (resetEvent s).hdrStat = State.reset.hdrStat := rfl
@[simp] theorem resetEvent_hdrSize : (resetEvent s).hdrSize = State.reset.hdrSize := rfl
@[simp] theorem resetEvent_inLen : (resetEvent s).inLen = State.reset.inLen := rfl
@[simp] theorem resetEvent_img : (resetEvent s).img = State.reset.img := rfl
@[simp] theorem resetEvent_out : (resetEvent s).out = State.reset.out := rfl
@[simp] theorem resetEvent_sinkCap : (resetEvent s).sinkCap = s.sinkCap := rfl
@[simp] theorem resetEvent_srcPresent : (resetEvent s).srcPresent = s.srcPresent := rfl
@[simp] theorem resetEvent_snkPresent : (resetEvent s).snkPresent = s.snkPresent := rfl
@[simp] theorem resetEvent_srcFails : (resetEvent s).srcFails = s.srcFails := rfl
@[simp] theorem resetEvent_snkFails : (resetEvent s).snkFails = s.snkFails := rfl
@[simp] theorem resetEvent_hostQ : (resetEvent s).hostQ = s.hostQ := rfl
@[simp] theorem resetEvent_started : (resetEvent s).started = State.reset.started := rfl

/-! ### `withFetchWord` -/

@[simp] theorem withFetchWord_lvl (n w : Nat) : (s.withFetchWord n w).lvl = s.lvl := rfl
@[simp] theorem withFetchWord_lp (n w : Nat) : (s.withFetchWord n w).lp = s.lp := rfl
@[simp] theorem withFetchWord_hp (n w : Nat) : (s.withFetchWord n w).hp = s.hp := rfl
@[simp] theorem withFetchWord_sess (n w : Nat) : (s.withFetchWord n w).sess = s.sess := rfl
@[simp] theorem withFetchWord_pos (n w : Nat) : (s.withFetchWord n w).pos = s.pos := rfl
@[simp] theorem withFetchWord_ipos (n w : Nat) : (s.withFetchWord n w).ipos = s.ipos := rfl
@[simp] theorem withFetchWord_cfgSrate (n w : Nat) : (s.withFetchWord n w).cfgSrate = s.cfgSrate := rfl
@[simp] theorem withFetchWord_cfgGain (n w : Nat) : (s.withFetchWord n w).cfgGain = s.cfgGain := rfl
@[simp] theorem withFetchWord_fault (n w : Nat) : (s.withFetchWord n w).fault = s.fault := rfl
@[simp] theorem withFetchWord_fcause (n w : Nat) : (s.withFetchWord n w).fcause = s.fcause := rfl
@[simp] theorem withFetchWord_hdrStat (n w : Nat) : (s.withFetchWord n w).hdrStat = s.hdrStat := rfl
@[simp] theorem withFetchWord_hdrSize (n w : Nat) : (s.withFetchWord n w).hdrSize = s.hdrSize := rfl
@[simp] theorem withFetchWord_inLen (n w : Nat) : (s.withFetchWord n w).inLen = s.inLen := rfl
@[simp] theorem withFetchWord_img (n w : Nat) : (s.withFetchWord n w).img = s.img := rfl
@[simp] theorem withFetchWord_out (n w : Nat) : (s.withFetchWord n w).out = s.out := rfl
@[simp] theorem withFetchWord_sinkCap (n w : Nat) : (s.withFetchWord n w).sinkCap = s.sinkCap := rfl
@[simp] theorem withFetchWord_srcPresent (n w : Nat) : (s.withFetchWord n w).srcPresent = s.srcPresent := rfl
@[simp] theorem withFetchWord_snkPresent (n w : Nat) : (s.withFetchWord n w).snkPresent = s.snkPresent := rfl
@[simp] theorem withFetchWord_srcFails (n w : Nat) : (s.withFetchWord n w).srcFails = s.srcFails := rfl
@[simp] theorem withFetchWord_snkFails (n w : Nat) : (s.withFetchWord n w).snkFails = s.snkFails := rfl
@[simp] theorem withFetchWord_hostQ (n w : Nat) : (s.withFetchWord n w).hostQ = .command (BitVec.ofNat 16 w) :: s.hostQ := rfl
@[simp] theorem withFetchWord_started (n w : Nat) : (s.withFetchWord n w).started = s.started := rfl

/-! ### `askSnkFail_state` -/

@[simp] theorem askSnkFail_state_lvl : ((askSnkFail s).2).lvl = s.lvl := rfl
@[simp] theorem askSnkFail_state_lp : ((askSnkFail s).2).lp = s.lp := rfl
@[simp] theorem askSnkFail_state_hp : ((askSnkFail s).2).hp = s.hp := rfl
@[simp] theorem askSnkFail_state_sess : ((askSnkFail s).2).sess = s.sess := rfl
@[simp] theorem askSnkFail_state_pos : ((askSnkFail s).2).pos = s.pos := rfl
@[simp] theorem askSnkFail_state_ipos : ((askSnkFail s).2).ipos = s.ipos := rfl
@[simp] theorem askSnkFail_state_cfgSrate : ((askSnkFail s).2).cfgSrate = s.cfgSrate := rfl
@[simp] theorem askSnkFail_state_cfgGain : ((askSnkFail s).2).cfgGain = s.cfgGain := rfl
@[simp] theorem askSnkFail_state_fault : ((askSnkFail s).2).fault = s.fault := rfl
@[simp] theorem askSnkFail_state_fcause : ((askSnkFail s).2).fcause = s.fcause := rfl
@[simp] theorem askSnkFail_state_hdrStat : ((askSnkFail s).2).hdrStat = s.hdrStat := rfl
@[simp] theorem askSnkFail_state_hdrSize : ((askSnkFail s).2).hdrSize = s.hdrSize := rfl
@[simp] theorem askSnkFail_state_inLen : ((askSnkFail s).2).inLen = s.inLen := rfl
@[simp] theorem askSnkFail_state_img : ((askSnkFail s).2).img = s.img := rfl
@[simp] theorem askSnkFail_state_out : ((askSnkFail s).2).out = s.out := rfl
@[simp] theorem askSnkFail_state_sinkCap : ((askSnkFail s).2).sinkCap = s.sinkCap := rfl
@[simp] theorem askSnkFail_state_srcPresent : ((askSnkFail s).2).srcPresent = s.srcPresent := rfl
@[simp] theorem askSnkFail_state_snkPresent : ((askSnkFail s).2).snkPresent = s.snkPresent := rfl
@[simp] theorem askSnkFail_state_srcFails : ((askSnkFail s).2).srcFails = s.srcFails := rfl
@[simp] theorem askSnkFail_state_snkFails : ((askSnkFail s).2).snkFails = s.snkFails.tail := rfl
@[simp] theorem askSnkFail_state_hostQ : ((askSnkFail s).2).hostQ = s.hostQ := rfl
@[simp] theorem askSnkFail_state_started : ((askSnkFail s).2).started = s.started := rfl
@[simp] theorem askSnkFail_answer : (askSnkFail s).1 = nextAnswer s.snkFails := rfl

/-! ### `askSrcFail_state` -/

@[simp] theorem askSrcFail_state_lvl : ((askSrcFail s).2).lvl = s.lvl := rfl
@[simp] theorem askSrcFail_state_lp : ((askSrcFail s).2).lp = s.lp := rfl
@[simp] theorem askSrcFail_state_hp : ((askSrcFail s).2).hp = s.hp := rfl
@[simp] theorem askSrcFail_state_sess : ((askSrcFail s).2).sess = s.sess := rfl
@[simp] theorem askSrcFail_state_pos : ((askSrcFail s).2).pos = s.pos := rfl
@[simp] theorem askSrcFail_state_ipos : ((askSrcFail s).2).ipos = s.ipos := rfl
@[simp] theorem askSrcFail_state_cfgSrate : ((askSrcFail s).2).cfgSrate = s.cfgSrate := rfl
@[simp] theorem askSrcFail_state_cfgGain : ((askSrcFail s).2).cfgGain = s.cfgGain := rfl
@[simp] theorem askSrcFail_state_fault : ((askSrcFail s).2).fault = s.fault := rfl
@[simp] theorem askSrcFail_state_fcause : ((askSrcFail s).2).fcause = s.fcause := rfl
@[simp] theorem askSrcFail_state_hdrStat : ((askSrcFail s).2).hdrStat = s.hdrStat := rfl
@[simp] theorem askSrcFail_state_hdrSize : ((askSrcFail s).2).hdrSize = s.hdrSize := rfl
@[simp] theorem askSrcFail_state_inLen : ((askSrcFail s).2).inLen = s.inLen := rfl
@[simp] theorem askSrcFail_state_img : ((askSrcFail s).2).img = s.img := rfl
@[simp] theorem askSrcFail_state_out : ((askSrcFail s).2).out = s.out := rfl
@[simp] theorem askSrcFail_state_sinkCap : ((askSrcFail s).2).sinkCap = s.sinkCap := rfl
@[simp] theorem askSrcFail_state_srcPresent : ((askSrcFail s).2).srcPresent = s.srcPresent := rfl
@[simp] theorem askSrcFail_state_snkPresent : ((askSrcFail s).2).snkPresent = s.snkPresent := rfl
@[simp] theorem askSrcFail_state_srcFails : ((askSrcFail s).2).srcFails = s.srcFails.tail := rfl
@[simp] theorem askSrcFail_state_snkFails : ((askSrcFail s).2).snkFails = s.snkFails := rfl
@[simp] theorem askSrcFail_state_hostQ : ((askSrcFail s).2).hostQ = s.hostQ := rfl
@[simp] theorem askSrcFail_state_started : ((askSrcFail s).2).started = s.started := rfl
@[simp] theorem askSrcFail_answer : (askSrcFail s).1 = nextAnswer s.srcFails := rfl
@[simp] theorem nextAnswer_nil : nextAnswer [] = false := rfl
@[simp] theorem nextAnswer_cons (b : Bool) (l : List Bool) : nextAnswer (b :: l) = b := rfl

/-! ### Runs -/

@[simp] theorem Run.state_done : (Run.done s).state = s := rfl
@[simp] theorem Run.state_raised : (Run.raised s).state = s := rfl
@[simp] theorem Run.done_andThen (f : State → Run) : (Run.done s).andThen f = f s := rfl
@[simp] theorem Run.raised_andThen (f : State → Run) : (Run.raised s).andThen f = .raised s := rfl
@[simp] theorem repeatRun_zero (f : State → Run) : repeatRun 0 f s = .done s := rfl
@[simp] theorem forEachRun_nil {α : Type} (f : α → State → Run) : forEachRun [] f s = .done s := rfl
@[simp] theorem forEachRun_cons {α : Type} (x : α) (xs : List α) (f : α → State → Run) :
    forEachRun (x :: xs) f s = (f x s).andThen (forEachRun xs f) := rfl

theorem repeatRun_succ (n : Nat) (f : State → Run) :
    repeatRun (n + 1) f s = (f s).andThen (repeatRun n f) := rfl

theorem Run.andThen_assoc (r : Run) (f g : State → Run) :
    (r.andThen f).andThen g = r.andThen fun s => (f s).andThen g := by
  cases r <;> rfl

end Sys2Proof.Machine
end

