-- ==== Sys2Proof/Laws/Memory.lean ====
section
/-! SUPPORT. Memories: reading after writing, the canonical form, and a memory that lists exactly the
addresses below a bound. -/

namespace Sys2Proof.Machine

@[simp] theorem Memory.read_nil (a : Nat) : Memory.read [] a = none := rfl

theorem Memory.read_write (m : Memory) (a x : Nat) (b : Byte) :
    (m.write a b).read x = if x = a then some b else m.read x := by
  induction m with
  | nil =>
    simp only [Memory.write, Memory.read]
    by_cases h : x = a
    · simp [h]
    · simp [h, Ne.symm h]
  | cons c m ih =>
    obtain ⟨k, v⟩ := c
    simp only [Memory.write]
    split
    · simp only [Memory.read]
      by_cases h : x = a
      · simp [h]
      · simp [h, Ne.symm h]
    · split
      · rename_i h
        subst h
        simp only [Memory.read]
        by_cases h : x = a
        · simp [h]
        · simp [h, Ne.symm h]
      · simp only [Memory.read, ih]
        by_cases hk : k = x
        · subst hk
          have : k ≠ a := by omega
          simp [this]
        · simp [hk]

theorem Memory.read_writeBytes (bs : List Byte) : ∀ (m : Memory) (a x : Nat),
    (m.writeBytes a bs).read x =
      if a ≤ x ∧ x < a + bs.length then bs[x - a]? else m.read x := by
  induction bs with
  | nil =>
    intro m a x
    have : ¬ (a ≤ x ∧ x < a) := by omega
    simp [Memory.writeBytes, this]
  | cons b bs ih =>
    intro m a x
    simp only [Memory.writeBytes, ih, Memory.read_write, List.length_cons]
    by_cases h1 : x = a
    · subst h1
      simp
    · by_cases h2 : a + 1 ≤ x ∧ x < a + 1 + bs.length
      · have h3 : a ≤ x ∧ x < a + (bs.length + 1) := by omega
        have h4 : x - a = (x - (a + 1)) + 1 := by omega
        rw [if_pos h2, if_pos h3, h4]
        simp
      · have h3 : ¬ (a ≤ x ∧ x < a + (bs.length + 1)) := by omega
        rw [if_neg h2, if_neg h1, if_neg h3]

/-- The addresses of a memory after a write: the canonical form survives, and the new address is the
only one added. -/
theorem Memory.mem_addresses_write (m : Memory) (a x : Nat) (b : Byte) :
    x ∈ (m.write a b).map Prod.fst ↔ x = a ∨ x ∈ m.map Prod.fst := by
  induction m with
  | nil => simp [Memory.write]
  | cons c m ih =>
    obtain ⟨k, v⟩ := c
    simp only [Memory.write]
    split
    · simp
    · split
      · rename_i h
        subst h
        simp
      · simp only [List.map_cons, List.mem_cons, ih]
        tauto

theorem Memory.write_wf (m : Memory) (a : Nat) (b : Byte) (h : m.wf) : (m.write a b).wf := by
  induction m with
  | nil => simp [Memory.write, Memory.wf]
  | cons c m ih =>
    obtain ⟨k, v⟩ := c
    simp only [Memory.wf, List.map_cons, List.pairwise_cons] at h
    simp only [Memory.write]
    split
    · rename_i hlt
      simp only [Memory.wf, List.map_cons, List.pairwise_cons, List.mem_cons]
      refine ⟨fun x hx => ?_, h.1, h.2⟩
      rcases hx with rfl | hx
      · exact hlt
      · exact hlt.trans (h.1 x hx)
    · split
      · rename_i heq
        subst heq
        simpa [Memory.wf] using h
      · simp only [Memory.wf, List.map_cons, List.pairwise_cons]
        refine ⟨fun x hx => ?_, ih h.2⟩
        rcases (Memory.mem_addresses_write m a x b).1 hx with rfl | hx
        · omega
        · exact h.1 x hx

theorem Memory.writeBytes_wf (bs : List Byte) : ∀ (m : Memory) (a : Nat), m.wf →
    (m.writeBytes a bs).wf := by
  induction bs with
  | nil => exact fun _ _ h => h
  | cons b bs ih => exact fun m a h => ih _ _ (Memory.write_wf m a b h)

theorem reset_memories_wf : State.reset.img.wf ∧ State.reset.out.wf := by decide

/-- A write above every listed address goes to the end. -/
theorem Memory.write_end (m : Memory) (a : Nat) (b : Byte) (h : ∀ x ∈ m.map Prod.fst, x < a) :
    m.write a b = m ++ [(a, b)] := by
  induction m with
  | nil => rfl
  | cons c m ih =>
    obtain ⟨k, v⟩ := c
    have hk : k < a := h k (by simp)
    have h1 : ¬ a < k := by omega
    have h2 : ¬ a = k := by omega
    simp only [Memory.write, h1, h2, if_false, List.cons_append]
    rw [ih fun x hx => h x (by simp only [List.map_cons, List.mem_cons]; exact Or.inr hx)]

/-- A write to a listed address keeps the list of addresses. -/
theorem Memory.write_listed (m : Memory) (a : Nat) (b : Byte) (hw : m.wf)
    (h : a ∈ m.map Prod.fst) : (m.write a b).map Prod.fst = m.map Prod.fst := by
  induction m with
  | nil => simp at h
  | cons c m ih =>
    obtain ⟨k, v⟩ := c
    simp only [Memory.wf, List.map_cons, List.pairwise_cons] at hw
    simp only [List.map_cons, List.mem_cons] at h
    simp only [Memory.write]
    split
    · rename_i hlt
      rcases h with rfl | h
      · omega
      · have := hw.1 a h
        omega
    · split
      · rename_i heq
        simp [heq]
      · rename_i hne
        have hm : a ∈ m.map Prod.fst := by
          rcases h with rfl | h
          · exact absurd rfl hne
          · exact h
        simp [ih hw.2 hm]

theorem Memory.wf_of_addresses (m : Memory) (n : Nat) (h : m.map Prod.fst = List.range n) : m.wf := by
  simp only [Memory.wf, h]
  exact List.pairwise_lt_range

/-- Appending at the first free address. -/
theorem Memory.addresses_write_next (m : Memory) (n : Nat) (b : Byte)
    (h : m.map Prod.fst = List.range n) :
    (m.write n b).map Prod.fst = List.range (n + 1) := by
  rw [Memory.write_end m n b (by rw [h]; intro x hx; simpa using hx)]
  simp [h, List.range_succ]

theorem Memory.addresses_writeBytes_next (bs : List Byte) : ∀ (m : Memory) (n : Nat),
    m.map Prod.fst = List.range n →
    (m.writeBytes n bs).map Prod.fst = List.range (n + bs.length) := by
  induction bs with
  | nil => exact fun _ _ h => h
  | cons b bs ih =>
    intro m n h
    have := ih _ _ (Memory.addresses_write_next m n b h)
    simpa [Memory.writeBytes, Nat.add_assoc, Nat.add_comm 1] using this

theorem Memory.addresses_writeBytes_below (bs : List Byte) : ∀ (m : Memory) (a n : Nat),
    m.map Prod.fst = List.range n → a + bs.length ≤ n →
    (m.writeBytes a bs).map Prod.fst = List.range n := by
  induction bs with
  | nil => exact fun _ _ _ h _ => h
  | cons b bs ih =>
    intro m a n h hle
    simp only [List.length_cons] at hle
    have hw := Memory.wf_of_addresses m n h
    have := Memory.write_listed m a b hw (by rw [h]; simp; omega)
    exact ih _ _ _ (this.trans h) (by omega)

theorem Memory.writeBytes_append (xs ys : List Byte) : ∀ (m : Memory) (a : Nat),
    m.writeBytes a (xs ++ ys) = (m.writeBytes a xs).writeBytes (a + xs.length) ys := by
  induction xs with
  | nil => exact fun _ _ => rfl
  | cons x xs ih =>
    intro m a
    simp only [List.cons_append, Memory.writeBytes, ih, List.length_cons]
    rw [Nat.add_assoc, Nat.add_comm 1]

end Sys2Proof.Machine
end

