-- ==== Sys2Proof/Laws/Run.lean ====
section
/-! SUPPORT. What holds when a run ends: one assertion for completing, one for raising, and how both
pass through sequencing and the loops. -/

namespace Sys2Proof.Machine

/-- The run completes in a state with `Q`, or raises in one with `E`. -/
def Run.Ends (Q E : State → Prop) : Run → Prop
  | .done s => Q s
  | .raised s => E s

@[simp] theorem Run.ends_done (Q E : State → Prop) (s : State) : (Run.done s).Ends Q E ↔ Q s := Iff.rfl
@[simp] theorem Run.ends_raised (Q E : State → Prop) (s : State) : (Run.raised s).Ends Q E ↔ E s := Iff.rfl

theorem Run.Ends.mono {Q E Q' E' : State → Prop} {r : Run} (h : r.Ends Q E)
    (hQ : ∀ s, Q s → Q' s) (hE : ∀ s, E s → E' s) : r.Ends Q' E' := by
  cases r with
  | done s => exact hQ s h
  | raised s => exact hE s h

theorem Run.Ends.andThen {Q Q' E : State → Prop} {r : Run} {f : State → Run} (h : r.Ends Q E)
    (hf : ∀ s, Q s → (f s).Ends Q' E) : (r.andThen f).Ends Q' E := by
  cases r with
  | done s => exact hf s h
  | raised s => exact h

theorem Run.Ends.state {P : State → Prop} {r : Run} (h : r.Ends P P) : P r.state := by
  cases r <;> exact h

theorem repeatRun_ends {Q E : State → Prop} {f : State → Run} (hf : ∀ s, Q s → (f s).Ends Q E) :
    ∀ (n : Nat) (s : State), Q s → (repeatRun n f s).Ends Q E
  | 0, _, h => h
  | n + 1, s, h => (hf s h).andThen (repeatRun_ends hf n)

theorem forEachRun_ends {α : Type} {Q E : State → Prop} {f : α → State → Run}
    (hf : ∀ x s, Q s → (f x s).Ends Q E) :
    ∀ (xs : List α) (s : State), Q s → (forEachRun xs f s).Ends Q E
  | [], _, h => h
  | x :: xs, s, h => (hf x s h).andThen (forEachRun_ends hf xs)

theorem forEachRun_append {α : Type} (f : α → State → Run) (xs ys : List α) (s : State) :
    forEachRun (xs ++ ys) f s = (forEachRun xs f s).andThen (forEachRun ys f) := by
  induction xs generalizing s with
  | nil => rfl
  | cons x xs ih =>
    simp only [List.cons_append, forEachRun_cons, Run.andThen_assoc]
    congr 1
    funext t
    exact ih t

theorem repeatRun_eq_forEachRun {α : Type} (f : α → State → Run) (x : α) (n : Nat) (s : State) :
    repeatRun n (f x) s = forEachRun (List.replicate n x) f s := by
  induction n generalizing s with
  | zero => rfl
  | succ n ih =>
    simp only [List.replicate_succ, forEachRun_cons, repeatRun_succ]
    congr 1
    funext t
    exact ih t

end Sys2Proof.Machine
end

