-- ==== Sys2Proof/Laws/Ops.lean ====
section
/-! SUPPORT. One specification lemma for each shared operation: everything it can do. -/

namespace Sys2Proof.Machine

/-! ### `Append` -/

/-- The state after a byte has been appended. -/
def appended (b : Byte) (s : State) : State :=
  { s with out := s.out.write s.pos.toNat b, pos := s.pos + 1#32, snkFails := s.snkFails.tail }

theorem append_full (b : Byte) (s : State) (h : s.sinkCap.size ≤ s.pos.toNat) :
    append b s = raise .outputStreamFailure s := by
  simp [append, h]

theorem append_fails (b : Byte) (s : State) (h : s.pos.toNat < s.sinkCap.size)
    (hf : nextAnswer s.snkFails = true) :
    append b s = raise .outputStreamFailure { s with snkFails := s.snkFails.tail } := by
  have : ¬ s.sinkCap.size ≤ s.pos.toNat := by omega
  simp [append, this, hf, askSnkFail]

theorem append_done (b : Byte) (s : State) (h : s.pos.toNat < s.sinkCap.size)
    (hf : nextAnswer s.snkFails = false) : append b s = .done (appended b s) := by
  have : ¬ s.sinkCap.size ≤ s.pos.toNat := by omega
  simp [append, this, hf, askSnkFail, memWrite, appended, Memory.writeBytes]

theorem append_cases (b : Byte) (s : State) :
    (s.sinkCap.size ≤ s.pos.toNat ∧ append b s = raise .outputStreamFailure s) ∨
    (s.pos.toNat < s.sinkCap.size ∧ nextAnswer s.snkFails = true ∧
      append b s = raise .outputStreamFailure { s with snkFails := s.snkFails.tail }) ∨
    (s.pos.toNat < s.sinkCap.size ∧ nextAnswer s.snkFails = false ∧
      append b s = .done (appended b s)) := by
  by_cases h : s.sinkCap.size ≤ s.pos.toNat
  · exact .inl ⟨h, append_full b s h⟩
  · have h : s.pos.toNat < s.sinkCap.size := by omega
    cases hf : nextAnswer s.snkFails with
    | true => exact .inr (.inl ⟨h, rfl, append_fails b s h hf⟩)
    | false => exact .inr (.inr ⟨h, rfl, append_done b s h hf⟩)

theorem pos_succ (s : State) (h : s.pos.toNat < s.sinkCap.size) :
    (s.pos + 1#32).toNat = s.pos.toNat + 1 := by
  have := s.sinkCap.below_limit
  rw [BitVec.toNat_add]
  simp
  omega

/-! ### Patches -/

theorem patch_cases (a : Nat) (v : List Byte) (s : State) :
    (nextAnswer s.snkFails = true ∧
      patch a v s = raise .outputStreamFailure { s with snkFails := s.snkFails.tail }) ∨
    (nextAnswer s.snkFails = false ∧
      patch a v s =
        .done { s with out := s.out.writeBytes a v, snkFails := s.snkFails.tail }) := by
  cases hf : nextAnswer s.snkFails <;> simp [patch, hf, askSnkFail, memWrite]

/-! ### `ReadIn` -/

/-- The state after a byte of the image has been read. -/
def advanced (s : State) : State :=
  { s with ipos := s.ipos + 1#32, srcFails := s.srcFails.tail }

theorem readIn_cases (s : State) :
    (s.inLen.toNat ≤ s.ipos.toNat ∧ readIn s = .eof s) ∨
    (s.ipos.toNat < s.inLen.toNat ∧ nextAnswer s.srcFails = true ∧
      readIn s = .raised (raise .inputStreamFailure { s with srcFails := s.srcFails.tail }).state) ∨
    (s.ipos.toNat < s.inLen.toNat ∧ nextAnswer s.srcFails = false ∧
      readIn s = .byte (memRead s s.ipos.toNat) (advanced s)) := by
  by_cases h : s.inLen.toNat ≤ s.ipos.toNat
  · exact .inl ⟨h, by simp [readIn, h]⟩
  · have h' : s.ipos.toNat < s.inLen.toNat := by omega
    cases hf : nextAnswer s.srcFails with
    | true => exact .inr (.inl ⟨h', rfl, by simp [readIn, h, hf, askSrcFail]⟩)
    | false =>
      exact .inr (.inr ⟨h', rfl, by simp [readIn, h, hf, askSrcFail, memRead, advanced]⟩)

theorem ipos_succ (s : State) (h : s.ipos.toNat < s.inLen.toNat) :
    (s.ipos + 1#32).toNat = s.ipos.toNat + 1 := by
  have := s.inLen.isLt
  rw [BitVec.toNat_add]
  simp
  omega

/-! ### `Sample` -/

/-- The state after the filter has run for one sample. -/
def filtered (level : Int) (s : State) : State :=
  { s with lp := nextLp level s.lp, hp := nextHp (nextLp level s.lp) s.hp }

/-- The byte the filter makes of one level. -/
def sampleByte (level : Int) (s : State) : Byte :=
  toByte (fsub (nextLp level s.lp) (nextHp (nextLp level s.lp) s.hp))

theorem sample_eq (level : Int) (s : State) :
    sample level s = append (sampleByte level s) (filtered level s) := rfl

/-! ### Acceptance -/

theorem accept_faulted (i : Instr) (run : State → Run) (s : State) (h : s.fault = true) :
    accept i run s = s := by
  simp [accept, h]

/-- Everything acceptance can do: refuse without effect, raise one of the four acceptance causes, or
run the operation's rule. -/
theorem accept_cases (i : Instr) (run : State → Run) (s : State) :
    (s.fault = true ∧ accept i run s = s) ∨
    (s.fault = false ∧ ∃ c, c ≠ Cause.none ∧ accept i run s = { s with fault := true, fcause := c }) ∨
    (s.fault = false ∧ i.wellFormed = true ∧ legalIn i s.sess = true ∧
      (needsSource i = true → s.srcPresent = true) ∧ (needsSink i = true → s.snkPresent = true) ∧
      accept i run s = (run s).state) := by
  unfold accept
  by_cases h1 : s.fault = true
  · exact .inl ⟨h1, by rw [if_pos h1]⟩
  · rw [if_neg h1]
    simp only [Bool.not_eq_true] at h1
    by_cases h2 : (!i.wellFormed) = true
    · exact .inr (.inl ⟨h1, .illegalCommand, by decide, by rw [if_pos h2]; rfl⟩)
    · rw [if_neg h2]
      by_cases h3 : (!legalIn i s.sess) = true
      · exact .inr (.inl ⟨h1, .sequenceError, by decide, by rw [if_pos h3]; rfl⟩)
      · rw [if_neg h3]
        by_cases h4 : (needsSource i && !s.srcPresent) = true
        · exact .inr (.inl ⟨h1, .inputUnreadable, by decide, by rw [if_pos h4]; rfl⟩)
        · rw [if_neg h4]
          by_cases h5 : (needsSink i && !s.snkPresent) = true
          · exact .inr (.inl ⟨h1, .outputUnwritable, by decide, by rw [if_pos h5]; rfl⟩)
          · rw [if_neg h5]
            refine .inr (.inr ⟨h1, by simpa using h2, by simpa using h3, ?_, ?_, rfl⟩)
            · intro h
              simpa [h] using h4
            · intro h
              simpa [h] using h5

/-- A command that passes every check runs its rule. -/
theorem accept_run (i : Instr) (run : State → Run) (s : State) (h1 : s.fault = false)
    (h2 : i.wellFormed = true) (h3 : legalIn i s.sess = true)
    (h4 : needsSource i = true → s.srcPresent = true)
    (h5 : needsSink i = true → s.snkPresent = true) : accept i run s = (run s).state := by
  unfold accept
  rw [if_neg (by simp [h1]), if_neg (by simp [h2]), if_neg (by simp [h3]),
    if_neg (by simpa using h4), if_neg (by simpa using h5)]

/-- The rule of an accepted command. -/
def runOf : Instr → State → Run
  | .init => runInit
  | .inspect => runInspect
  | .openSink => runOpen
  | .filter arg => runFilter arg
  | .bit arg => runBit (argBit arg)
  | .byte v => runByte v
  | .gap => runGap
  | .leader => runLeader
  | .payload => runPayload
  | .closeSink => runClose
  | .encode => runEncode

/-- Every command is acceptance around its rule, and always answers a next state. -/
theorem exec_eq (i : Instr) (s : State) : exec i s = .next (accept i (runOf i) s) := by
  cases i <;> rfl

end Sys2Proof.Machine
end

