-- ==== Sys2Proof/Laws/Emit.lean ====
section
/-! SUPPORT. Samples in sequence: the loop of samples is `emit`, and `emit` composes. -/

namespace Sys2Proof.Machine

variable (s : State)

/-! ### Fields of `emit` and `sendBits` -/

@[simp] theorem emit_lvl (ls : List Int) : (emit ls s).lvl = s.lvl := rfl
@[simp] theorem emit_lp (ls : List Int) : (emit ls s).lp = (filterAcc s.lp s.hp ls).1 := rfl
@[simp] theorem emit_hp (ls : List Int) : (emit ls s).hp = (filterAcc s.lp s.hp ls).2 := rfl
@[simp] theorem emit_sess (ls : List Int) : (emit ls s).sess = s.sess := rfl
@[simp] theorem emit_pos (ls : List Int) : (emit ls s).pos = s.pos + BitVec.ofNat 32 ls.length := rfl
@[simp] theorem emit_ipos (ls : List Int) : (emit ls s).ipos = s.ipos := rfl
@[simp] theorem emit_cfgSrate (ls : List Int) : (emit ls s).cfgSrate = s.cfgSrate := rfl
@[simp] theorem emit_cfgGain (ls : List Int) : (emit ls s).cfgGain = s.cfgGain := rfl
@[simp] theorem emit_fault (ls : List Int) : (emit ls s).fault = s.fault := rfl
@[simp] theorem emit_fcause (ls : List Int) : (emit ls s).fcause = s.fcause := rfl
@[simp] theorem emit_hdrStat (ls : List Int) : (emit ls s).hdrStat = s.hdrStat := rfl
@[simp] theorem emit_hdrSize (ls : List Int) : (emit ls s).hdrSize = s.hdrSize := rfl
@[simp] theorem emit_inLen (ls : List Int) : (emit ls s).inLen = s.inLen := rfl
@[simp] theorem emit_img (ls : List Int) : (emit ls s).img = s.img := rfl
@[simp] theorem emit_out (ls : List Int) : (emit ls s).out = s.out.writeBytes s.pos.toNat (filterBytes s.lp s.hp ls) := rfl
@[simp] theorem emit_sinkCap (ls : List Int) : (emit ls s).sinkCap = s.sinkCap := rfl
@[simp] theorem emit_srcPresent (ls : List Int) : (emit ls s).srcPresent = s.srcPresent := rfl
@[simp] theorem emit_snkPresent (ls : List Int) : (emit ls s).snkPresent = s.snkPresent := rfl
@[simp] theorem emit_srcFails (ls : List Int) : (emit ls s).srcFails = s.srcFails := rfl
@[simp] theorem emit_snkFails (ls : List Int) : (emit ls s).snkFails = s.snkFails.drop ls.length := rfl
@[simp] theorem emit_hostQ (ls : List Int) : (emit ls s).hostQ = s.hostQ := rfl
@[simp] theorem emit_started (ls : List Int) : (emit ls s).started = s.started := rfl

@[simp] theorem sendBits_lvl (bs : List Bool) : (sendBits bs s).lvl = lvlAfter s.lvl bs := rfl
@[simp] theorem sendBits_lp (bs : List Bool) : (sendBits bs s).lp =
    (emit (bitsLevels s.cfgSrate s.cfgGain s.lvl bs) s).lp := rfl
@[simp] theorem sendBits_hp (bs : List Bool) : (sendBits bs s).hp =
    (emit (bitsLevels s.cfgSrate s.cfgGain s.lvl bs) s).hp := rfl
@[simp] theorem sendBits_sess (bs : List Bool) : (sendBits bs s).sess = s.sess := rfl
@[simp] theorem sendBits_pos (bs : List Bool) : (sendBits bs s).pos =
    (emit (bitsLevels s.cfgSrate s.cfgGain s.lvl bs) s).pos := rfl
@[simp] theorem sendBits_ipos (bs : List Bool) : (sendBits bs s).ipos = s.ipos := rfl
@[simp] theorem sendBits_cfgSrate (bs : List Bool) : (sendBits bs s).cfgSrate = s.cfgSrate := rfl
@[simp] theorem sendBits_cfgGain (bs : List Bool) : (sendBits bs s).cfgGain = s.cfgGain := rfl
@[simp] theorem sendBits_fault (bs : List Bool) : (sendBits bs s).fault = s.fault := rfl
@[simp] theorem sendBits_fcause (bs : List Bool) : (sendBits bs s).fcause = s.fcause := rfl
@[simp] theorem sendBits_hdrStat (bs : List Bool) : (sendBits bs s).hdrStat = s.hdrStat := rfl
@[simp] theorem sendBits_hdrSize (bs : List Bool) : (sendBits bs s).hdrSize = s.hdrSize := rfl
@[simp] theorem sendBits_inLen (bs : List Bool) : (sendBits bs s).inLen = s.inLen := rfl
@[simp] theorem sendBits_img (bs : List Bool) : (sendBits bs s).img = s.img := rfl
@[simp] theorem sendBits_out (bs : List Bool) : (sendBits bs s).out =
    (emit (bitsLevels s.cfgSrate s.cfgGain s.lvl bs) s).out := rfl
@[simp] theorem sendBits_sinkCap (bs : List Bool) : (sendBits bs s).sinkCap = s.sinkCap := rfl
@[simp] theorem sendBits_srcPresent (bs : List Bool) : (sendBits bs s).srcPresent = s.srcPresent := rfl
@[simp] theorem sendBits_snkPresent (bs : List Bool) : (sendBits bs s).snkPresent = s.snkPresent := rfl
@[simp] theorem sendBits_srcFails (bs : List Bool) : (sendBits bs s).srcFails = s.srcFails := rfl
@[simp] theorem sendBits_snkFails (bs : List Bool) : (sendBits bs s).snkFails =
    (emit (bitsLevels s.cfgSrate s.cfgGain s.lvl bs) s).snkFails := rfl
@[simp] theorem sendBits_hostQ (bs : List Bool) : (sendBits bs s).hostQ = s.hostQ := rfl
@[simp] theorem sendBits_started (bs : List Bool) : (sendBits bs s).started = s.started := rfl

/-! ### Composition -/

theorem filterAcc_append (xs ys : List Int) : ∀ lp hp,
    filterAcc lp hp (xs ++ ys) = filterAcc (filterAcc lp hp xs).1 (filterAcc lp hp xs).2 ys := by
  induction xs with
  | nil => exact fun _ _ => rfl
  | cons x xs ih => exact fun lp hp => ih _ _

theorem filterBytes_append (xs ys : List Int) : ∀ lp hp,
    filterBytes lp hp (xs ++ ys) =
      filterBytes lp hp xs ++ filterBytes (filterAcc lp hp xs).1 (filterAcc lp hp xs).2 ys := by
  induction xs with
  | nil => exact fun _ _ => rfl
  | cons x xs ih =>
    intro lp hp
    simp only [List.cons_append, filterBytes, filterAcc, ih]

@[simp] theorem filterBytes_length (ls : List Int) : ∀ lp hp, (filterBytes lp hp ls).length = ls.length := by
  induction ls with
  | nil => exact fun _ _ => rfl
  | cons l ls ih => intro lp hp; simp [filterBytes, ih]

@[simp] theorem emit_nil (s : State) : emit [] s = s := by
  simp [emit, filterAcc, filterBytes, Memory.writeBytes]

theorem room_pos (n : Nat) (s : State) (h : Room n s) :
    (s.pos + BitVec.ofNat 32 n).toNat = s.pos.toNat + n := by
  have := s.sinkCap.below_limit
  simp only [Room] at h
  rw [BitVec.toNat_add, BitVec.toNat_ofNat]
  omega

theorem emit_append (xs ys : List Int) (s : State) (h : Room xs.length s) :
    emit (xs ++ ys) s = emit ys (emit xs s) := by
  simp only [emit, filterAcc_append, filterBytes_append, Memory.writeBytes_append,
    List.length_append, List.drop_drop, room_pos _ s h, filterBytes_length]
  congr 1
  rw [BitVec.add_assoc, BitVec.ofNat_add]

theorem noSinkFailure_next (s : State) (h : NoSinkFailure s) : nextAnswer s.snkFails = false := by
  cases hs : s.snkFails with
  | nil => rfl
  | cons b l => exact h b (by simp [hs])

theorem noSourceFailure_next (s : State) (h : NoSourceFailure s) : nextAnswer s.srcFails = false := by
  cases hs : s.srcFails with
  | nil => rfl
  | cons b l => exact h b (by simp [hs])

theorem emit_noSinkFailure (ls : List Int) (s : State) (h : NoSinkFailure s) :
    NoSinkFailure (emit ls s) :=
  fun b hb => h b (List.mem_of_mem_drop hb)

theorem sample_done (l : Int) (s : State) (hr : Room 1 s) (hf : NoSinkFailure s) :
    sample l s = .done (emit [l] s) := by
  rw [sample_eq, append_done _ (filtered l s) (by simpa [Room, filtered] using hr) (noSinkFailure_next s hf)]
  simp [appended, filtered, emit, filterAcc, filterBytes, sampleByte, Memory.writeBytes]

/-- Samples of a list of levels, in order. -/
theorem forEachRun_sample (ls : List Int) : ∀ (s : State), Room ls.length s → NoSinkFailure s →
    forEachRun ls sample s = .done (emit ls s) := by
  induction ls with
  | nil => intro s _ _; simp
  | cons l ls ih =>
    intro s hr hf
    simp only [List.length_cons, Room] at hr
    have h1 : Room 1 s := by simp only [Room]; omega
    rw [forEachRun_cons, sample_done l s h1 hf, Run.done_andThen,
      ih _ _ (emit_noSinkFailure _ s hf), ← emit_append [l] ls s h1, List.singleton_append]
    have := room_pos 1 s h1
    simp only [Room, emit, List.length_singleton, this]
    omega

end Sys2Proof.Machine
end

