-- ==== Sys2Proof/Laws/Float.lean ====
section
/-! SUPPORT. What rounding does: the pattern that `f64Round` packs, and its value; which values are those of
finite patterns. -/

namespace Sys2Proof.Machine

/-! ### Fields of a packed pattern -/

theorem f64Pack_toNat (s : Bool) (low : Nat) (h : low < 2 ^ 63) :
    (f64Pack s low).toNat = (if s then 2 ^ 63 else 0) + low := by
  unfold f64Pack
  rw [BitVec.toNat_ofNat, Nat.mod_eq_of_lt]
  cases s <;> simp <;> omega

theorem f64Sign_pack (s : Bool) (low : Nat) (h : low < 2 ^ 63) : f64Sign (f64Pack s low) = s := by
  unfold f64Sign
  rw [BitVec.getLsbD_eq_getElem (by omega : 63 < 64), BitVec.getElem_eq_testBit_toNat, f64Pack_toNat s low h,
    Nat.testBit_eq_decide_div_mod_eq]
  cases s <;> simp <;> omega

theorem f64Expo_pack (s : Bool) (low : Nat) (h : low < 2 ^ 63) : f64Expo (f64Pack s low) = low / 2 ^ 52 := by
  unfold f64Expo
  rw [f64Pack_toNat s low h]
  cases s <;> simp <;> omega

theorem f64Frac_pack (s : Bool) (low : Nat) (h : low < 2 ^ 63) : f64Frac (f64Pack s low) = low % 2 ^ 52 := by
  unfold f64Frac
  rw [f64Pack_toNat s low h]
  cases s
  · simp
  · simp
    omega

/-- The significand of a pattern `e * 2^52 + q` with `q` of at most 53 bits, or just above. -/
theorem f64Mag_pack (s : Bool) (e q : Nat) (hq : q ≤ 2 ^ 53) (he : e = 0 ∨ 2 ^ 52 ≤ q)
    (hf : e * 2 ^ 52 + q < 2047 * 2 ^ 52) : f64Mag (f64Pack s (e * 2 ^ 52 + q)) = q * 2 ^ e := by
  have h63 : e * 2 ^ 52 + q < 2 ^ 63 := by omega
  unfold f64Mag
  rw [f64Expo_pack s _ h63, f64Frac_pack s _ h63]
  have hd : (e * 2 ^ 52 + q) / 2 ^ 52 = e + q / 2 ^ 52 := by omega
  have hm : (e * 2 ^ 52 + q) % 2 ^ 52 = q % 2 ^ 52 := by omega
  rw [hd, hm]
  by_cases h1 : q < 2 ^ 52
  · have he0 : e = 0 := by omega
    subst he0
    have : q / 2 ^ 52 = 0 := by omega
    rw [if_pos (by omega)]
    simp only [pow_zero, mul_one]
    omega
  · by_cases h2 : q < 2 ^ 53
    · have h3 : q / 2 ^ 52 = 1 := by omega
      have h4 : q % 2 ^ 52 = q - 2 ^ 52 := by omega
      have h5 : 2 ^ 52 + (q - 2 ^ 52) = q := by omega
      rw [h3, if_neg (by omega), h4, Nat.add_sub_cancel, h5]
    · have h3 : q = 2 ^ 53 := by omega
      have h4 : q / 2 ^ 52 = 2 := by omega
      have h5 : q % 2 ^ 52 = 0 := by omega
      have h6 : e + 2 - 1 = e + 1 := by omega
      rw [h4, h5, if_neg (by omega), h6, h3]
      simp only [Nat.pow_succ, Nat.mul_comm]
      omega

/-! ### Rounding to an integer -/

/-- The rounded quotient is within half a unit, and even on a tie. -/
theorem roundHalfEven_spec (n sh : Nat) :
    ∃ r, n = n / 2 ^ sh * 2 ^ sh + r ∧ r < 2 ^ sh ∧
      ((roundHalfEven n sh = n / 2 ^ sh ∧ (2 * r < 2 ^ sh ∨ (2 * r = 2 ^ sh ∧ roundHalfEven n sh % 2 = 0))) ∨
       (roundHalfEven n sh = n / 2 ^ sh + 1 ∧
         (2 ^ sh < 2 * r ∨ (2 * r = 2 ^ sh ∧ roundHalfEven n sh % 2 = 0)))) := by
  have hp : 0 < 2 ^ sh := Nat.two_pow_pos sh
  refine ⟨n % 2 ^ sh, by rw [Nat.mul_comm]; exact (Nat.div_add_mod n _).symm, Nat.mod_lt _ hp, ?_⟩
  unfold roundHalfEven
  simp only
  split <;> rename_i h
  · right
    refine ⟨rfl, ?_⟩
    rcases h with h | ⟨h1, h2⟩
    · exact .inl h
    · exact .inr ⟨h1, by omega⟩
  · left
    refine ⟨rfl, ?_⟩
    omega

/-- No multiple of the unit is nearer; an equally near one leaves the rounded one even. -/
theorem roundHalfEven_nearest (n sh m : Nat) :
    ((roundHalfEven n sh * 2 ^ sh : Nat) - (n : Int)).natAbs ≤ ((m * 2 ^ sh : Nat) - (n : Int)).natAbs ∧
    (((roundHalfEven n sh * 2 ^ sh : Nat) - (n : Int)).natAbs = ((m * 2 ^ sh : Nat) - (n : Int)).natAbs →
      m ≠ roundHalfEven n sh → roundHalfEven n sh % 2 = 0) := by
  obtain ⟨r, hn, hr, h⟩ := roundHalfEven_spec n sh
  generalize roundHalfEven n sh = q at *
  generalize n / 2 ^ sh = d at *
  generalize 2 ^ sh = p at *
  have key : m ≤ d ∨ d + 1 ≤ m := by omega
  have hm1 : m ≤ d → m * p ≤ d * p := Nat.mul_le_mul_right p
  have hm2 : d + 1 ≤ m → d * p + p ≤ m * p := fun hh => by
    have := Nat.mul_le_mul_right p hh
    rwa [Nat.add_mul, Nat.one_mul] at this
  have hm3 : m < d → m * p + p ≤ d * p := fun hh => by
    have := Nat.mul_le_mul_right p (show m + 1 ≤ d from hh)
    rwa [Nat.add_mul, Nat.one_mul] at this
  have hm4 : d + 1 < m → d * p + 2 * p ≤ m * p := fun hh => by
    have := Nat.mul_le_mul_right p (show d + 2 ≤ m from hh)
    rwa [Nat.add_mul] at this
  have hq : (d + 1) * p = d * p + p := by rw [Nat.add_mul, Nat.one_mul]
  rcases h with ⟨rfl, h⟩ | ⟨rfl, h⟩
  · generalize q * p = A at *
    generalize m * p = B at *
    omega
  · rw [hq]
    generalize d * p = A at *
    generalize m * p = B at *
    omega

/-! ### The value of a rounded result -/

/-- The unit's exponent, and the significand that `f64Round` packs. -/
theorem f64Round_eq (s : Bool) (n extra : Nat) :
    f64Round s n extra = f64Pack s (min ((max extra (n.log2 - 52) - extra) * 2 ^ 52 +
      roundHalfEven n (max extra (n.log2 - 52))) (2047 * 2 ^ 52)) := rfl

/-- The rounded significand has at most 53 bits, or is 2^53; it has 53 unless the unit is the least. -/
theorem roundHalfEven_bounds (n extra : Nat) :
    roundHalfEven n (max extra (n.log2 - 52)) ≤ 2 ^ 53 ∧
      (max extra (n.log2 - 52) - extra = 0 ∨ 2 ^ 52 ≤ roundHalfEven n (max extra (n.log2 - 52))) := by
  have hsh : n.log2 ≤ max extra (n.log2 - 52) + 52 := by omega
  generalize hsh' : max extra (n.log2 - 52) = sh at *
  obtain ⟨r, hn, hr, h⟩ := roundHalfEven_spec n sh
  have hlt : n < 2 ^ (sh + 53) := lt_of_lt_of_le Nat.lt_log2_self (Nat.pow_le_pow_right (by omega) (by omega))
  have hd : n / 2 ^ sh < 2 ^ 53 := by
    rw [Nat.div_lt_iff_lt_mul (Nat.two_pow_pos sh), ← pow_add, Nat.add_comm]
    exact hlt
  refine ⟨by omega, ?_⟩
  by_cases he : sh - extra = 0
  · exact .inl he
  · right
    have h1 : sh = n.log2 - 52 := by omega
    have h2 : n ≠ 0 := by
      rintro rfl
      simp at h1
      omega
    have h3 : 2 ^ (sh + 52) ≤ n :=
      le_trans (Nat.pow_le_pow_right (by omega) (by omega)) (Nat.log2_self_le h2)
    have h4 : 2 ^ 52 ≤ n / 2 ^ sh := by
      rw [Nat.le_div_iff_mul_le (Nat.two_pow_pos sh), ← pow_add, Nat.add_comm]
      exact h3
    omega

/-- A rounded result below the overflow threshold is finite, with the sign given, and has the value of its
significand in its unit. -/
theorem f64Round_finite (s : Bool) (n extra : Nat)
    (h : (max extra (n.log2 - 52) - extra) * 2 ^ 52 + roundHalfEven n (max extra (n.log2 - 52)) <
      2047 * 2 ^ 52) :
    f64IsFinite (f64Round s n extra) = true ∧ f64Sign (f64Round s n extra) = s ∧
      f64Mag (f64Round s n extra) = roundHalfEven n (max extra (n.log2 - 52)) *
        2 ^ (max extra (n.log2 - 52) - extra) := by
  obtain ⟨hb, he⟩ := roundHalfEven_bounds n extra
  rw [f64Round_eq, Nat.min_eq_left (by omega)]
  refine ⟨?_, f64Sign_pack s _ (by omega), f64Mag_pack s _ _ hb he h⟩
  unfold f64IsFinite
  rw [f64Expo_pack s _ (by omega)]
  simp only [bne_iff_ne]
  omega

/-- From the overflow threshold on, the result is an infinity. -/
theorem f64Round_infinite (s : Bool) (n extra : Nat)
    (h : 2047 * 2 ^ 52 ≤ (max extra (n.log2 - 52) - extra) * 2 ^ 52 +
      roundHalfEven n (max extra (n.log2 - 52))) :
    f64Round s n extra = f64Pack s (2047 * 2 ^ 52) ∧ f64IsFinite (f64Round s n extra) = false := by
  have h1 : f64Round s n extra = f64Pack s (2047 * 2 ^ 52) := by
    rw [f64Round_eq, Nat.min_eq_right h]
  refine ⟨h1, ?_⟩
  rw [h1]
  unfold f64IsFinite
  rw [f64Expo_pack s _ (by norm_num)]
  norm_num

/-! ### Finite values -/

theorem f64Units_natAbs (x : Binary64) : (f64Units x).natAbs = f64Mag x := by
  unfold f64Units
  split <;> simp

/-- A finite magnitude is a 53-bit significand in some unit. -/
theorem f64Mag_significand (z : Binary64) (hz : f64IsFinite z = true) :
    ∃ m k, f64Mag z = m * 2 ^ k ∧ m < 2 ^ 53 ∧ k ≤ 2045 := by
  have hf : f64Frac z < 2 ^ 52 := Nat.mod_lt _ (by norm_num)
  have he : f64Expo z < 2047 := by
    have : f64Expo z < 2 ^ 11 := Nat.mod_lt _ (by norm_num)
    unfold f64IsFinite at hz
    simp at hz
    omega
  unfold f64Mag
  split
  · exact ⟨f64Frac z, 0, by simp, by omega, by omega⟩
  · exact ⟨2 ^ 52 + f64Frac z, f64Expo z - 1, rfl, by omega, by omega⟩

/-- Every 53-bit significand in a unit far below overflow is the value of a finite pattern. -/
theorem f64_representable (k : Nat) : ∀ c, c < 2 ^ 53 → k ≤ 2000 →
    ∃ z, f64IsFinite z = true ∧ f64Units z = (c * 2 ^ k : Nat) := by
  have units : ∀ low n, low < 2 ^ 63 → f64Mag (f64Pack false low) = n →
      f64Units (f64Pack false low) = (n : Nat) := by
    intro low n hl hn
    unfold f64Units
    rw [f64Sign_pack _ _ hl, hn]
    rfl
  have finite : ∀ low, low < 2047 * 2 ^ 52 → f64IsFinite (f64Pack false low) = true := by
    intro low hl
    unfold f64IsFinite
    rw [f64Expo_pack _ _ (by omega)]
    simp only [bne_iff_ne]
    omega
  induction k with
  | zero =>
    intro c hc _
    have h := f64Mag_pack false 0 c (by omega) (.inl rfl) (by omega)
    simp only [Nat.zero_mul, Nat.zero_add] at h
    exact ⟨f64Pack false c, finite _ (by omega), units _ _ (by omega) h⟩
  | succ k ih =>
    intro c hc hk
    by_cases h2 : c < 2 ^ 52
    · obtain ⟨z, hz, hu⟩ := ih (2 * c) (by omega) (by omega)
      exact ⟨z, hz, by rw [hu, pow_succ, Nat.mul_comm 2 c, Nat.mul_assoc, Nat.mul_comm 2]⟩
    · have h := f64Mag_pack false (k + 1) c (by omega) (.inr (by omega)) (by omega)
      exact ⟨f64Pack false ((k + 1) * 2 ^ 52 + c), finite _ (by omega), units _ _ (by omega) h⟩

/-- The difference of two values within a factor of two of each other is the value of a finite pattern. -/
theorem f64_difference_exact {x y : Binary64} (hx : f64IsFinite x = true) (hy : f64IsFinite y = true)
    (hs : f64Mag x < 2 ^ 1091) (h1 : f64Mag y ≤ f64Mag x) (h2 : f64Mag x ≤ 2 * f64Mag y) :
    ∃ z, f64IsFinite z = true ∧ f64Units z = (f64Mag x - f64Mag y : Nat) := by
  obtain ⟨a, k, ha, ha2, _⟩ := f64Mag_significand x hx
  obtain ⟨b, j, hb, hb2, _⟩ := f64Mag_significand y hy
  have key : ∃ c i, f64Mag x - f64Mag y = c * 2 ^ i ∧ c < 2 ^ 53 := by
    by_cases hjk : j ≤ k
    · refine ⟨a * 2 ^ (k - j) - b, j, ?_, ?_⟩
      · rw [ha, hb, Nat.sub_mul, Nat.mul_assoc, ← pow_add]
        congr 3
        omega
      · have : (a * 2 ^ (k - j) - b) * 2 ^ j ≤ b * 2 ^ j := by
          rw [Nat.sub_mul, Nat.mul_assoc, ← pow_add, show k - j + j = k by omega, ← ha, ← hb]
          omega
        have := Nat.le_of_mul_le_mul_right this (Nat.two_pow_pos j)
        omega
    · refine ⟨a - b * 2 ^ (j - k), k, ?_, by omega⟩
      rw [ha, hb, Nat.sub_mul, Nat.mul_assoc, ← pow_add]
      congr 3
      omega
  obtain ⟨c, i, hc, hc2⟩ := key
  by_cases hc0 : c = 0
  · subst hc0
    exact ⟨0#64, by decide, by rw [hc, Nat.zero_mul]; decide⟩
  · have hi : i ≤ 2000 := by
      by_contra hh
      have e1 : (2 : Nat) ^ i ≤ c * 2 ^ i := Nat.le_mul_of_pos_left _ (by omega)
      have e2 : (2 : Nat) ^ 1091 ≤ 2 ^ i := Nat.pow_le_pow_right (by omega) (by omega)
      generalize (2 : Nat) ^ 1091 = w at *
      omega
    obtain ⟨z, hz, hu⟩ := f64_representable i c hc2 hi
    exact ⟨z, hz, by rw [hu, hc]⟩

/-- Negation is exact. -/
theorem f64Neg_units (y : Binary64) (hy : f64IsFinite y = true) :
    f64IsFinite (f64Neg y) = true ∧ f64Units (f64Neg y) = -f64Units y := by
  have hb : ∀ i, i < 63 → (f64Neg y).getLsbD i = y.getLsbD i := by
    intro i hi
    unfold f64Neg
    rw [BitVec.getLsbD_xor]
    have : (0x8000000000000000#64).getLsbD i = false := by
      have : ∀ i < 63, (0x8000000000000000#64).getLsbD i = false := by decide
      exact this i hi
    rw [this, Bool.xor_false]
  have hm : (f64Neg y).toNat % 2 ^ 63 = y.toNat % 2 ^ 63 := by
    apply Nat.eq_of_testBit_eq
    intro i
    rw [Nat.testBit_mod_two_pow, Nat.testBit_mod_two_pow]
    by_cases hi : i < 63
    · have := hb i hi
      simp only [BitVec.testBit_toNat, this]
    · simp [hi]
  have hs : f64Sign (f64Neg y) = !f64Sign y := by
    unfold f64Sign f64Neg
    rw [BitVec.getLsbD_xor]
    have : (0x8000000000000000#64).getLsbD 63 = true := by decide
    rw [this, Bool.xor_true]
  have he : f64Expo (f64Neg y) = f64Expo y := by unfold f64Expo; omega
  have hf : f64Frac (f64Neg y) = f64Frac y := by unfold f64Frac; omega
  constructor
  · unfold f64IsFinite at *; rw [he]; exact hy
  · unfold f64Units f64Mag; rw [hs, he, hf]; cases f64Sign y <;> simp

end Sys2Proof.Machine
end

