-- ==== Sys2Proof/Laws/Send.lean ====
section
/-! SUPPORT. What the loops of the commands do: strings of appends, runs of samples, half-cycles, bits
and bytes, when nothing fails; and what they keep whatever fails. -/

namespace Sys2Proof.Machine

/-! ### A string of appends -/

/-- The state after a byte string has been appended. -/
def appendedBytes (bs : List Byte) (s : State) : State :=
  { s with
    out := s.out.writeBytes s.pos.toNat bs
    pos := s.pos + BitVec.ofNat 32 bs.length
    snkFails := s.snkFails.drop bs.length }

theorem pos_add_succ (p : Word32) (n : Nat) :
    p + 1#32 + BitVec.ofNat 32 n = p + BitVec.ofNat 32 (n + 1) := by
  rw [BitVec.add_assoc, BitVec.ofNat_add]
  congr 1
  exact BitVec.add_comm _ _

theorem forEachRun_append_done (bs : List Byte) : ∀ s, NoSinkFailure s → Room bs.length s →
    forEachRun bs append s = .done (appendedBytes bs s) := by
  induction bs with
  | nil => intro s _ _; simp [appendedBytes, Memory.writeBytes]
  | cons b bs ih =>
    intro s hf hr
    simp only [Room, List.length_cons] at hr
    have hp := pos_succ s (by omega)
    rw [forEachRun_cons, append_done b s (by omega) (noSinkFailure_next s hf), Run.done_andThen, ih]
    · simp [appendedBytes, appended, Memory.writeBytes, hp, pos_add_succ]
    · exact fun x hx => hf x (List.mem_of_mem_tail hx)
    · simp only [Room, appended, hp]
      omega

theorem forEachRun_append_fails (bs : List Byte) : ∀ s k rest, Room bs.length s → k < bs.length →
    s.snkFails = List.replicate k false ++ true :: rest →
    forEachRun bs append s = .raised { appendedBytes (bs.take k) s with
      snkFails := rest, fault := true, fcause := .outputStreamFailure } := by
  induction bs with
  | nil => intro s k rest _ h; simp at h
  | cons b bs ih =>
    intro s k rest hr hk hs
    simp only [Room, List.length_cons] at hr hk
    cases k with
    | zero =>
      simp only [List.replicate_zero, List.nil_append] at hs
      rw [forEachRun_cons, append_fails b s (by omega) (by rw [hs]; rfl)]
      simp [raise, appendedBytes, hs, Memory.writeBytes]
    | succ k =>
      have hp := pos_succ s (by omega)
      rw [forEachRun_cons, append_done b s (by omega) (by rw [hs]; rfl), Run.done_andThen, ih _ k rest]
      · simp only [appendedBytes, appended, hp, List.take_succ_cons, Memory.writeBytes,
          List.length_cons, pos_add_succ]
      · simp only [Room, appended, hp]
        omega
      · omega
      · simp [appended, hs, List.replicate_succ]

theorem containerHeader_length (a b c : Word32) : (containerHeader a b c).length = 44 := rfl

/-! ### Half-cycles -/

theorem repeatRun_sample_done (n : Nat) (l : Int) (s : State) (hr : Room n s) (hf : NoSinkFailure s) :
    repeatRun n (sample l) s = .done (emit (List.replicate n l) s) := by
  rw [repeatRun_eq_forEachRun, forEachRun_sample _ _ (by simpa using hr) hf]

/-- A sample does not change the amplitude the level flag selects. -/
theorem sample_andThen_congr (l : Int) (s : State) (f g : State → Run)
    (h : ∀ t, amp t = amp s → f t = g t) : (sample l s).andThen f = (sample l s).andThen g := by
  rw [sample_eq]
  generalize sampleByte l s = b
  have ha : amp (appended b (filtered l s)) = amp s := by simp only [amp, appended, filtered]
  rcases append_cases b (filtered l s) with ⟨_, h1⟩ | ⟨_, _, h1⟩ | ⟨_, _, h1⟩
  · rw [h1]; simp only [raise, Run.raised_andThen]
  · rw [h1]; simp only [raise, Run.raised_andThen]
  · rw [h1, Run.done_andThen, Run.done_andThen, h _ ha]

/-- `LVL` is constant during a half-cycle (42_modulator.md R136), so its samples all have the amplitude
of its start. -/
theorem repeatRun_amp (n : Nat) : ∀ s : State,
    repeatRun n (fun s => sample (amp s) s) s = repeatRun n (sample (amp s)) s := by
  induction n with
  | zero => intro s; rw [repeatRun_zero, repeatRun_zero]
  | succ n ih =>
    intro s
    rw [repeatRun_succ, repeatRun_succ]
    apply sample_andThen_congr
    intro t ht
    rw [ih, ht]

theorem half_eq (n : Nat) (s : State) :
    half n s = (repeatRun n (sample (amp s)) s).andThen fun s => .done (toggleLvl s) := by
  unfold half
  rw [repeatRun_amp]

theorem half_done (n : Nat) (s : State) (hr : Room n s) (hf : NoSinkFailure s) :
    half n s = .done { emit (List.replicate n (levelAmp s.cfgGain s.lvl)) s with lvl := !s.lvl } := by
  rw [half_eq, repeatRun_sample_done _ _ _ hr hf, Run.done_andThen]
  simp only [toggleLvl, amp, emit_lvl]

/-! ### Bit strings -/

@[simp] theorem sendBits_nil (s : State) : sendBits [] s = s := by
  simp [sendBits, bitsLevels, bitsHalves, halvesLevels, lvlAfter]

theorem bitsHalves_append (xs ys : List Bool) (r : Word32) : ∀ l,
    bitsHalves r l (xs ++ ys) = bitsHalves r l xs ++ bitsHalves r (lvlAfter l xs) ys := by
  induction xs with
  | nil => intro l; rfl
  | cons x xs ih => intro l; simp [bitsHalves, ih, lvlAfter]

theorem bitsLevels_append (xs ys : List Bool) (r : Word32) (g : BitVec 3) (l : Bool) :
    bitsLevels r g l (xs ++ ys) = bitsLevels r g l xs ++ bitsLevels r g (lvlAfter l xs) ys := by
  simp [bitsLevels, halvesLevels, bitsHalves_append]

theorem lvlAfter_append (xs ys : List Bool) (l : Bool) :
    lvlAfter l (xs ++ ys) = lvlAfter (lvlAfter l xs) ys := by
  simp [lvlAfter]

theorem bitsLevels_singleton (r : Word32) (g : BitVec 3) (l b : Bool) :
    bitsLevels r g l [b] =
      if b then List.replicate (period r true) (levelAmp g l) ++
          List.replicate (period r true) (levelAmp g (!l))
      else List.replicate (period r false) (levelAmp g l) := by
  cases b <;> simp [bitsLevels, bitsHalves, bitHalves, halvesLevels]

/-- Counting the 1 bits by position and in the order sent is the same. -/
theorem count_true_bitsMsbFirst (v : Byte) : (bitsMsbFirst v).count true = popcount v := by
  have h : ∀ v : Byte, (bitsMsbFirst v).count true = popcount v := by decide
  exact h v

theorem bitsLevels_length (r : Word32) (g : BitVec 3) (bs : List Bool) : ∀ l,
    (bitsLevels r g l bs).length =
      bs.count false * period r false + bs.count true * (2 * period r true) := by
  induction bs with
  | nil => intro l; simp [bitsLevels, bitsHalves, halvesLevels]
  | cons b bs ih =>
    intro l
    rw [← List.singleton_append, bitsLevels_append, List.length_append, ih, bitsLevels_singleton]
    cases b <;> simp <;> ring

theorem sendBits_append (xs ys : List Bool) (s : State)
    (h : Room (bitsLevels s.cfgSrate s.cfgGain s.lvl xs).length s) :
    sendBits (xs ++ ys) s = sendBits ys (sendBits xs s) := by
  have hp := room_pos _ _ h
  apply State.ext <;>
    simp only [sendBits_lvl, sendBits_lp, sendBits_hp, sendBits_sess, sendBits_pos, sendBits_ipos,
      sendBits_cfgSrate, sendBits_cfgGain, sendBits_fault, sendBits_fcause, sendBits_hdrStat,
      sendBits_hdrSize, sendBits_inLen, sendBits_img, sendBits_out, sendBits_sinkCap,
      sendBits_srcPresent, sendBits_snkPresent, sendBits_srcFails, sendBits_snkFails, sendBits_hostQ,
      sendBits_started, bitsLevels_append, lvlAfter_append, emit_lp, emit_hp, emit_pos, emit_out,
      emit_snkFails, filterAcc_append, filterBytes_append, Memory.writeBytes_append, List.length_append,
      List.drop_drop, filterBytes_length, hp, BitVec.add_assoc, BitVec.ofNat_add]

theorem sendBits_noSinkFailure (bs : List Bool) (s : State) (h : NoSinkFailure s) :
    NoSinkFailure (sendBits bs s) :=
  fun b hb => h b (List.mem_of_mem_drop hb)

/-- Room for a bit string is room for its first part, and then for the rest. -/
theorem room_append (xs ys : List Bool) (s : State)
    (h : Room (bitsLevels s.cfgSrate s.cfgGain s.lvl (xs ++ ys)).length s) :
    Room (bitsLevels s.cfgSrate s.cfgGain s.lvl xs).length s ∧
      Room (bitsLevels s.cfgSrate s.cfgGain (lvlAfter s.lvl xs) ys).length (sendBits xs s) := by
  rw [bitsLevels_append, List.length_append] at h
  have h1 : Room (bitsLevels s.cfgSrate s.cfgGain s.lvl xs).length s := by
    simp only [Room] at *
    omega
  refine ⟨h1, ?_⟩
  have hp := room_pos _ _ h1
  simp only [Room, sendBits_pos, sendBits_sinkCap, emit_pos, hp] at h ⊢
  omega

theorem runBit_done (b : Bool) (s : State) (hf : NoSinkFailure s)
    (hr : Room (bitsLevels s.cfgSrate s.cfgGain s.lvl [b]).length s) :
    runBit b s = .done (sendBits [b] s) := by
  rw [bitsLevels_singleton] at hr
  cases b with
  | false =>
    simp only [Bool.false_eq_true, if_false, List.length_replicate] at hr
    simp only [runBit, Bool.false_eq_true, if_false]
    rw [half_done _ _ hr hf]
    simp [sendBits, bitsLevels_singleton, lvlAfter, lvlAfterBit]
  | true =>
    simp only [if_true, List.length_append, List.length_replicate] at hr
    have hr1 : Room (period s.cfgSrate true) s := by
      simp only [Room] at hr ⊢
      omega
    have hp := room_pos _ _ hr1
    simp only [runBit, if_true]
    have hr2 : Room (List.replicate (period s.cfgSrate true) (levelAmp s.cfgGain s.lvl)).length s := by
      simpa using hr1
    rw [half_done _ _ hr1 hf, Run.done_andThen,
      half_done _ { emit (List.replicate (period s.cfgSrate true) (levelAmp s.cfgGain s.lvl)) s with
        lvl := !s.lvl } ?_ (emit_noSinkFailure _ s hf)]
    · simp only [sendBits, bitsLevels_singleton, if_true, emit_append _ _ _ hr2, lvlAfter, List.foldl,
        lvlAfterBit, emit_cfgGain, Bool.not_not]
      simp only [emit]
    · simp only [Room, emit_pos, emit_sinkCap, List.length_replicate, hp] at hr ⊢
      omega

theorem forEachRun_runBit_done (bs : List Bool) : ∀ s, NoSinkFailure s →
    Room (bitsLevels s.cfgSrate s.cfgGain s.lvl bs).length s →
    forEachRun bs runBit s = .done (sendBits bs s) := by
  induction bs with
  | nil => intro s _ _; simp
  | cons b bs ih =>
    intro s hf hr
    obtain ⟨h1, h2⟩ := room_append [b] bs s hr
    rw [forEachRun_cons, runBit_done b s hf h1, Run.done_andThen,
      ih _ (sendBits_noSinkFailure _ _ hf) h2, ← sendBits_append _ _ _ h1, List.singleton_append]

/-! ### Byte strings -/

theorem bytesBits_append (xs ys : List Byte) : bytesBits (xs ++ ys) = bytesBits xs ++ bytesBits ys := by
  unfold bytesBits
  rw [List.flatMap_append]

theorem bytesBits_cons (v : Byte) (vs : List Byte) :
    bytesBits (v :: vs) = bitsMsbFirst v ++ bytesBits vs := rfl

theorem bytesBits_replicate (n : Nat) (v : Byte) :
    bytesBits (List.replicate n v) = (List.replicate n (bitsMsbFirst v)).flatten := by
  simp [bytesBits, ← List.map_replicate, List.flatMap_def]

theorem forEachRun_runByte (vs : List Byte) : ∀ s,
    forEachRun vs runByte s = forEachRun (bytesBits vs) runBit s := by
  induction vs with
  | nil => intro s; rfl
  | cons v vs ih =>
    intro s
    rw [bytesBits_cons, forEachRun_append, forEachRun_cons]
    congr 1
    funext t
    exact ih t

theorem runLeader_eq (s : State) :
    runLeader s = forEachRun (bytesBits (List.replicate leaderCount leaderByte)) runBit s := by
  unfold runLeader
  rw [repeatRun_eq_forEachRun, forEachRun_runByte]

/-! ### What the loops keep, whatever fails -/

theorem append_ends {Q E : State → Prop} (b : Byte) (s : State) (hQ : Q (appended b s))
    (hE : ∀ l, E { s with snkFails := l, fault := true, fcause := .outputStreamFailure }) :
    (append b s).Ends Q E := by
  rcases append_cases b s with ⟨_, h⟩ | ⟨_, _, h⟩ | ⟨_, _, h⟩ <;> rw [h]
  · exact hE s.snkFails
  · exact hE s.snkFails.tail
  · exact hQ

/-- As `append_ends`, knowing that a completed append had room. -/
theorem append_ends_room {Q E : State → Prop} (b : Byte) (s : State)
    (hQ : s.pos.toNat < s.sinkCap.size → Q (appended b s))
    (hE : ∀ l, E { s with snkFails := l, fault := true, fcause := .outputStreamFailure }) :
    (append b s).Ends Q E := by
  rcases append_cases b s with ⟨_, h⟩ | ⟨_, _, h⟩ | ⟨hr, _, h⟩ <;> rw [h]
  · exact hE s.snkFails
  · exact hE s.snkFails.tail
  · exact hQ hr

theorem sample_ends {Q E : State → Prop} (l : Int) (s : State)
    (hQ : ∀ b, s.pos.toNat < s.sinkCap.size → Q (appended b (filtered l s)))
    (hE : ∀ x, E { filtered l s with snkFails := x, fault := true, fcause := .outputStreamFailure }) :
    (sample l s).Ends Q E := by
  rw [sample_eq]
  exact append_ends_room _ _ (hQ _) hE

theorem patch_ends {Q E : State → Prop} (a : Nat) (v : List Byte) (s : State)
    (hQ : Q { s with out := s.out.writeBytes a v, snkFails := s.snkFails.tail })
    (hE : ∀ l, E { s with snkFails := l, fault := true, fcause := .outputStreamFailure }) :
    (patch a v s).Ends Q E := by
  rcases patch_cases a v s with ⟨_, h⟩ | ⟨_, h⟩ <;> rw [h]
  · exact hE _
  · exact hQ

theorem half_ends {Q E : State → Prop} (hs : ∀ l s, Q s → (sample l s).Ends Q E)
    (ht : ∀ s, Q s → Q (toggleLvl s)) (n : Nat) (s : State) (h : Q s) : (half n s).Ends Q E :=
  (repeatRun_ends (fun s h => hs (amp s) s h) n s h).andThen fun s h => ht s h

theorem runBit_ends {Q E : State → Prop} (hs : ∀ l s, Q s → (sample l s).Ends Q E)
    (ht : ∀ s, Q s → Q (toggleLvl s)) (b : Bool) (s : State) (h : Q s) : (runBit b s).Ends Q E := by
  unfold runBit
  cases b with
  | false => exact half_ends hs ht _ s h
  | true => exact (half_ends hs ht _ s h).andThen (half_ends hs ht _)

theorem runByte_ends {Q E : State → Prop} (hs : ∀ l s, Q s → (sample l s).Ends Q E)
    (ht : ∀ s, Q s → Q (toggleLvl s)) (v : Byte) (s : State) (h : Q s) : (runByte v s).Ends Q E :=
  forEachRun_ends (runBit_ends hs ht) _ _ h

theorem payloadLoop_ends {Q E : State → Prop} (hb : ∀ v s, Q s → (runByte v s).Ends Q E)
    (hr : ∀ s, Q s → s.ipos.toNat < s.inLen.toNat → Q (advanced s))
    (hE : ∀ s, Q s → ∀ l, E { s with srcFails := l, fault := true, fcause := .inputStreamFailure })
    (n : Nat) : ∀ s, Q s → (payloadLoop n s).Ends Q E := by
  induction n with
  | zero => intro s h; exact h
  | succ n ih =>
    intro s h
    unfold payloadLoop
    rcases readIn_cases s with ⟨_, hri⟩ | ⟨_, _, hri⟩ | ⟨hlt, _, hri⟩ <;> rw [hri] <;> simp only
    · exact h
    · exact hE s h _
    · exact (hb _ _ (hr s h hlt)).andThen ih

end Sys2Proof.Machine
end

