-- ==== Sys2Proof/Laws/Inspect.lean ====
section
/-! SUPPORT. What INSPECT keeps, whatever the image is and whatever read fails. -/

namespace Sys2Proof.Machine

/-- `ReadIn` keeps what its two updates keep. -/
theorem readIn_ends {P E : State → Prop} (hA : ∀ s v l, P s → P { s with ipos := v, srcFails := l })
    (hE : ∀ s l, P s → E { s with srcFails := l, fault := true, fcause := .inputStreamFailure })
    (s : State) (h : P s) :
    match readIn s with
    | .eof t => P t
    | .raised t => E t
    | .byte _ t => P t := by
  rcases readIn_cases s with ⟨_, h1⟩ | ⟨_, _, h1⟩ | ⟨_, _, h1⟩ <;> rw [h1]
  · exact h
  · exact hE s _ h
  · exact hA s (s.ipos + 1#32) s.srcFails.tail h

/-- INSPECT keeps what the updates of `IPOS`, of the answers to reads and of its two status registers keep. -/
theorem runInspect_ends {P E : State → Prop} (hA : ∀ s v l, P s → P { s with ipos := v, srcFails := l })
    (hH : ∀ s a b, P s → P { s with hdrStat := a, hdrSize := b })
    (hE : ∀ s l, P s → E { s with srcFails := l, fault := true, fcause := .inputStreamFailure })
    (s : State) (h : P s) : (runInspect s).Ends P E := by
  have rd := readIn_ends hA hE
  have sh : ∀ a b s, P s → (setHeader a b s).Ends P E := fun a b s h => hH _ _ _ h
  have ms : ∀ cs ok s, P s → (matchSig cs ok s).2.Ends P E := by
    intro cs
    induction cs with
    | nil => exact fun ok s h => h
    | cons c cs ih =>
      intro ok s h
      unfold matchSig
      have := rd s h
      revert this
      cases readIn s with
      | eof t => exact fun h => h
      | raised t => exact fun h => h
      | byte v t => exact fun h => ih _ _ h
  have cm : ∀ s, P s → (checkMarker s).Ends P E := by
    intro s h
    unfold checkMarker
    have := rd s h
    revert this
    cases readIn s with
    | eof t => exact sh _ _ _
    | raised t => exact fun h => h
    | byte v t =>
      intro h
      simp only
      split <;> exact sh _ _ _ h
  have sz : ∀ n s, P s → (scanZero n s).Ends P E := by
    intro n
    induction n with
    | zero => exact sh _ _
    | succ n ih =>
      intro s h
      unfold scanZero
      have := rd s h
      revert this
      cases readIn s with
      | eof t => exact sh _ _ _
      | raised t => exact fun h => h
      | byte v t =>
        intro h
        simp only
        split
        · exact cm _ h
        · exact ih _ h
  unfold runInspect
  have h0 := hA s 0#32 s.srcFails h
  refine Run.Ends.andThen (ms sig true _ h0) ?_
  intro t h
  split
  · exact sz _ _ h
  · exact sh _ _ _ h

end Sys2Proof.Machine
end

