-- ==== Sys2Proof/Laws/Payload.lean ====
section
/-! SUPPORT. The loop of PAYLOAD when nothing fails and when a read fails, and memories that hold a byte
string from address 0. -/

namespace Sys2Proof.Machine

/-! ### The image -/

theorem imageBytes_length (s : State) : (imageBytes s).length = s.inLen.toNat := by
  simp [imageBytes]

theorem imageBytes_drop (s : State) (k : Nat) (h : k < s.inLen.toNat) :
    (imageBytes s).drop k = memRead s k :: (imageBytes s).drop (k + 1) := by
  rw [List.drop_eq_getElem_cons (by simpa [imageBytes] using h)]
  simp [imageBytes]

theorem runByte_done (v : Byte) (s : State) (hf : NoSinkFailure s)
    (hr : Room (bitsLevels s.cfgSrate s.cfgGain s.lvl (bitsMsbFirst v)).length s) :
    runByte v s = .done (sendBits (bitsMsbFirst v) s) :=
  forEachRun_runBit_done _ s hf hr

theorem sendBits_advanced_image (bs : List Bool) (s : State) :
    imageBytes (sendBits bs (advanced s)) = imageBytes s := rfl

theorem payloadLoop_done (n : Nat) : ∀ s, s.ipos.toNat + n = s.inLen.toNat → NoSourceFailure s →
    NoSinkFailure s →
    Room (bitsLevels s.cfgSrate s.cfgGain s.lvl (bytesBits ((imageBytes s).drop s.ipos.toNat))).length s →
    payloadLoop n s = .done { sendBits (bytesBits ((imageBytes s).drop s.ipos.toNat)) s with
      ipos := s.inLen, srcFails := s.srcFails.drop n } := by
  induction n with
  | zero =>
    intro s h _ _ _
    have h1 : (imageBytes s).drop s.ipos.toNat = [] := by
      apply List.drop_eq_nil_of_le
      rw [imageBytes_length]
      omega
    have h2 : s.ipos = s.inLen := by
      apply BitVec.eq_of_toNat_eq
      omega
    have h3 : sendBits (bytesBits []) s = s := sendBits_nil s
    rw [h1, h3, ← h2]
    rfl
  | succ n ih =>
    intro s h hsrc hsnk hr
    have hlt : s.ipos.toNat < s.inLen.toNat := by omega
    rcases readIn_cases s with ⟨h0, _⟩ | ⟨_, h1, _⟩ | ⟨_, _, hri⟩
    · omega
    · rw [noSourceFailure_next s hsrc] at h1
      cases h1
    · simp only [payloadLoop, hri]
      rw [imageBytes_drop s _ hlt, bytesBits_cons] at hr ⊢
      generalize memRead s s.ipos.toNat = v at *
      obtain ⟨hr1, hr2⟩ := room_append _ _ _ hr
      have hip : (sendBits (bitsMsbFirst v) (advanced s)).ipos.toNat = s.ipos.toNat + 1 := ipos_succ s hlt
      have hin : (sendBits (bitsMsbFirst v) (advanced s)).inLen = s.inLen := rfl
      rw [runByte_done v (advanced s) hsnk hr1, Run.done_andThen, ih]
      · rw [hip, sendBits_advanced_image, sendBits_append _ _ _ hr1]
        simp only [sendBits, emit, advanced, List.drop_tail]
      · rw [hip, hin]
        omega
      · exact fun b hb => hsrc b (List.mem_of_mem_tail hb)
      · exact emit_noSinkFailure _ (advanced s) hsnk
      · rw [hip, sendBits_advanced_image]
        exact hr2

theorem payloadLoop_read_fails (k : Nat) : ∀ n s rest, s.ipos.toNat + n = s.inLen.toNat → k < n →
    NoSinkFailure s → s.srcFails = List.replicate k false ++ true :: rest →
    Room (bitsLevels s.cfgSrate s.cfgGain s.lvl
      (bytesBits (((imageBytes s).drop s.ipos.toNat).take k))).length s →
    payloadLoop n s = .raised { sendBits (bytesBits (((imageBytes s).drop s.ipos.toNat).take k)) s with
      ipos := s.ipos + BitVec.ofNat 32 k, srcFails := rest
      fault := true, fcause := .inputStreamFailure } := by
  induction k with
  | zero =>
    intro n s rest h hn _ hs _
    obtain ⟨n, rfl⟩ : ∃ m, n = m + 1 := ⟨n - 1, by omega⟩
    rcases readIn_cases s with ⟨h0, _⟩ | ⟨_, h1, hri⟩ | ⟨_, h1, _⟩
    · omega
    · have h3 : sendBits (bytesBits []) s = s := sendBits_nil s
      simp only [payloadLoop, hri, List.take_zero, h3]
      simp [hs, raise]
    · rw [hs] at h1
      cases h1
  | succ k ih =>
    intro n s rest h hn hsnk hs hr
    obtain ⟨n, rfl⟩ : ∃ m, n = m + 1 := ⟨n - 1, by omega⟩
    have hlt : s.ipos.toNat < s.inLen.toNat := by omega
    rcases readIn_cases s with ⟨h0, _⟩ | ⟨_, h1, _⟩ | ⟨_, _, hri⟩
    · omega
    · rw [hs] at h1
      cases h1
    · simp only [payloadLoop, hri]
      rw [imageBytes_drop s _ hlt, List.take_succ_cons, bytesBits_cons] at hr ⊢
      generalize memRead s s.ipos.toNat = v at *
      obtain ⟨hr1, hr2⟩ := room_append _ _ _ hr
      have hip : (sendBits (bitsMsbFirst v) (advanced s)).ipos.toNat = s.ipos.toNat + 1 := ipos_succ s hlt
      have hin : (sendBits (bitsMsbFirst v) (advanced s)).inLen = s.inLen := rfl
      rw [runByte_done v (advanced s) hsnk hr1, Run.done_andThen, ih n _ rest]
      · rw [hip, sendBits_advanced_image, sendBits_append _ _ _ hr1]
        simp only [sendBits, emit, advanced, pos_add_succ]
      · rw [hip, hin]
        omega
      · omega
      · exact emit_noSinkFailure _ (advanced s) hsnk
      · have h1 : (sendBits (bitsMsbFirst v) (advanced s)).srcFails = s.srcFails.tail := rfl
        rw [h1, hs]
        rfl
      · rw [hip, sendBits_advanced_image]
        exact hr2

/-! ### A memory that holds a byte string -/

theorem memoryOf_addresses (xs : List Byte) : (memoryOf xs).map Prod.fst = List.range xs.length :=
  List.map_fst_zip (by simp)

theorem memoryOf_snoc (xs : List Byte) (x : Byte) :
    memoryOf (xs ++ [x]) = memoryOf xs ++ [(xs.length, x)] := by
  simp only [memoryOf, List.length_append, List.length_singleton]
  rw [List.range_succ, List.zip_append (by simp)]
  simp

theorem memoryOf_append (xs ys : List Byte) :
    memoryOf (xs ++ ys) = (memoryOf xs).writeBytes xs.length ys := by
  induction ys using List.reverseRecOn with
  | nil => simp [Memory.writeBytes]
  | append_singleton ys y ih =>
    rw [← List.append_assoc, Memory.writeBytes_append, ← ih, memoryOf_snoc]
    simp only [Memory.writeBytes]
    rw [Memory.write_end, List.length_append]
    rw [memoryOf_addresses]
    intro x hx
    simpa using hx

/-- Two canonical memories with the same addresses that read alike are equal. -/
theorem Memory.ext_of_addresses (m : Memory) : ∀ m' : Memory, m.wf →
    m.map Prod.fst = m'.map Prod.fst → (∀ a, m.read a = m'.read a) → m = m' := by
  induction m with
  | nil => intro m' _ h _; simpa using h.symm
  | cons c m ih =>
    intro m' hw h hr
    obtain ⟨k, v⟩ := c
    cases m' with
    | nil => simp at h
    | cons c' m' =>
      obtain ⟨k', v'⟩ := c'
      simp only [List.map_cons, List.cons.injEq] at h
      obtain ⟨rfl, h⟩ := h
      have h0 := hr k
      simp only [Memory.read, if_true, Option.some.injEq] at h0
      subst h0
      simp only [Memory.wf, List.map_cons, List.pairwise_cons] at hw
      have hnone : ∀ l : Memory, k ∉ l.map Prod.fst → l.read k = none := by
        intro l hl
        induction l with
        | nil => rfl
        | cons d l ihl =>
          simp only [List.map_cons, List.mem_cons, not_or] at hl
          simp only [Memory.read, if_neg (Ne.symm hl.1)]
          exact ihl hl.2
      have hk : k ∉ m.map Prod.fst := fun hm => absurd (hw.1 k hm) (by omega)
      congr 1
      refine ih m' hw.2 h fun a => ?_
      by_cases ha : k = a
      · subst ha
        rw [hnone m hk, hnone m' (h ▸ hk)]
      · have := hr a
        simpa only [Memory.read, if_neg ha] using this

theorem memoryOf_read (xs : List Byte) (a : Nat) : (memoryOf xs).read a = xs[a]? := by
  have := memoryOf_append [] xs
  rw [List.nil_append] at this
  rw [this, Memory.read_writeBytes]
  by_cases h : a < xs.length
  · simp [h]
  · simp only [List.length_nil, Nat.zero_le, true_and, Nat.zero_add, if_neg h]
    rw [List.getElem?_eq_none (by omega)]
    rfl

theorem memoryOf_write (xs : List Byte) (a : Nat) (y : Byte) (h : a < xs.length) :
    (memoryOf xs).write a y = memoryOf (xs.set a y) := by
  have hw := Memory.wf_of_addresses _ _ (memoryOf_addresses xs)
  have ha : a ∈ (memoryOf xs).map Prod.fst := by
    rw [memoryOf_addresses]
    simpa using h
  apply Memory.ext_of_addresses _ _ (Memory.write_wf _ _ _ hw)
  · rw [Memory.write_listed _ _ _ hw ha, memoryOf_addresses, memoryOf_addresses, List.length_set]
  · intro x
    rw [Memory.read_write, memoryOf_read, memoryOf_read, List.getElem?_set]
    by_cases hx : x = a
    · subst hx
      simp [h]
    · simp [hx, Ne.symm hx]

/-- Patching both length fields of a file with placeholders gives the header with the lengths. -/
theorem memoryOf_patched (tl dl r : Word32) (body : List Byte) :
    ((memoryOf (containerHeader placeholder placeholder r ++ body)).writeBytes 4 (le32 tl)).writeBytes 40
      (le32 dl) = memoryOf (containerHeader tl dl r ++ body) := by
  simp only [le32, Memory.writeBytes]
  have hl : (containerHeader placeholder placeholder r ++ body).length = 44 + body.length := by
    rw [List.length_append, containerHeader_length]
  repeat rw [memoryOf_write _ _ _ (by simp only [List.length_set, hl]; omega)]
  congr 1

end Sys2Proof.Machine
end

