-- ==== Sys2Proof/Laws/PerInstr.lean ====
section
/-! SUPPORT. The family `Format`: what is said of every instruction's word, one lemma for each
constructor. -/

namespace Sys2Proof

/-- The fields of a word put together from an operation code and an `ARG` byte (30_encoding.md R80). -/
theorem fields_of_word (op : BitVec 4) (arg : BitVec 8) :
    opField (op ++ (0#4 ++ arg)) = op ∧ zField (op ++ (0#4 ++ arg)) = 0#4 ∧
      argField (op ++ (0#4 ++ arg)) = arg := by
  refine ⟨?_, ?_, ?_⟩ <;> simp only [opField, zField, argField] <;> ext k hk <;>
    simp only [BitVec.getElem_extractLsb', BitVec.getLsbD_append]
  · have h1 : ¬ 12 + k < 4 + 8 := by omega
    simp [h1, BitVec.getLsbD_eq_getElem, hk]
  · have h1 : 8 + k < 4 + 8 := by omega
    simp [h1]
  · have h1 : k < 4 + 8 := by omega
    simp [h1, hk, BitVec.getLsbD_eq_getElem]

end Sys2Proof

namespace Sys2Proof.Laws.Format

/-- The word of the instruction has `Z = 0`, its own operation code, one of 0x1 to 0xB, and its own
`ARG` byte, from which the decoder selects the operand (30_encoding.md R80, R81). -/
def Statement (i : Instr) : Prop :=
  zField (encode i) = 0#4 ∧ opField (encode i) = i.opcode ∧ argField (encode i) = i.argByte ∧
    1 ≤ i.opcode.toNat ∧ i.opcode.toNat ≤ 11

theorem of_opcode (i : Instr) (h : 1 ≤ i.opcode.toNat ∧ i.opcode.toNat ≤ 11) : Statement i :=
  ⟨(fields_of_word _ _).2.1, (fields_of_word _ _).1, (fields_of_word _ _).2.2, h⟩

theorem init : Statement .init := of_opcode _ (by decide)
theorem inspect : Statement .inspect := of_opcode _ (by decide)
theorem openSink : Statement .openSink := of_opcode _ (by decide)
theorem filter (arg : BitVec 8) : Statement (.filter arg) := of_opcode _ (by simp [Instr.opcode])
theorem bit (arg : BitVec 8) : Statement (.bit arg) := of_opcode _ (by simp [Instr.opcode])
theorem byte (v : BitVec 8) : Statement (.byte v) := of_opcode _ (by simp [Instr.opcode])
theorem gap : Statement .gap := of_opcode _ (by decide)
theorem leader : Statement .leader := of_opcode _ (by decide)
theorem payload : Statement .payload := of_opcode _ (by decide)
theorem closeSink : Statement .closeSink := of_opcode _ (by decide)
theorem encode : Statement .encode := of_opcode _ (by decide)

end Sys2Proof.Laws.Format
end

