-- ==== Sys2Proof/Tests/Slice0.lean ====
section
/-! SUPPORT. Tests on single steps, with expected values from 95_test_vectors.md and the encodings of
30_encoding.md, and a witness for the hypotheses of each statement. -/

namespace Sys2Proof.Machine

/-! ### Well-formedness and decoding -/

/-- An `ARG` bit that FILTER does not use (95 V10: 0x4002). -/
theorem test_wellFormed_refuses_filter : (Instr.filter 0x02#8).wellFormed = false := by decide
/-- An `ARG` bit that BIT does not use (95 V10: 0x5003). -/
theorem test_wellFormed_refuses_bit : (Instr.bit 0x03#8).wellFormed = false := by decide
theorem test_wellFormed_refuses_high_bit : (Instr.bit 0x80#8).wellFormed = false := by decide
theorem test_wellFormed_accepts : (Instr.filter 1#8).wellFormed = true ∧
    (Instr.bit 0#8).wellFormed = true ∧ (Instr.byte 0xFF#8).wellFormed = true := by decide

/-- Every command's word, `OP`, `Z`, `ARG` (30_encoding.md R80, R81). -/
theorem test_decode_init : decode 0b0001_0000_00000000#16 = .ok .init := by decide
theorem test_decode_inspect : decode 0b0010_0000_00000000#16 = .ok .inspect := by decide
theorem test_decode_open : decode 0b0011_0000_00000000#16 = .ok .openSink := by decide
theorem test_decode_filter : decode 0b0100_0000_00000000#16 = .ok (.filter 0#8) ∧
    decode 0b0100_0000_00000001#16 = .ok (.filter 1#8) := by decide
theorem test_decode_bit : decode 0b0101_0000_00000000#16 = .ok (.bit 0#8) ∧
    decode 0b0101_0000_00000001#16 = .ok (.bit 1#8) := by decide
theorem test_decode_byte : decode 0b0110_0000_10101010#16 = .ok (.byte 0xAA#8) ∧
    decode 0b0110_0000_00000001#16 = .ok (.byte 0x01#8) := by decide
theorem test_decode_gap : decode 0b0111_0000_00000000#16 = .ok .gap := by decide
theorem test_decode_leader : decode 0b1000_0000_00000000#16 = .ok .leader := by decide
theorem test_decode_payload : decode 0b1001_0000_00000000#16 = .ok .payload := by decide
theorem test_decode_close : decode 0b1010_0000_00000000#16 = .ok .closeSink := by decide
theorem test_decode_encode : decode 0b1011_0000_00000000#16 = .ok .encode := by decide

/-- The illegal words of 95 V10. -/
theorem test_decode_refuses : [0x0000#16, 0x1001#16, 0x4002#16, 0x5003#16, 0x6100#16, 0xB001#16,
    0xC000#16, 0xFFFF#16, 0x7001#16].all (fun w => !(decode w).isOk) = true := by decide

/-- The host's numbering of a table row's bits is the command word's own. -/
theorem test_decodeTableWord : decodeTableWord 16 0x60A5 = some (.byte 0xA5#8) ∧
    decodeTableWord 16 0x6100 = none := by decide

/-! ### Small states -/

/-- Reset, then `CFG_SRATE = 8000`: `P0 = 7`, `P1 = 3`, `NSIL = 54` (95 V5). -/
def at8000 : State := { State.reset with cfgSrate := 8000#32 }

/-- As after OPEN, without the header's bytes. -/
def inSession (s : State) : State := { s with sess := .opened, pos := 44#32 }

/-- With a tape image. -/
def withImage (bs : List Byte) (s : State) : State :=
  { s with img := memoryOf bs, inLen := BitVec.ofNat 32 bs.length }

/-- The state a step leaves. -/
def nextOf : Host.Outcome State Fault Refusal → Option State
  | .next s => some s
  | .fault _ => none
  | .refused _ => none

/-- `n` bytes of the sink from an address. -/
def sinkBytes (a n : Nat) (s : State) : List Byte :=
  (List.range n).filterMap fun k => s.out.read (a + k)

/-! ### One step of each command -/

/-- INIT (43_framing.md R150). -/
theorem test_init : exec .init { State.reset with lp := 1#64, hp := 2#64, lvl := true } =
    .next State.reset := by rfl

/-- 95 V8, last row but one: `SIG 00 66`. -/
theorem test_inspect_found :
    (nextOf (exec .inspect (withImage (sig ++ [0x00#8, 0x66#8]) State.reset))).map
      (fun t => (t.hdrStat, t.hdrSize, t.ipos, t.fault)) = some (.found, 34#32, 34#32, false) := by
  decide +kernel

/-- 95 V8, case d: `SIG 4E 41 4D 45 00 67 55 01`. -/
theorem test_inspect_malformed :
    (nextOf (exec .inspect (withImage (sig ++ [0x4E#8, 0x41#8, 0x4D#8, 0x45#8, 0x00#8, 0x67#8, 0x55#8,
      0x01#8]) State.reset))).map (fun t => (t.hdrStat, t.hdrSize, t.ipos)) =
      some (.malformed, 0#32, 38#32) := by
  decide +kernel

/-- 95 V7, the placeholder header at 8000 Hz. -/
theorem test_open : (nextOf (exec .openSink at8000)).map
      (fun t => (sinkBytes 0 60 t, t.pos, t.sess)) =
    some ([0x52#8, 0x49#8, 0x46#8, 0x46#8, 0x00#8, 0x00#8, 0x00#8, 0x00#8, 0x57#8, 0x41#8, 0x56#8,
        0x45#8, 0x66#8, 0x6D#8, 0x74#8, 0x20#8] ++
      [0x10#8, 0x00#8, 0x00#8, 0x00#8, 0x01#8, 0x00#8, 0x01#8, 0x00#8, 0x40#8, 0x1F#8, 0x00#8, 0x00#8,
        0x40#8, 0x1F#8, 0x00#8, 0x00#8] ++
      [0x01#8, 0x00#8, 0x08#8, 0x00#8, 0x64#8, 0x61#8, 0x74#8, 0x61#8, 0x00#8, 0x00#8, 0x00#8, 0x00#8],
      44#32, .opened) := by
  decide +kernel

/-- 95 V1, call 1: from reset, gain 6. -/
theorem test_filter_first : (nextOf (exec (.filter 1#8) (inSession State.reset))).map
      (fun t => (sinkBytes 44 9 t, t.pos, t.lp, t.lvl)) =
    some ([0xB1#8], 45#32, 0x404918B439581062#64, false) := by
  decide +kernel

/-- 95 V1, call 12: a negative filter output is truncated toward zero. -/
theorem test_filter_truncates : (nextOf (exec (.filter 0#8) { inSession State.reset with
      lp := 0x401F1AA22C491DAA#64, hp := 0x4013747515B1467F#64 })).map
      (fun t => (sinkBytes 44 9 t, t.lp, t.hp)) =
    some ([0x7F#8], 0x400B83BEDE92CD98#64, 0x40136A1A8F114646#64) := by
  decide +kernel

/-- 95 P2: BIT 0 at 8000 Hz. -/
theorem test_bit_0 : (nextOf (exec (.bit 0#8) (inSession at8000))).map
      (fun t => (sinkBytes 44 60 t, t.pos, t.lvl)) =
    some (List.replicate 7 0x80#8, 51#32, true) := by
  decide +kernel

/-- 95 P2: BIT 1 with the level high, from cleared accumulators. -/
theorem test_bit_1 : (nextOf (exec (.bit 1#8) { inSession at8000 with lvl := true })).map
      (fun t => (sinkBytes 44 60 t, t.pos, t.lvl)) =
    some ([0xB1#8, 0xC7#8, 0xD0#8, 0xA2#8, 0x8E#8, 0x85#8], 50#32, true) := by
  decide +kernel

/-- 95 P2b: BYTE 0xA5 at 8000 Hz, the samples of its first three bits, and where it ends. -/
theorem test_byte : (nextOf (exec (.byte 0xA5#8) (inSession at8000))).map
      (fun t => (sinkBytes 44 19 t, t.pos, t.lvl)) =
    some ([0x80#8, 0x80#8, 0x80#8, 0xB1#8, 0xC7#8, 0xD0#8, 0xA2#8, 0x8E#8, 0x85#8, 0x81#8, 0x80#8,
      0x7F#8, 0x7F#8, 0xB0#8, 0xC5#8, 0xCF#8, 0xA0#8, 0x8C#8, 0x83#8], 96#32, false) := by
  decide +kernel

/-- 95 P3: the leading gap at 8000 Hz. -/
theorem test_gap : (nextOf (exec .gap (inSession at8000))).map
      (fun t => (sinkBytes 44 60 t, t.pos, t.lvl)) =
    some (List.replicate 54 0x80#8, 98#32, false) := by
  decide +kernel

/-- 95 P3, the first two bits of the leader. A sink that is full inside the second byte ends the command
there, with the level of the half-cycle not toggled (95 V12): 52 samples, then three at level 0 and one
at level 1. -/
theorem test_leader : (nextOf (exec .leader { inSession at8000 with
      sinkCap := ⟨100, by decide, by decide⟩ })).map
      (fun t => (sinkBytes 44 13 t, t.pos, t.lvl, t.fcause)) =
    some ([0x80#8, 0x80#8, 0x80#8, 0xB1#8, 0xC7#8, 0xD0#8, 0xA2#8, 0x8E#8, 0x85#8, 0x81#8, 0x80#8,
      0x7F#8, 0x7F#8], 100#32, true, .outputStreamFailure) := by
  decide +kernel

/-- 95 V12: image `00 FF`, the second read fails. -/
theorem test_payload_read_failure : (nextOf (exec .payload { withImage [0x00#8, 0xFF#8]
      (inSession at8000) with srcFails := [false, true] })).map
      (fun t => (t.pos, t.ipos, t.fcause, t.lvl)) =
    some (100#32, 1#32, .inputStreamFailure, false) := by
  decide +kernel

/-- 95 V6: image `80`, 55 samples, the level inverted; `IPOS` ends at `IN_LEN`. -/
theorem test_payload : (nextOf (exec .payload (withImage [0x80#8] (inSession at8000)))).map
      (fun t => (t.pos, t.ipos, t.fault, t.lvl)) = some (99#32, 1#32, false, true) := by
  decide +kernel

/-- 95 P3: the length fields of a file of 13412 bytes. -/
theorem test_close : (nextOf (exec .closeSink { inSession at8000 with pos := 13412#32 })).map
      (fun t => (sinkBytes 0 8 t, sinkBytes 36 10 t, t.pos, t.sess)) =
    some ([0x5C#8, 0x34#8, 0x00#8, 0x00#8], [0x38#8, 0x34#8, 0x00#8, 0x00#8], 13412#32, .closed) := by
  decide +kernel

/-- 95 V12: `SnkFail()` true at the first patch. -/
theorem test_close_failure : (nextOf (exec .closeSink { inSession at8000 with
      snkFails := [true] })).map (fun t => (sinkBytes 0 8 t, t.sess, t.fcause)) =
    some ([], .opened, .outputStreamFailure) := by
  decide +kernel

/-- 95 P3: the beginning of the file at 8000 Hz, cut off by a full sink inside the leader. -/
theorem test_encode_beginning : (nextOf (exec .encode { at8000 with
      sinkCap := ⟨107, by decide, by decide⟩ })).map
      (fun t => (sinkBytes 0 8 t, sinkBytes 95 8 t, t.pos, t.sess, t.fcause)) =
    some ([0x52#8, 0x49#8, 0x46#8, 0x46#8, 0x00#8, 0x00#8, 0x00#8, 0x00#8],
      [0x80#8, 0x80#8, 0x80#8, 0x80#8, 0x80#8, 0x80#8, 0xB1#8, 0xC7#8],
      107#32, .opened, .outputStreamFailure) := by
  decide +kernel

/-- 95 V11: ENCODE with both pins 0. -/
theorem test_encode_pins : (nextOf (exec .encode { at8000 with
      srcPresent := false, snkPresent := false })).map (fun t => (t.fcause, t.pos, t.out)) =
    some (.inputUnreadable, 0#32, []) := by
  decide +kernel

/-- 95 V11: BIT 0 right after reset, and 0xC000 while OPEN. -/
theorem test_step_errors :
    (nextOf (step (State.reset.withFetchWord 16 0x5000))).map (fun t => (t.fault, t.fcause)) =
      some (true, .sequenceError) ∧
    (nextOf (step ((inSession State.reset).withFetchWord 16 0xC000))).map (fun t => (t.fault, t.fcause)) =
      some (true, .illegalCommand) := by
  decide +kernel

/-- 95 V3: `ToByte` at 0.0, -0.0, -0.999, 1.0, -1.0, 126.999, 127.9, 1.0e300, -126.5, -127.5. -/
theorem test_toByte : [0x0000000000000000#64, 0x8000000000000000#64, 0xBFEFF7CED916872B#64,
      0x3FF0000000000000#64, 0xBFF0000000000000#64, 0x405FBFEF9DB22D0E#64, 0x405FF9999999999A#64,
      0x7E37E43C8800759C#64, 0xC05FA00000000000#64, 0xC05FE00000000000#64].map toByte =
    [0x80#8, 0x80#8, 0x80#8, 0x81#8, 0x7F#8, 0xFE#8, 0xFF#8, 0xFF#8, 0x02#8, 0x01#8] := by
  decide +kernel

/-! ### Witnesses: states that meet the hypotheses of the statements -/

/-- The finished empty container (95 P1). -/
def finished : State :=
  { State.reset with
    sess := .closed, pos := 44#32, started := true
    out := memoryOf (containerHeader 36#32 0#32 44100#32) }

/-- A session at 8000 Hz with the placeholder header in the sink. -/
def session8000 : State :=
  { inSession at8000 with started := true, out := memoryOf (containerHeader 0#32 0#32 8000#32) }

/-- The smallest image with a header (95 V8). -/
def headerImage : List Byte := sig ++ [0x00#8, 0x66#8]

theorem witness_DecodeAndEncodeAgree : decode 0x60FF#16 = .ok (.byte 0xFF#8) := by decide

theorem witness_StepRunsThePresentedCommand :
    let s := { State.reset with hostQ := [.command 0x3000#16] }
    let u := { State.reset with hostQ := [.command 0xC000#16] }
    (s.hostQ = .command 0x3000#16 :: [] ∧ launchLegal s = true ∧ decode 0x3000#16 = .ok .openSink) ∧
    (u.hostQ = .command 0xC000#16 :: [] ∧ launchLegal u = true ∧ decode 0xC000#16 = .error .opcode) ∧
    (launchLegal State.reset = true ∧ decodeTableWord 16 0xB000 = some .encode) := by decide

theorem witness_IllegalLaunchIsRefused :
    let s := { State.reset with cfgGain := 0#3, hostQ := [.command 0x1000#16] }
    let u := { State.reset with cfgSrate := 44101#32, hostQ := [.command 0x1000#16] }
    (s.hostQ = .command 0x1000#16 :: [] ∧ launchLegal s = false) ∧
    (u.hostQ = .command 0x1000#16 :: [] ∧ launchLegal u = false) ∧
    launchLegal { State.reset with cfgGain := 1#3 } = true ∧
    launchLegal { State.reset with cfgGain := 7#3, cfgSrate := 8000#32 } = true := by decide

theorem witness_HostMovesKeepTheContract :
    State.reset.hostQ = [] ∧ State.reset.started = false ∧
    (let s := { State.reset with started := true, hostQ := [.writeGain 7#3] }
     s.hostQ = .writeGain 7#3 :: [] ∧ s.started = true ∧
       HostMove.writeGain 7#3 ∈ [HostMove.writeSrate 8000#32, .writeGain 7#3, .writeInLen 0#32, .writeImage 0#32 0#8]) ∧
    (let s := { State.reset with hostQ := [.writeImage 0#32 0xFF#8] }
     s.started = false ∧ s.hostQ = .writeImage 0#32 0xFF#8 :: [] ∧ 1 ≠ (0#32).toNat) ∧
    (let s := { State.reset with hostQ := [.writeSrate 8000#32] }
     s.started = false ∧ s.hostQ = .writeSrate 8000#32 :: []) ∧
    (let s := { State.reset with hostQ := [.writeInLen 0xFFFFFFFF#32] }
     s.started = false ∧ s.hostQ = .writeInLen 0xFFFFFFFF#32 :: []) ∧
    (let s := { State.reset with hostQ := [.drivePins false true] }
     s.hostQ = .drivePins false true :: []) := by decide

theorem witness_ResetEstablishesTheResetTable :
    { finished with hostQ := [.reset] }.hostQ = .reset :: [] := by decide

theorem witness_RegisterMapReadsTheState : (8 : Nat) < 9 := by decide

theorem finished_inv : StateInv finished :=
  ⟨by decide, by decide, by decide, by decide, by decide, by decide, by decide, by decide, by decide,
    by decide⟩

theorem witness_ResultIsReadableExactlyWhenDone :
    StateInv finished ∧ finished.done = true ∧ 0 < finished.pos.toNat ∧ 43 < finished.pos.toNat ∧
      finished.pos.toNat ≤ 44 ∧ State.reset.done = false :=
  ⟨finished_inv, by decide, by decide, by decide, by decide, by decide⟩

theorem witness_AcceptanceChecksInOrder :
    ({ State.reset with fault := true, fcause := .sequenceError }.fault = true) ∧
    (State.reset.fault = false ∧ (Instr.bit 2#8).wellFormed = false) ∧
    (State.reset.fault = false ∧ (Instr.bit 1#8).wellFormed = true ∧
      legalIn (.bit 1#8) State.reset.sess = false) ∧
    (let s := { State.reset with srcPresent := false, snkPresent := false }
     s.fault = false ∧ Instr.encode.wellFormed = true ∧ legalIn .encode s.sess = true ∧
       Instr.encode ∈ [Instr.inspect, .payload, .encode] ∧ s.srcPresent = false) ∧
    (let s := { State.reset with snkPresent := false }
     s.fault = false ∧ Instr.encode.wellFormed = true ∧ legalIn .encode s.sess = true ∧
       Instr.encode ∈ [Instr.openSink, .encode] ∧ s.snkPresent = false ∧
       (Instr.encode = .encode → s.srcPresent = true)) := by decide

/-- A faulted state with a move pending. -/
def faulted (m : HostMove) : State :=
  { State.reset with fault := true, fcause := .illegalCommand, started := true, hostQ := [m] }

theorem witness_FaultIsStickyUntilReset :
    ((faulted .reset).fault = true ∧ (faulted .reset).hostQ = .reset :: [] ∧
      ∃ t, step (faulted .reset) = .next t) ∧
    ((faulted (.command 0x3000#16)).fault = true ∧
      (faulted (.command 0x3000#16)).hostQ = .command 0x3000#16 :: [] ∧
      ∃ t, step (faulted (.command 0x3000#16)) = .next t) :=
  ⟨⟨rfl, rfl, _, rfl⟩, ⟨rfl, rfl, _, rfl⟩⟩

theorem witness_NoCommandIsLegalAfterTheEnd :
    let s := { finished with hostQ := [.command 0x5000#16] }
    (launchLegal s = true ∧ s.hostQ = .command 0x5000#16 :: [] ∧ s.done = true) ∧
    (launchLegal (faulted (.command 0xC000#16)) = true ∧
      (faulted (.command 0xC000#16)).hostQ = .command 0xC000#16 :: [] ∧
      (faulted (.command 0xC000#16)).fault = true) := by decide

theorem session8000_inv : StateInv session8000 :=
  ⟨by decide, by decide, by decide, by decide, by decide, by decide, by decide, by decide, by decide,
    by decide⟩

theorem witness_StepKeepsTheStateInvariant :
    StateInv (session8000.withFetchWord 16 0x5001) ∧
      ∃ t, step (session8000.withFetchWord 16 0x5001) = .next t :=
  have h := session8000_inv
  ⟨⟨h.1, h.2, h.3, h.4, h.5, h.6, h.7, h.8, h.9, h.10⟩, _, rfl⟩

theorem witness_StepKeepsTheContainerHeader :
    StateInv (session8000.withFetchWord 16 0xA000) ∧ ContainerInv (session8000.withFetchWord 16 0xA000) ∧
      (∃ t, step (session8000.withFetchWord 16 0xA000) = .next t) ∧
      session8000.fault = false ∧ session8000.sess = .opened ∧ finished.done = true ∧
      ContainerInv finished :=
  have h := session8000_inv
  ⟨⟨h.1, h.2, h.3, h.4, h.5, h.6, h.7, h.8, h.9, h.10⟩, ⟨by decide +kernel, by decide +kernel⟩, ⟨_, rfl⟩,
    rfl, rfl, by decide, ⟨by decide +kernel, by decide +kernel⟩⟩

/-- In the middle of a run: the accumulators of 95 V1 after call 1. -/
def filtering : State :=
  { session8000 with lp := 0x404918B439581062#64, hp := 0x3FD6CD74890626F5#64 }

theorem filtering_inv : FilterInv filtering :=
  ⟨⟨by decide +kernel, by decide +kernel, by decide +kernel⟩,
    ⟨by decide +kernel, by decide +kernel, by decide +kernel⟩, by decide⟩

theorem witness_StepKeepsTheFilterBounded :
    FilterInv (filtering.withFetchWord 16 0x4001) ∧
      ∃ t, step (filtering.withFetchWord 16 0x4001) = .next t :=
  ⟨⟨filtering_inv.1, filtering_inv.2, filtering_inv.3⟩, _, rfl⟩

theorem witness_ClampNeverEngages : FilterInv filtering := filtering_inv

theorem witness_AdditionIsCorrectlyRounded :
    f64IsFinite 0x3FF8000000000000#64 = true ∧ f64IsFinite 0x4002000000000000#64 = true ∧
    f64IsFinite (fadd 0x3FF8000000000000#64 0x4002000000000000#64) = true ∧
    f64IsFinite (fsub 0x3FF8000000000000#64 0x4002000000000000#64) = true ∧
    f64IsFinite 0#64 = true ∧
    f64IsFinite 0x7FEFFFFFFFFFFFFF#64 = true ∧
    f64IsFinite (fadd 0x7FEFFFFFFFFFFFFF#64 0x7FEFFFFFFFFFFFFF#64) = false := by decide +kernel

theorem witness_MultiplicationIsCorrectlyRounded :
    f64IsFinite kLp = true ∧ f64IsFinite kHp = true ∧ f64IsFinite (fmul kLp kHp) = true ∧
    f64IsFinite (fmul 0x7FEFFFFFFFFFFFFF#64 0x7FEFFFFFFFFFFFFF#64) = false := by decide +kernel

theorem witness_SampleByteIsClampedAndOffset :
    f64IsFinite 0xC05FE00000000000#64 = true ∧ f64IsFinite 0x405FF9999999999A#64 = true := by decide

theorem witness_FilterConstantsAreExact :
    ((2 ^ 53 - 1 : Nat) : Int).natAbs < 2 ^ 53 ∧ (-((2 ^ 53 - 1 : Nat) : Int)).natAbs < 2 ^ 53 := by decide

theorem witness_GainAmplitudeIsFifteenfold : (1#3 : BitVec 3) ≠ 0#3 := by decide

theorem witness_PeriodsAndGapsOfTheLegalRates : (22050#32).toNat = 2 * (11025#32).toNat := by decide

theorem witness_ByteTogglesAndSamples :
    let n := popcount 0xFF#8
    Accepted (.byte 0xFF#8) session8000 ∧ NoSinkFailure session8000 ∧ launchLegal session8000 = true ∧
      Room ((8 - n) * period session8000.cfgSrate false + n * (2 * period session8000.cfgSrate true))
        session8000 := by decide +kernel

/-- Both clauses at the boundary: a sink of exactly the 13 412 bytes of the empty image. -/
theorem witness_TapeLengthFormula :
    let s := { at8000 with sinkCap := ⟨13412, by decide, by decide⟩ }
    Accepted .encode s ∧ NoSourceFailure s ∧ NoSinkFailure s ∧ s.pos = 0#32 ∧ s.out = [] ∧
      launchLegal s = true ∧ s.inLen = 0#32 ∧
      44 + 2 * nsil s.cfgSrate + 255 * (4 * period s.cfgSrate false + 8 * period s.cfgSrate true) +
        (8 * s.inLen.toNat - ((imageBytes s).map popcount).sum) * period s.cfgSrate false +
        ((imageBytes s).map popcount).sum * (2 * period s.cfgSrate true) ≤ s.sinkCap.size := by
  decide +kernel

theorem witness_InitResult : Accepted .init State.reset := by decide

theorem witness_InspectFollowsTheTable :
    Accepted .inspect (withImage headerImage State.reset) ∧
      NoSourceFailure (withImage headerImage State.reset) := by decide

theorem witness_HeaderSizeIsTheOffsetAfterTheMarker :
    let s := withImage headerImage State.reset
    Accepted .inspect s ∧ NoSourceFailure s ∧ (∀ b ∈ ([] : List Byte), b ≠ 0x00#8) ∧
      imageBytes s =
        [0x43#8, 0x6F#8, 0x6C#8, 0x6F#8, 0x75#8, 0x72#8, 0x20#8, 0x47#8, 0x65#8, 0x6E#8, 0x69#8, 0x65#8,
          0x20#8, 0x2D#8, 0x20#8, 0x56#8, 0x69#8, 0x72#8, 0x74#8, 0x75#8, 0x61#8, 0x6C#8, 0x20#8, 0x54#8,
          0x61#8, 0x70#8, 0x65#8, 0x20#8, 0x46#8, 0x69#8, 0x6C#8, 0x65#8] ++
        ([] ++ [0x00#8]) ++ [0x66#8] ++ [] := by decide +kernel

theorem witness_InspectReadFailure :
    let s := { withImage headerImage State.reset with srcFails := List.replicate 33 false ++ true :: [] }
    let u := { withImage headerImage State.reset with srcFails := List.replicate 0 false ++ true :: [] }
    (Accepted .inspect s ∧ s.srcFails = List.replicate 33 false ++ true :: [] ∧
      33 < (inspection (imageBytes s)).2.2) ∧
    (Accepted .inspect u ∧ u.srcFails = List.replicate 0 false ++ true :: [] ∧
      0 < (inspection (imageBytes u)).2.2) := by decide +kernel

theorem witness_OpenWritesThePlaceholderHeader :
    let s := { State.reset with sinkCap := ⟨44, by decide, by decide⟩ }
    Accepted .openSink s ∧ NoSinkFailure s ∧ Room 44 s := by decide

theorem witness_OpenWriteFailure :
    let s := { State.reset with snkFails := List.replicate 43 false ++ true :: [] }
    let u := { State.reset with pos := 1#32, sinkCap := ⟨44, by decide, by decide⟩ }
    (Accepted .openSink s ∧ 43 < 44 ∧ s.pos.toNat + 43 < s.sinkCap.size ∧
      s.snkFails = List.replicate 43 false ++ true :: []) ∧
    (Accepted .openSink u ∧ 43 < 44 ∧ u.pos.toNat + 43 = u.sinkCap.size ∧ NoSinkFailure u) := by decide

theorem witness_ClosePatchesBothLengths :
    Accepted .closeSink session8000 ∧ NoSinkFailure session8000 := by decide

theorem witness_LengthFieldsAfterClose :
    StateInv session8000 ∧ Accepted .closeSink session8000 ∧ NoSinkFailure session8000 :=
  ⟨session8000_inv, by decide, by decide⟩

theorem witness_CloseWriteFailure :
    Accepted .closeSink { session8000 with snkFails := true :: [] } ∧
      Accepted .closeSink { session8000 with snkFails := false :: true :: [] } := by decide

theorem witness_FilterAppendsOneSample :
    let s := { session8000 with sinkCap := ⟨45, by decide, by decide⟩ }
    Accepted (.filter 1#8) s ∧ NoSinkFailure s ∧ Room 1 s ∧ Accepted (.filter 0#8) s := by decide

theorem witness_FilterAndGapWriteFailure :
    let s := { session8000 with snkFails := List.replicate 53 false ++ true :: [] }
    let u := { session8000 with sinkCap := ⟨44, by decide, by decide⟩ }
    (Accepted .gap s ∧ 53 < (List.replicate (nsil s.cfgSrate) (0 : Int)).length ∧
      s.pos.toNat + 53 < s.sinkCap.size ∧ s.snkFails = List.replicate 53 false ++ true :: []) ∧
    (Accepted (.filter 1#8) u ∧ 0 < [gainAmp u.cfgGain].length ∧
      u.pos.toNat + 0 = u.sinkCap.size ∧ NoSinkFailure u ∧ Accepted (.filter 0#8) u) := by decide

theorem witness_BitEmitsItsHalfCycles :
    NoSinkFailure session8000 ∧ Accepted (.bit 0#8) session8000 ∧ Accepted (.bit 1#8) session8000 ∧
      Room (period session8000.cfgSrate false) session8000 ∧
      Room (2 * period session8000.cfgSrate true) session8000 := by decide

theorem witness_ModulatorWriteFailure :
    let s := { session8000 with snkFails := List.replicate 5 false ++ true :: [] }
    let u := { session8000 with sinkCap := ⟨44, by decide, by decide⟩ }
    (Accepted (.bit 1#8) s ∧
      5 < (bitsLevels s.cfgSrate s.cfgGain s.lvl [(1#8 : BitVec 8).getLsbD 0]).length ∧
      s.pos.toNat + 5 < s.sinkCap.size ∧ s.snkFails = List.replicate 5 false ++ true :: []) ∧
    (Accepted (.byte 0xA5#8) u ∧
      0 < (bitsLevels u.cfgSrate u.cfgGain u.lvl (bitsMsbFirst 0xA5#8)).length ∧
      u.pos.toNat + 0 = u.sinkCap.size ∧ NoSinkFailure u) := by decide +kernel

theorem bytesBits_length (vs : List Byte) : (bytesBits vs).length = 8 * vs.length := by
  induction vs with
  | nil => rfl
  | cons v vs ih =>
    rw [bytesBits_cons, List.length_append, ih, List.length_cons]
    have : (bitsMsbFirst v).length = 8 := rfl
    omega

/-- Every byte gives some sample at 8000 Hz. -/
theorem bytes_give_samples (g : BitVec 3) (l : Bool) (vs : List Byte) (h : vs ≠ []) :
    0 < (bitsLevels 8000#32 g l (bytesBits vs)).length := by
  have h1 := List.count_false_add_count_true (bytesBits vs)
  rw [bytesBits_length] at h1
  have h2 := List.length_pos_of_ne_nil h
  have h3 : period 8000#32 false = 7 := by decide
  have h4 : period 8000#32 true = 3 := by decide
  rw [bitsLevels_length, h3, h4]
  omega

theorem witness_ModulatorWriteFailure_leader :
    let u := { session8000 with sinkCap := ⟨44, by decide, by decide⟩ }
    Accepted .leader u ∧
      0 < (bitsLevels u.cfgSrate u.cfgGain u.lvl (bytesBits (List.replicate 255 0xAA#8))).length ∧
      u.pos.toNat + 0 = u.sinkCap.size ∧ NoSinkFailure u :=
  ⟨by decide, bytes_give_samples _ _ _ (List.ne_nil_of_length_pos (by rw [List.length_replicate]; omega)),
    by decide, by decide⟩

theorem witness_ByteSendsEightBits :
    Accepted (.byte 0xA5#8) session8000 ∧ NoSinkFailure session8000 ∧
      Room (bitsLevels session8000.cfgSrate session8000.cfgGain session8000.lvl
        (bitsMsbFirst 0xA5#8)).length session8000 := by decide +kernel

theorem witness_GapEmitsSilence :
    Accepted .gap session8000 ∧ NoSinkFailure session8000 ∧
      Room (15000 * session8000.cfgSrate.toNat / 2216750) session8000 := by decide

theorem witness_LeaderSendsTheSyncPattern :
    Accepted .leader session8000 ∧ NoSinkFailure session8000 ∧
      Room (255 * (4 * period session8000.cfgSrate false + 8 * period session8000.cfgSrate true))
        session8000 := by decide

theorem witness_PayloadSendsTheWholeImage :
    let s := withImage [0x00#8, 0xFF#8] session8000
    Accepted .payload s ∧ NoSourceFailure s ∧ NoSinkFailure s ∧
      Room (bitsLevels s.cfgSrate s.cfgGain s.lvl (bytesBits (imageBytes s))).length s := by
  decide +kernel

theorem witness_PayloadReadFailure :
    let s := { withImage [0x00#8, 0xFF#8] session8000 with
      srcFails := List.replicate 1 false ++ true :: [] }
    Accepted .payload s ∧ NoSinkFailure s ∧ 1 < s.inLen.toNat ∧
      s.srcFails = List.replicate 1 false ++ true :: [] ∧
      Room (bitsLevels s.cfgSrate s.cfgGain s.lvl (bytesBits ((imageBytes s).take 1))).length s := by
  decide +kernel

theorem witness_PayloadWriteFailure :
    let s := { withImage [0x00#8, 0xFF#8] session8000 with
      snkFails := List.replicate 56 false ++ true :: [] }
    let u := { withImage [0x00#8, 0xFF#8] session8000 with sinkCap := ⟨44, by decide, by decide⟩ }
    let upTo := fun n =>
      (bitsLevels s.cfgSrate s.cfgGain s.lvl (bytesBits ((imageBytes s).take n))).length
    (Accepted .payload s ∧ NoSourceFailure s ∧ 1 < s.inLen.toNat ∧ upTo 1 ≤ 56 ∧ 56 < upTo (1 + 1) ∧
      s.pos.toNat + 56 < s.sinkCap.size ∧ s.snkFails = List.replicate 56 false ++ true :: []) ∧
    (Accepted .payload u ∧ NoSourceFailure u ∧ 0 < u.inLen.toNat ∧ upTo 0 ≤ 0 ∧ 0 < upTo (0 + 1) ∧
      u.pos.toNat + 0 = u.sinkCap.size ∧ NoSinkFailure u) := by
  decide +kernel

theorem witness_EncodeProducesTheTapeFile :
    Accepted .encode at8000 ∧ NoSourceFailure at8000 ∧ NoSinkFailure at8000 ∧ at8000.pos = 0#32 ∧
      at8000.out = [] ∧
      44 + (tapeLevels at8000.cfgSrate at8000.cfgGain (imageBytes at8000)).length ≤
        at8000.sinkCap.size := by
  refine ⟨by decide, by decide, by decide, rfl, rfl, ?_⟩
  have hi : imageBytes at8000 = [] := rfl
  unfold tapeLevels tapeBits
  rw [hi, List.append_nil, List.length_append, List.length_append, List.length_replicate,
    bitsLevels_length]
  have h := List.count_false_add_count_true (bytesBits (List.replicate 255 0xAA#8))
  rw [bytesBits_length, List.length_replicate] at h
  have h0 : period at8000.cfgSrate false = 7 := by decide
  have h1 : period at8000.cfgSrate true = 3 := by decide
  have h2 : nsil at8000.cfgSrate = 54 := by decide
  have h3 : at8000.sinkCap.size = 2 ^ 32 - 1 := rfl
  rw [h0, h1, h2, h3]
  omega

theorem witness_GapIsFilterZeroRepeated : nsil at8000.cfgSrate ≠ 0 := by decide

theorem witness_PayloadIsTheWholeImage :
    Accepted .payload (withImage [0x00#8] session8000) ∧
      NoSourceFailure (withImage [0x00#8] session8000) := by decide

theorem witness_EncodeIsItsSevenCommands :
    State.reset.fault = false ∧ State.reset.sess = .idle ∧ State.reset.srcPresent = true ∧
      State.reset.snkPresent = true := by decide

theorem witness_InspectionDoesNotChangeTheTape :
    NoSourceFailure (withImage headerImage at8000) ∧ Accepted .encode (withImage headerImage at8000) := by
  decide

theorem witness_NoCommandWritesTheLaunch :
    (faulted .reset).fault = true ∧
      ∃ t, exec .init State.reset = .next t ∧ t.fault = State.reset.fault :=
  ⟨rfl, _, rfl, rfl⟩

theorem witness_SampleCommandsFrame :
    (Instr.gap ∈ [Instr.gap, .leader] ∧ ∃ t, exec .gap session8000 = .next t) ∧
    (Instr.byte 0xA5#8 ∈ [Instr.filter 0xA5#8, .bit 0xA5#8, .byte 0xA5#8] ∧
      ∃ t, exec (.byte 0xA5#8) session8000 = .next t) :=
  ⟨⟨by decide, _, rfl⟩, ⟨by decide, _, rfl⟩⟩

theorem witness_PayloadFrame : ∃ t, exec .payload (withImage [0x00#8] session8000) = .next t := ⟨_, rfl⟩

theorem witness_InitAndInspectFrame :
    (∃ t, exec .init State.reset = .next t) ∧
      ∃ t, exec .inspect (withImage headerImage State.reset) = .next t := ⟨⟨_, rfl⟩, ⟨_, rfl⟩⟩

/-- The raise clause of the inspection's frame. -/
theorem witness_InitAndInspectFrame_raise :
    (nextOf (exec .inspect { withImage headerImage State.reset with srcFails := [true] })).map
      (fun t => t.fault) = some true := by decide +kernel

theorem witness_OpenAndCloseFrame :
    (∃ t, exec .openSink State.reset = .next t) ∧ (∃ t, exec .closeSink session8000 = .next t) ∧
    (nextOf (exec .openSink { State.reset with snkFails := [true] })).map (fun t => t.fault) = some true ∧
    (nextOf (exec .closeSink { session8000 with snkFails := [true] })).map (fun t => t.fault) =
      some true := ⟨⟨_, rfl⟩, ⟨_, rfl⟩, by decide +kernel, by decide +kernel⟩

theorem witness_EncodeFrame : ∃ t, exec .encode at8000 = .next t := ⟨_, rfl⟩

end Sys2Proof.Machine
end

section
/-! PROOFS. Rounding: `f64Round` is correct rounding to binary64, and with it the three operations on finite
operands (00_scope.md R13, 41_filter.md R121). -/

namespace Sys2Proof.Machine

/-! ### Rounding once is correct rounding -/

/-- `r` is the correctly rounded binary64 of `v` units of 2^-(1074 + e): finite exactly below the
overflow threshold, no finite value nearer, and even when another value is as near. -/
def CorrectlyRounded (r : Binary64) (v : Int) (e : Nat) : Prop :=
  (f64IsFinite r = true ↔ v.natAbs < (2 ^ 54 - 1) * 2 ^ (2044 + e)) ∧
  (f64IsFinite r = true → ∀ z, f64IsFinite z = true →
    (f64Units r * 2 ^ e - v).natAbs ≤ (f64Units z * 2 ^ e - v).natAbs ∧
    ((f64Units r * 2 ^ e - v).natAbs = (f64Units z * 2 ^ e - v).natAbs →
      f64Units z ≠ f64Units r → r.getLsbD 0 = false))

/-- The quotient rounds to less than an even `m` exactly when it is less than `m - 1/2`: the tie at
`m - 1/2` goes up, to the even `m`. -/
theorem roundHalfEven_lt_even_iff (n sh m : Nat) (hm : m % 2 = 0) :
    roundHalfEven n sh < m ↔ 2 * n + 2 ^ sh < 2 * m * 2 ^ sh := by
  obtain ⟨r, hn, hr, h⟩ := roundHalfEven_spec n sh
  generalize roundHalfEven n sh = q at *
  generalize n / 2 ^ sh = d at *
  generalize 2 ^ sh = p at *
  rcases lt_trichotomy (d + 1) m with hd | hd | hd
  · have : (d + 2) * p ≤ m * p := Nat.mul_le_mul_right p hd
    have : 2 * (d * p) + 4 * p ≤ 2 * m * p := by linarith
    omega
  · have : 2 * m * p = 2 * (d * p) + 2 * p := by rw [← hd]; ring
    omega
  · have : m * p ≤ d * p := Nat.mul_le_mul_right p (by omega)
    have : 2 * m * p ≤ 2 * (d * p) := by linarith
    omega

/-- The unit `2^sh` in which `n` is rounded, against `n`: fewer than `2^53` of it, and at least `2^52` of
it unless it is the least unit. -/
theorem log2_sub_bounds (n e : Nat) :
    n < 2 ^ 53 * 2 ^ max e (n.log2 - 52) ∧
      (max e (n.log2 - 52) = e ∨ 2 ^ 52 * 2 ^ max e (n.log2 - 52) ≤ n) := by
  constructor
  · rw [← pow_add]
    exact Nat.lt_log2_self.trans_le (Nat.pow_le_pow_right (by omega) (by omega))
  · by_cases h : n.log2 - 52 ≤ e
    · exact .inl (by omega)
    · have hn : n ≠ 0 := by
        rintro rfl
        simp at h
      right
      rw [← pow_add]
      exact (Nat.pow_le_pow_right (by omega) (by omega)).trans (Nat.log2_self_le hn)

theorem f64Round_finite_iff_packed_lt (s : Bool) (n e : Nat) :
    f64IsFinite (f64Round s n e) = true ↔ (max e (n.log2 - 52) - e) * 2 ^ 52 +
      roundHalfEven n (max e (n.log2 - 52)) < 2047 * 2 ^ 52 := by
  constructor
  · intro hf
    by_contra h
    rw [(f64Round_infinite s n e (by omega)).2] at hf
    exact Bool.noConfusion hf
  · exact fun h => (f64Round_finite s n e h).1

/-- The rounded result is finite exactly below the overflow threshold, which is half a unit above the
greatest finite value. -/
theorem f64Round_finite_iff (s : Bool) (n e : Nat) :
    f64IsFinite (f64Round s n e) = true ↔ n < (2 ^ 54 - 1) * 2 ^ (2044 + e) := by
  obtain ⟨hq, hq'⟩ := roundHalfEven_bounds n e
  obtain ⟨hn, hn'⟩ := log2_sub_bounds n e
  have htop := roundHalfEven_lt_even_iff n (max e (n.log2 - 52)) (2 ^ 53) (by norm_num)
  have hsh : e ≤ max e (n.log2 - 52) := by omega
  rw [f64Round_finite_iff_packed_lt]
  generalize max e (n.log2 - 52) = sh at *
  generalize roundHalfEven n sh = q at *
  rcases lt_trichotomy sh (2044 + e + 1) with h | rfl | h
  · have : 2 ^ sh ≤ 2 ^ (2044 + e) := Nat.pow_le_pow_right (by omega) (by omega)
    omega
  · have : 2 ^ (2044 + e + 1) = 2 * 2 ^ (2044 + e) := pow_succ' _ _
    omega
  · have : 2 ^ (2044 + e + 2) ≤ 2 ^ sh := Nat.pow_le_pow_right (by omega) (by omega)
    rw [pow_add] at this
    omega

/-- No 53-bit significand in any unit not below `2^e` is nearer to `n` than the rounded result; an
equally near one leaves the rounded significand even. A value that is no multiple of the unit is below
the binade of `n`, so the least value of that binade is strictly nearer. -/
theorem roundHalfEven_nearest_significand (n e m j : Nat) (hm : m < 2 ^ 53) :
    let sh := max e (n.log2 - 52)
    ((roundHalfEven n sh * 2 ^ sh : Nat) - (n : Int)).natAbs ≤
      ((m * 2 ^ (j + e) : Nat) - (n : Int)).natAbs ∧
    (((roundHalfEven n sh * 2 ^ sh : Nat) - (n : Int)).natAbs =
      ((m * 2 ^ (j + e) : Nat) - (n : Int)).natAbs →
      m * 2 ^ (j + e) ≠ roundHalfEven n sh * 2 ^ sh → roundHalfEven n sh % 2 = 0) := by
  intro sh
  obtain ⟨-, hn⟩ := log2_sub_bounds n e
  change sh = e ∨ 2 ^ 52 * 2 ^ sh ≤ n at hn
  by_cases h : sh ≤ j + e
  · have hmul : m * 2 ^ (j + e) = m * 2 ^ (j + e - sh) * 2 ^ sh := by
      rw [mul_assoc, ← pow_add, Nat.sub_add_cancel h]
    obtain ⟨hle, htie⟩ := roundHalfEven_nearest n sh (m * 2 ^ (j + e - sh))
    rw [hmul]
    exact ⟨hle, fun heq hne => htie heq fun h' => hne (by rw [h'])⟩
  · obtain ⟨hle, -⟩ := roundHalfEven_nearest n sh (2 ^ 52)
    have hlow : m * 2 ^ (j + e) < 2 ^ 52 * 2 ^ sh := by
      calc m * 2 ^ (j + e) < 2 ^ 53 * 2 ^ (j + e) := Nat.mul_lt_mul_of_pos_right hm (Nat.two_pow_pos _)
        _ = 2 ^ 52 * 2 ^ (j + e + 1) := by ring
        _ ≤ 2 ^ 52 * 2 ^ sh := Nat.mul_le_mul_left _ (Nat.pow_le_pow_right (by omega) (by omega))
    omega

theorem f64Pack_lowBit (s : Bool) (low : Nat) (h : low < 2 ^ 63) :
    (f64Pack s low).getLsbD 0 = decide (low % 2 = 1) := by
  rw [← BitVec.testBit_toNat, f64Pack_toNat s low h, Nat.testBit_zero]
  cases s
  · simp
  · simp
    omega

/-- The rounded result is even when its significand is. -/
theorem f64Round_lowBit (s : Bool) (n e : Nat)
    (hq : roundHalfEven n (max e (n.log2 - 52)) % 2 = 0) : (f64Round s n e).getLsbD 0 = false := by
  rw [f64Round_eq, f64Pack_lowBit _ _ (by omega), decide_eq_false_iff_not]
  omega

/-- The value of a finite rounded result, in the unit of what was rounded. -/
theorem f64Round_units (s : Bool) (n e : Nat) (hf : f64IsFinite (f64Round s n e) = true) :
    f64Units (f64Round s n e) * 2 ^ e =
      let Q : Nat := roundHalfEven n (max e (n.log2 - 52)) * 2 ^ max e (n.log2 - 52)
      if s then -(Q : Int) else Q := by
  obtain ⟨-, hsign, hmag⟩ := f64Round_finite s n e ((f64Round_finite_iff_packed_lt s n e).mp hf)
  have hpow : 2 ^ (max e (n.log2 - 52) - e) * 2 ^ e = 2 ^ max e (n.log2 - 52) := by
    rw [← pow_add, Nat.sub_add_cancel (by omega)]
  rw [f64Units, hsign, hmag, ← hpow]
  cases s <;> push_cast <;> simp [mul_assoc]

/-- From the magnitudes to the signed values: if `Q` is no farther from `n` than `M` and than 0 are, then
with the sign of `n` it is no farther than `M` with either sign, and a tie of those is a tie of the
magnitudes. -/
theorem signed_nearest_of_magnitudes (s : Bool) (n Q M : Nat) (z : Int) (hz : z = M ∨ z = -(M : Int))
    (hM : (Q - (n : Int)).natAbs ≤ (M - (n : Int)).natAbs) (h0 : (Q - (n : Int)).natAbs ≤ n) :
    let v : Int := if s then -(n : Int) else n
    let r : Int := if s then -(Q : Int) else Q
    (r - v).natAbs ≤ (z - v).natAbs ∧
    ((r - v).natAbs = (z - v).natAbs → z ≠ r →
      (Q - (n : Int)).natAbs = (M - (n : Int)).natAbs ∧ M ≠ Q) := by
  cases s
  case false =>
    simp only [Bool.false_eq_true, if_false]
    omega
  case true =>
    simp only [if_true]
    omega

theorem f64Units_of_mag_eq {z : Binary64} {m j : Nat} (h : f64Mag z = m * 2 ^ j) (e : Nat) :
    f64Units z * 2 ^ e = (m * 2 ^ (j + e) : Nat) ∨
      f64Units z * 2 ^ e = -((m * 2 ^ (j + e) : Nat) : Int) := by
  have hpow : ((m * 2 ^ (j + e) : Nat) : Int) = f64Mag z * 2 ^ e := by
    rw [h, pow_add]
    push_cast
    ring
  rw [hpow, ← neg_mul, f64Units]
  cases f64Sign z <;> simp

/-- Rounding with either sign is correct. -/
theorem f64Round_correctlyRounded (s : Bool) (n e : Nat) :
    CorrectlyRounded (f64Round s n e) (if s then -(n : Int) else n) e := by
  refine ⟨?_, fun hf z hz => ?_⟩
  · rw [f64Round_finite_iff]
    cases s <;> simp
  · obtain ⟨m, j, hm, hm53, -⟩ := f64Mag_significand z hz
    obtain ⟨hM, htie⟩ := roundHalfEven_nearest_significand n e m j hm53
    obtain ⟨h0, -⟩ := roundHalfEven_nearest n (max e (n.log2 - 52)) 0
    obtain ⟨hle, heven⟩ := signed_nearest_of_magnitudes s n _ _ _ (f64Units_of_mag_eq hm e) hM
      (by simpa using h0)
    rw [f64Round_units s n e hf]
    refine ⟨hle, fun heq hne => ?_⟩
    have hne' : f64Units z * 2 ^ e ≠ f64Units (f64Round s n e) * 2 ^ e :=
      fun h => hne (mul_right_cancel₀ (by positivity) h)
    rw [f64Round_units s n e hf] at hne'
    obtain ⟨htie', hMQ⟩ := heven heq hne'
    exact f64Round_lowBit s n e (htie htie' hMQ)

/-! ### The three operations on finite operands -/

theorem f64IsNaN_of_finite {x : Binary64} (hx : f64IsFinite x = true) : f64IsNaN x = false := by
  rw [f64IsFinite, bne_iff_ne] at hx
  simp [f64IsNaN, hx]

theorem f64IsInf_of_finite {x : Binary64} (hx : f64IsFinite x = true) : f64IsInf x = false := by
  rw [f64IsFinite, bne_iff_ne] at hx
  simp [f64IsInf, hx]

/-- The sum of two finite values is the exact sum rounded once; a zero sum too, whatever its sign. -/
theorem f64Sum_correctlyRounded (op : FloatOp) (a b : Binary64) {x y : Binary64}
    (hx : f64IsFinite x = true) (hy : f64IsFinite y = true) :
    CorrectlyRounded (f64Sum op a b x y) (f64Units x + f64Units y) 0 := by
  simp only [f64Sum, f64IsInf_of_finite hx, f64IsInf_of_finite hy, Bool.false_eq_true, if_false]
  generalize f64Units x + f64Units y = v
  split
  case isTrue h =>
    have hzero := f64Round_correctlyRounded (f64Sign x && f64Sign y) 0 0
    have hpack : ∀ s, f64Round s 0 0 = f64Pack s 0 := by decide
    rw [hpack] at hzero
    simpa [h] using hzero
  case isFalse =>
    have hv : (if decide (v < 0) then -(v.natAbs : Int) else v.natAbs) = v := by
      simp only [decide_eq_true_eq]
      omega
    have hr := f64Round_correctlyRounded (decide (v < 0)) v.natAbs 0
    rwa [hv] at hr

theorem fadd_correctlyRounded {x y : Binary64} (hx : f64IsFinite x = true) (hy : f64IsFinite y = true) :
    CorrectlyRounded (fadd x y) (f64Units x + f64Units y) 0 := by
  rw [fadd, f64IsNaN_of_finite hx, f64IsNaN_of_finite hy, if_neg (by decide)]
  exact f64Sum_correctlyRounded .add x y hx hy

theorem fsub_correctlyRounded {x y : Binary64} (hx : f64IsFinite x = true) (hy : f64IsFinite y = true) :
    CorrectlyRounded (fsub x y) (f64Units x - f64Units y) 0 := by
  obtain ⟨hneg, hunits⟩ := f64Neg_units y hy
  rw [fsub, f64IsNaN_of_finite hx, f64IsNaN_of_finite hy, if_neg (by decide), sub_eq_add_neg,
    ← hunits]
  exact f64Sum_correctlyRounded .sub x y hx hneg

/-- The product of two units of 2^-1074 counts units of 2^-2148. -/
theorem fmul_correctlyRounded {x y : Binary64} (hx : f64IsFinite x = true) (hy : f64IsFinite y = true) :
    CorrectlyRounded (fmul x y) (f64Units x * f64Units y) 1074 := by
  have hv : f64Units x * f64Units y = if f64Sign x != f64Sign y then -((f64Mag x * f64Mag y : Nat) : Int)
      else (f64Mag x * f64Mag y : Nat) := by
    unfold f64Units
    cases f64Sign x <;> cases f64Sign y <;> simp
  simp only [fmul, f64IsNaN_of_finite hx, f64IsNaN_of_finite hy, f64IsInf_of_finite hx,
    f64IsInf_of_finite hy, Bool.or_self, Bool.false_eq_true, if_false]
  exact hv ▸ f64Round_correctlyRounded (f64Sign x != f64Sign y) (f64Mag x * f64Mag y) 1074

/-- Settles O18: the exact sum or difference is an integer count of units of 2^-1074, rounded once. -/
theorem additionIsCorrectlyRounded : Obligations.AdditionIsCorrectlyRounded := by
  intro x y hx hy r v h
  have hr : CorrectlyRounded r v 0 := by
    rcases h with ⟨rfl, rfl⟩ | ⟨rfl, rfl⟩
    · exact fadd_correctlyRounded hx hy
    · exact fsub_correctlyRounded hx hy
  simpa only [CorrectlyRounded, pow_zero, mul_one, Nat.add_zero] using hr

/-- Settles O19: the exact product is an integer count of units of 2^-2148, rounded once. -/
theorem multiplicationIsCorrectlyRounded : Obligations.MultiplicationIsCorrectlyRounded :=
  fun _ _ hx hy => fmul_correctlyRounded hx hy

end Sys2Proof.Machine
end

section
/-! PROOFS. The launch parameters: which launches are legal and what becomes of the others, and the
amplitudes and lengths the parameters select (00_scope.md R8, R10, R11). -/

namespace Sys2Proof.Machine

/-! ### Legal launches -/

theorem step_command_of_illegal_launch (s : State) (w : CmdWord) (rest : List HostMove)
    (hq : s.hostQ = .command w :: rest) (hl : launchLegal s = false) :
    step s = .refused .illegalConfiguration := by
  have hl' : launchLegal { s with hostQ := rest } = false := hl
  simp only [step, hq, hostMove, presentCommand, hl', Bool.false_eq_true, if_false]

theorem mem_legalRates_iff (r : Word32) :
    r ∈ legalRates ↔ r.toNat ∈ [48000, 44100, 22050, 11025, 8000] := by
  simp [legalRates, BitVec.toNat_eq]

theorem gain_ne_zero_iff (g : BitVec 3) : g ≠ 0#3 ↔ 1 ≤ g.toNat ∧ g.toNat ≤ 7 := by
  revert g
  decide

theorem launchLegal_iff (s : State) : launchLegal s = true ↔
    s.cfgSrate.toNat ∈ [48000, 44100, 22050, 11025, 8000] ∧
      1 ≤ s.cfgGain.toNat ∧ s.cfgGain.toNat ≤ 7 := by
  rw [launchLegal, Bool.and_eq_true, List.contains_iff_mem, bne_iff_ne, mem_legalRates_iff,
    gain_ne_zero_iff]

/-- Settles O5: the launch is checked before the word is decoded, so every word is refused. -/
theorem illegalLaunchIsRefused : Obligations.IllegalLaunchIsRefused :=
  ⟨launchLegal_iff, step_command_of_illegal_launch⟩

/-! ### Amplitudes and lengths -/

/-- Settles O22: `GAIN_MULT` is 15; the members of the list are those of the seven legal gains. -/
theorem gainAmplitudeIsFifteenfold : Obligations.GainAmplitudeIsFifteenfold := by
  refine ⟨fun g => ⟨Nat.cast_mul _ _, ?_⟩, rfl, fun _ => rfl⟩
  revert g
  decide

theorem nsil_eq (r : Word32) : nsil r = 15000 * r.toNat / 2216750 := rfl

theorem period_false_eq (r : Word32) : period r false = (2 * r.toNat + 1150) / 2300 := rfl

theorem period_true_eq (r : Word32) : period r true = (2 * r.toNat + 2300) / 4600 := rfl

/-- Settles O23: each length is one division by a constant, whose remainder doubles with the rate to less
than two divisors. -/
theorem periodsAndGapsOfTheLegalRates : Obligations.PeriodsAndGapsOfTheLegalRates := by
  refine ⟨by decide, fun r q hq => ⟨?_, fun b => ?_⟩⟩
  · rw [nsil_eq, nsil_eq]
    omega
  · cases b
    case false =>
      rw [period_false_eq, period_false_eq]
      omega
    case true =>
      rw [period_true_eq, period_true_eq]
      omega

end Sys2Proof.Machine
end

section
/-! PROOFS. What the commands of a session keep, whatever fails: one set of premises on the atomic updates,
and what follows from it for every command that produces samples and for ENCODE. -/

namespace Sys2Proof.Machine

/-- Every update that FILTER, BIT, BYTE, GAP, LEADER and PAYLOAD are made of keeps `Q`, and a raise inside
them leaves a state with `E`. -/
structure SamplingKeeps (Q E : State → Prop) : Prop where
  sample : ∀ l s, Q s → (sample l s).Ends Q E
  toggle : ∀ s, Q s → Q (toggleLvl s)
  rewind : ∀ s, Q s → Q { s with ipos := 0#32 }
  read : ∀ s, Q s → s.ipos.toNat < s.inLen.toNat → Q (advanced s)
  readFails : ∀ s, Q s → ∀ l, E { s with srcFails := l, fault := true, fcause := .inputStreamFailure }

namespace SamplingKeeps

variable {Q E : State → Prop} {s : State}

theorem runByte_ends (k : SamplingKeeps Q E) (v : Byte) (s : State) (h : Q s) : (runByte v s).Ends Q E :=
  Machine.runByte_ends k.sample k.toggle v s h

theorem runGap_ends (k : SamplingKeeps Q E) (h : Q s) : (runGap s).Ends Q E :=
  repeatRun_ends (k.sample 0) _ s h

theorem runLeader_ends (k : SamplingKeeps Q E) (h : Q s) : (runLeader s).Ends Q E :=
  repeatRun_ends (k.runByte_ends leaderByte) _ s h

theorem runPayload_ends (k : SamplingKeeps Q E) (h : Q s) : (runPayload s).Ends Q E :=
  payloadLoop_ends k.runByte_ends k.read k.readFails _ _ (k.rewind s h)

/-- The commands legal in a session other than CLOSE (30_encoding.md R85). -/
theorem runOf_ends (k : SamplingKeeps Q E) (i : Instr) (hi : legalIn i .opened = true)
    (hc : i ≠ .closeSink) (h : Q s) : (runOf i s).Ends Q E := by
  cases i with
  | init | inspect | openSink | encode => exact absurd hi (by decide)
  | closeSink => exact absurd rfl hc
  | filter arg => exact k.sample _ s h
  | bit arg => exact Machine.runBit_ends k.sample k.toggle _ s h
  | byte v => exact k.runByte_ends v s h
  | gap => exact k.runGap_ends h
  | leader => exact k.runLeader_ends h
  | payload => exact k.runPayload_ends h

/-- ENCODE is a session between INIT, OPEN and CLOSE (43_framing.md R158). -/
theorem runEncode_ends (k : SamplingKeeps Q E) {R : State → Prop}
    (hopen : ((runInit s).andThen runOpen).Ends Q E) (hclose : ∀ t, Q t → (runClose t).Ends R E) :
    (runEncode s).Ends R E :=
  ((((hopen.andThen fun _ => k.runGap_ends).andThen fun _ => k.runLeader_ends).andThen
    fun _ => k.runPayload_ends).andThen fun _ => k.runGap_ends).andThen hclose

end SamplingKeeps

end Sys2Proof.Machine
end

section
/-! PROOFS. The state invariant: what of it holds inside a command, that every command and every move of
the host keeps it, and that RESET establishes it together with the other two invariants (10_state.md R26,
R27, R30, R36, R40, 40_inspector.md R114, 44_container.md R171, R175). -/

namespace Sys2Proof.Machine

/-! ### The invariant inside a command -/

/-- The part of `StateInv` that holds at every moment of an accepted command: `POS` may be between 0 and 44
in `IDLE` while OPEN writes the header. -/
structure RunningInv (s : State) : Prop where
  started : s.started = true
  fault_free : s.fault = false
  no_cause : s.fcause = .none
  out_addresses : s.out.map Prod.fst = List.range s.pos.toNat
  image_canonical : s.img.wf
  pos_in_sink : s.pos.toNat ≤ s.sinkCap.size
  ipos_in_image : s.ipos.toNat ≤ s.inLen.toNat
  open_has_header : s.sess ≠ .idle → 44 ≤ s.pos.toNat
  header_size : s.hdrSize ≠ 0#32 ↔ s.hdrStat = .found
  header_bounds : s.hdrStat = .found → 34 ≤ s.hdrSize.toNat ∧ s.hdrSize.toNat ≤ s.inLen.toNat

variable {s t : State}

theorem StateInv.running (h : StateInv s) (hs : s.started = true) (hf : s.fault = false) : RunningInv s :=
  { h with
    started := hs
    fault_free := hf
    no_cause := by simpa [hf] using h.fault_cause }

namespace RunningInv

theorem stateInv (h : RunningInv s) (hi : s.sess = .idle → s.pos = 0#32) : StateInv s :=
  { h with
    fault_cause := by simp [h.fault_free, h.no_cause]
    idle_empty := fun hs _ => hi hs
    not_started := by simp [h.started] }

/-- A raise ends the command with the invariant, wherever it happens and whatever the environment has
answered. -/
theorem raised (h : RunningInv s) (src snk : List Bool) {c : Cause} (hc : c ≠ .none) :
    StateInv { s with srcFails := src, snkFails := snk, fault := true, fcause := c } :=
  { h with
    fault_cause := by simp [hc]
    idle_empty := by simp
    not_started := by simp [h.started] }

theorem appended (h : RunningInv s) (hr : s.pos.toNat < s.sinkCap.size) (b : Byte) :
    RunningInv (appended b s) := by
  have hp := pos_succ s hr
  exact { h with
    out_addresses := by
      simpa only [Machine.appended, hp] using Memory.addresses_write_next _ _ b h.out_addresses
    pos_in_sink := hp.trans_le hr
    open_has_header := fun hs => (h.open_has_header hs).trans (hp ▸ Nat.le_succ _) }

theorem filtered (h : RunningInv s) (l : Int) : RunningInv (filtered l s) := { h with }

theorem advanced (h : RunningInv s) (hr : s.ipos.toNat < s.inLen.toNat) : RunningInv (advanced s) :=
  { h with ipos_in_image := (ipos_succ s hr).trans_le hr }

theorem rewound (h : RunningInv s) : RunningInv { s with ipos := 0#32 } :=
  { h with ipos_in_image := Nat.zero_le _ }

theorem patched (h : RunningInv s) (a : Nat) (v : List Byte) (hv : a + v.length ≤ s.pos.toNat)
    (l : List Bool) : RunningInv { s with out := s.out.writeBytes a v, snkFails := l } :=
  { h with out_addresses := Memory.addresses_writeBytes_below v _ a _ h.out_addresses hv }

theorem header (h : RunningInv s) {st : HdrStat} {n : Word32} (hn : n ≠ 0#32 ↔ st = .found)
    (hb : st = .found → 34 ≤ n.toNat ∧ n.toNat ≤ s.inLen.toNat) :
    RunningInv { s with hdrStat := st, hdrSize := n } :=
  { h with
    header_size := hn
    header_bounds := hb }

end RunningInv

/-! ### Where a command starts and ends -/

/-- Fault-free `IDLE`: the sink is empty. -/
structure IdleInv (s : State) : Prop where
  running : RunningInv s
  idle : s.sess = .idle
  empty : s.pos = 0#32

/-- A session: at least the header is in the sink, whether or not it is closed. -/
structure SessionInv (s : State) : Prop where
  running : RunningInv s
  not_idle : s.sess ≠ .idle

theorem IdleInv.stateInv (h : IdleInv s) : StateInv s := h.running.stateInv fun _ => h.empty

theorem SessionInv.stateInv (h : SessionInv s) : StateInv s :=
  h.running.stateInv fun hs => absurd hs h.not_idle

/-! ### INSPECT -/

/-- An inspection that has read at least `n` bytes. -/
structure InspectInv (n : Nat) (s : State) : Prop extends IdleInv s where
  read : n ≤ s.ipos.toNat

theorem InspectInv.mono {m n : Nat} (h : InspectInv n s) (hmn : m ≤ n) : InspectInv m s :=
  { h with read := hmn.trans h.read }

/-- One read of an inspection: at the end of the image nothing changes, a byte counts. -/
theorem readIn_inspectInv {n : Nat} (h : InspectInv n s) :
    readIn s = .eof s ∨ (∃ t, readIn s = .raised t ∧ StateInv t) ∨
      ∃ v t, readIn s = .byte v t ∧ InspectInv (n + 1) t := by
  rcases readIn_cases s with ⟨_, hr⟩ | ⟨_, _, hr⟩ | ⟨hlt, _, hr⟩
  · exact .inl hr
  · exact .inr (.inl ⟨_, hr, h.running.raised _ _ (by decide)⟩)
  · exact .inr (.inr ⟨_, _, hr, { h with
      running := h.running.advanced hlt
      read := (Nat.succ_le_succ h.read).trans_eq (ipos_succ s hlt).symm }⟩)

/-- Every outcome of the inspection but `FOUND` leaves `HDR_SIZE = 0` (40_inspector.md R114). -/
theorem setHeader_zero_ends {st : HdrStat} (hst : st ≠ .found) (h : IdleInv s) :
    (setHeader st 0#32 s).Ends IdleInv StateInv :=
  { h with running := h.running.header (by simp [hst]) fun he => absurd he hst }

/-- The first loop answers true only after it has read a byte for each byte of the signature. -/
theorem matchSig_ends (cs : List Byte) : ∀ (ok : Bool) (n : Nat) (s : State), InspectInv n s →
    (matchSig cs ok s).2.Ends
      (fun t => IdleInv t ∧ ((matchSig cs ok s).1 = true → InspectInv (n + cs.length) t)) StateInv := by
  induction cs with
  | nil => exact fun ok n s h => ⟨h.toIdleInv, fun _ => h⟩
  | cons c cs ih =>
    intro ok n s h
    rcases readIn_inspectInv h with hr | ⟨t, hr, ht⟩ | ⟨v, t, hr, ht⟩ <;> simp only [matchSig, hr]
    · exact ⟨h.toIdleInv, by simp⟩
    · exact ht
    · simpa only [List.length_cons, Nat.add_assoc, Nat.add_comm 1] using ih (ok && v == c) (n + 1) t ht

/-- `HDR_SIZE` is set to a position behind the signature, a zero byte and the marker, so it is at
least 34. -/
theorem checkMarker_ends (h : InspectInv 33 s) : (checkMarker s).Ends IdleInv StateInv := by
  rcases readIn_inspectInv h with hr | ⟨t, hr, ht⟩ | ⟨m, t, hr, ht⟩ <;> simp only [checkMarker, hr]
  · exact setHeader_zero_ends (by decide) h.toIdleInv
  · exact ht
  · have h34 := ht.read
    split
    · have hne : t.ipos ≠ 0#32 := fun he => by simp [he] at h34
      exact { ht with
        running := ht.running.header (by simp [hne]) fun _ => ⟨h34, ht.running.ipos_in_image⟩ }
    · exact setHeader_zero_ends (by decide) ht.toIdleInv

theorem scanZero_ends (n : Nat) : ∀ s, InspectInv 32 s → (scanZero n s).Ends IdleInv StateInv := by
  induction n with
  | zero => exact fun s h => setHeader_zero_ends (by decide) h.toIdleInv
  | succ n ih =>
    intro s h
    rcases readIn_inspectInv h with hr | ⟨t, hr, ht⟩ | ⟨v, t, hr, ht⟩ <;> simp only [scanZero, hr]
    · exact setHeader_zero_ends (by decide) h.toIdleInv
    · exact ht
    · split
      · exact checkMarker_ends ht
      · exact ih t (ht.mono (by decide))

theorem runInspect_idleInv (h : IdleInv s) : (runInspect s).Ends IdleInv StateInv := by
  have h0 : InspectInv 0 { s with ipos := 0#32 } :=
    { h with
      running := h.running.rewound
      read := Nat.zero_le _ }
  refine (matchSig_ends sig true 0 _ h0).andThen fun t ⟨hidle, hmatch⟩ => ?_
  split
  next hok => exact scanZero_ends _ t (hmatch hok)
  next => exact setHeader_zero_ends (by decide) hidle

/-! ### The commands of a session -/

theorem forEachRun_append_ends (bs : List Byte) : ∀ s, RunningInv s →
    (forEachRun bs append s).Ends
      (fun t => RunningInv t ∧ t.pos.toNat = s.pos.toNat + bs.length) StateInv := by
  induction bs with
  | nil => exact fun s h => ⟨h, rfl⟩
  | cons b bs ih =>
    intro s h
    refine (append_ends_room (Q := fun t => RunningInv t ∧ t.pos.toNat = s.pos.toNat + 1) b s
      (fun hr => ⟨h.appended hr b, pos_succ s hr⟩)
      (fun l => h.raised s.srcFails l (by decide))).andThen fun t ⟨ht, hpos⟩ => ?_
    refine (ih t ht).mono (fun u ⟨hu, hlen⟩ => ⟨hu, ?_⟩) fun _ hu => hu
    rw [hlen, hpos, List.length_cons, Nat.add_assoc, Nat.add_comm 1]

/-- OPEN enters the session with the 44 bytes of the header in the sink (44_container.md R171). -/
theorem runOpen_sessionInv (h : IdleInv s) : (runOpen s).Ends SessionInv StateInv := by
  refine (forEachRun_append_ends _ s h.running).andThen fun t ⟨ht, hpos⟩ => ?_
  rw [containerHeader_length] at hpos
  exact {
    running := { ht with open_has_header := fun _ => hpos ▸ Nat.le_add_left _ _ }
    not_idle := by simp }

theorem samplingKeeps_sessionInv : SamplingKeeps SessionInv StateInv where
  sample l s h := sample_ends l s
    (fun b hr => { h with running := (h.running.filtered l).appended hr b })
    (fun x => (h.running.filtered l).raised s.srcFails x (by decide))
  toggle s h := { h with running := { h.running with } }
  rewind s h := { h with running := h.running.rewound }
  read s h hr := { h with running := h.running.advanced hr }
  readFails s h l := h.running.raised l s.snkFails (by decide)

/-- A patch inside the header keeps the session (44_container.md R175). -/
theorem patch_sessionInv (a : Nat) (v : List Byte) (hv : a + v.length ≤ 44) (h : SessionInv s) :
    (patch a v s).Ends SessionInv StateInv :=
  patch_ends a v s
    { h with
      running := h.running.patched a v (hv.trans (h.running.open_has_header h.not_idle)) _ }
    fun l => h.running.raised s.srcFails l (by decide)

theorem runClose_sessionInv (h : SessionInv s) : (runClose s).Ends SessionInv StateInv :=
  (patch_sessionInv 4 _ (by simp [le32]) h).andThen fun t ht =>
    (patch_sessionInv 40 _ (by simp [le32]) ht).andThen fun u hu =>
      { running := { hu.running with open_has_header := fun _ => hu.running.open_has_header hu.not_idle }
        not_idle := by simp }

/-! ### Every command -/

theorem runInit_idleInv (h : IdleInv s) : (runInit s).Ends IdleInv StateInv :=
  { h with running := { h.running with } }

theorem runEncode_sessionInv (h : IdleInv s) : (runEncode s).Ends SessionInv StateInv :=
  samplingKeeps_sessionInv.runEncode_ends
    ((runInit_idleInv h).andThen fun _ => runOpen_sessionInv) fun _ => runClose_sessionInv

theorem Run.Ends.stateInv {Q : State → Prop} {r : Run} (h : r.Ends Q StateInv)
    (hQ : ∀ t, Q t → StateInv t) : StateInv r.state :=
  (h.mono hQ fun _ ht => ht).state

theorem runOf_idle_stateInv (i : Instr) (hi : legalIn i .idle = true) (h : IdleInv s) :
    StateInv (runOf i s).state := by
  cases i with
  | init => exact (runInit_idleInv h).stateInv fun _ => IdleInv.stateInv
  | inspect => exact (runInspect_idleInv h).stateInv fun _ => IdleInv.stateInv
  | openSink => exact (runOpen_sessionInv h).stateInv fun _ => SessionInv.stateInv
  | encode => exact (runEncode_sessionInv h).stateInv fun _ => SessionInv.stateInv
  | filter | bit | byte | gap | leader | payload | closeSink => exact absurd hi Bool.false_ne_true

theorem runOf_session_stateInv (i : Instr) (hi : legalIn i .opened = true) (h : SessionInv s) :
    StateInv (runOf i s).state := by
  by_cases hc : i = .closeSink
  · subst hc
    exact (runClose_sessionInv h).stateInv fun _ => SessionInv.stateInv
  · exact (samplingKeeps_sessionInv.runOf_ends i hi hc h).stateInv fun _ => SessionInv.stateInv

theorem not_legalIn_closed (i : Instr) : legalIn i .closed = false := by
  cases i <;> rfl

/-- A raise in a running launch keeps the invariant. -/
theorem StateInv.raised (h : StateInv s) (hs : s.started = true) (hf : s.fault = false) {c : Cause}
    (hc : c ≠ .none) : StateInv { s with fault := true, fcause := c } :=
  (h.running hs hf).raised s.srcFails s.snkFails hc

theorem accept_stateInv (i : Instr) (h : StateInv s) (hs : s.started = true) :
    StateInv (accept i (runOf i) s) := by
  rcases accept_cases i (runOf i) s with ⟨_, he⟩ | ⟨hf, c, hc, he⟩ | ⟨hf, _, hl, _, _, he⟩ <;> rw [he]
  · exact h
  · exact h.raised hs hf hc
  · have hrun := h.running hs hf
    cases hsess : s.sess with
    | idle => exact runOf_idle_stateInv i (hsess ▸ hl) ⟨hrun, hsess, h.idle_empty hsess hf⟩
    | opened => exact runOf_session_stateInv i (hsess ▸ hl) ⟨hrun, by simp [hsess]⟩
    | closed => simp [hsess, not_legalIn_closed] at hl

theorem rejectWord_stateInv (h : StateInv s) (hs : s.started = true) : StateInv (rejectWord s) := by
  unfold rejectWord
  split
  next => exact h
  next hf => exact h.raised hs (by simpa using hf) (by decide)

/-! ### RESET -/

theorem resetEvent_stateInv (s : State) : StateInv (resetEvent s) where
  fault_cause := by simp [State.reset]
  out_addresses := rfl
  image_canonical := reset_memories_wf.1
  pos_in_sink := Nat.zero_le _
  ipos_in_image := Nat.zero_le _
  idle_empty _ _ := rfl
  open_has_header hs := absurd rfl hs
  header_size := by simp [State.reset]
  header_bounds hs := absurd hs (by simp [State.reset])
  not_started _ := ⟨rfl, rfl, rfl, rfl, rfl, rfl, rfl⟩

theorem f64Between_zero (g : BitVec 3) : f64Between 0 (gainAmp g) 0#64 := by
  have hz : f64Units 0#64 = 0 := by decide
  have hg : (0 : Int) ≤ gainAmp g * 2 ^ 1074 := Int.mul_nonneg (Int.natCast_nonneg _) (by positivity)
  exact ⟨by decide, by rw [hz, Int.zero_mul], hz ▸ hg⟩

/-- Settles O13: the reset state is what RESET makes of itself; it is `IDLE`, and its accumulators are +0. -/
theorem resetMeetsTheInvariants : Obligations.ResetMeetsTheInvariants :=
  ⟨resetEvent_stateInv State.reset,
    { while_open := fun _ hs => absurd hs (by decide)
      when_done := fun hd => absurd hd (by decide) },
    { lp_bounded := f64Between_zero _
      hp_bounded := f64Between_zero _
      not_started := fun _ => ⟨rfl, rfl⟩ }⟩

/-! ### The moves of the host -/

theorem presentCommand_next {w : CmdWord} (h : presentCommand w s = .next t) :
    (∃ i, decode w = .ok i ∧ t = accept i (runOf i) { s with started := true }) ∨
    (∃ e, decode w = .error e ∧ t = rejectWord { s with started := true }) := by
  unfold presentCommand at h
  split at h
  case isFalse => cases h
  case isTrue =>
    cases hd : decode w with
    | ok i =>
      simp only [hd, exec_eq, Host.Outcome.next.injEq] at h
      exact .inl ⟨i, rfl, h.symm⟩
    | error e =>
      simp only [hd, Host.Outcome.next.injEq] at h
      exact .inr ⟨e, rfl, h.symm⟩

theorem beforeFirstCommand_next {u : State} (h : beforeFirstCommand s t = .next u) :
    s.started = false ∧ u = t := by
  unfold beforeFirstCommand at h
  split at h
  case isTrue => cases h
  case isFalse hs =>
    cases h
    exact ⟨by simpa using hs, rfl⟩

theorem presentCommand_stateInv {w : CmdWord} (h : StateInv s) (ht : presentCommand w s = .next t) :
    StateInv t := by
  have hs : StateInv { s with started := true } := { h with not_started := by simp }
  rcases presentCommand_next ht with ⟨i, _, rfl⟩ | ⟨_, _, rfl⟩
  · exact accept_stateInv i hs rfl
  · exact rejectWord_stateInv hs rfl

theorem hostMove_stateInv {m : HostMove} (h : StateInv s) (ht : hostMove m s = .next t) :
    StateInv t := by
  cases m with
  | command w => exact presentCommand_stateInv h ht
  | reset =>
    cases ht
    exact resetEvent_stateInv s
  | writeSrate v | writeGain v =>
    obtain ⟨_, rfl⟩ := beforeFirstCommand_next ht
    exact { h with }
  | writeInLen v =>
    obtain ⟨hs, rfl⟩ := beforeFirstCommand_next ht
    obtain ⟨_, _, hipos, hstat, _⟩ := h.not_started hs
    exact { h with
      ipos_in_image := by simp [hipos]
      header_bounds := by simp [hstat] }
  | writeImage a v =>
    obtain ⟨_, rfl⟩ := beforeFirstCommand_next ht
    exact { h with image_canonical := Memory.write_wf _ _ _ h.image_canonical }
  | drivePins src snk =>
    cases ht
    exact { h with }

/-- Settles O14: the host's next move is taken from the queue, which the invariant does not read, and every
move keeps the invariant. -/
theorem stepKeepsTheStateInvariant : Obligations.StepKeepsTheStateInvariant := by
  intro s t h ht
  unfold step at ht
  cases hq : s.hostQ with
  | nil =>
    simp only [hq] at ht
    cases ht
    exact h
  | cons m rest =>
    simp only [hq] at ht
    exact hostMove_stateInv (s := { s with hostQ := rest }) { h with } ht

end Sys2Proof.Machine
end

section
/-! PROOFS. What no command writes (10_state.md R30, R35, R37, 70_reset_and_hazards.md R217). -/

namespace Sys2Proof.Machine

/-- `t` has the configuration, the image, the sink's capacity, the pins, the host's queue and the start
bit of `s`. -/
structure SameLaunch (s t : State) : Prop where
  cfgSrate : t.cfgSrate = s.cfgSrate
  cfgGain : t.cfgGain = s.cfgGain
  img : t.img = s.img
  inLen : t.inLen = s.inLen
  sinkCap : t.sinkCap = s.sinkCap
  srcPresent : t.srcPresent = s.srcPresent
  snkPresent : t.snkPresent = s.snkPresent
  hostQ : t.hostQ = s.hostQ
  started : t.started = s.started

/-- A command begun in `s` has reached `t` without a raise. -/
structure LaunchRunning (s t : State) : Prop extends SameLaunch s t where
  fault : t.fault = s.fault
  fcause : t.fcause = s.fcause

/-- A command begun in `s` has raised in `t`. -/
structure LaunchRaised (s t : State) : Prop extends SameLaunch s t where
  fault : t.fault = true

theorem SameLaunch.refl (s : State) : SameLaunch s s := ⟨rfl, rfl, rfl, rfl, rfl, rfl, rfl, rfl, rfl⟩

theorem LaunchRunning.refl (s : State) : LaunchRunning s s := ⟨SameLaunch.refl s, rfl, rfl⟩

variable {s t : State}

theorem LaunchRunning.raised (h : LaunchRunning s t) (src snk : List Bool) (c : Cause) :
    LaunchRaised s { t with srcFails := src, snkFails := snk, fault := true, fcause := c } :=
  { h with fault := rfl }

theorem samplingKeeps_launch (s : State) : SamplingKeeps (LaunchRunning s) (LaunchRaised s) where
  sample l t h := sample_ends l t (fun _ _ => { h with }) fun _ => { h with fault := rfl }
  toggle _ h := { h with }
  rewind _ h := { h with }
  read _ h _ := { h with }
  readFails t h l := h.raised l t.snkFails _

theorem runInit_launch (h : LaunchRunning s t) : (runInit t).Ends (LaunchRunning s) (LaunchRaised s) :=
  { h with }

theorem runInspect_launch (h : LaunchRunning s t) :
    (runInspect t).Ends (LaunchRunning s) (LaunchRaised s) :=
  runInspect_ends (fun _ _ _ h => { h with }) (fun _ _ _ h => { h with })
    (fun u l h => h.raised l u.snkFails _) t h

theorem append_launch (b : Byte) (t : State) (h : LaunchRunning s t) :
    (append b t).Ends (LaunchRunning s) (LaunchRaised s) :=
  append_ends b t { h with } fun l => h.raised t.srcFails l _

theorem patch_launch (a : Nat) (v : List Byte) (h : LaunchRunning s t) :
    (patch a v t).Ends (LaunchRunning s) (LaunchRaised s) :=
  patch_ends a v t { h with } fun l => h.raised t.srcFails l _

theorem runOpen_launch (h : LaunchRunning s t) : (runOpen t).Ends (LaunchRunning s) (LaunchRaised s) :=
  (forEachRun_ends append_launch _ t h).andThen fun _ h => { h with }

theorem runClose_launch (h : LaunchRunning s t) : (runClose t).Ends (LaunchRunning s) (LaunchRaised s) :=
  (patch_launch 4 _ h).andThen fun _ h => (patch_launch 40 _ h).andThen fun _ h => { h with }

theorem runEncode_launch (h : LaunchRunning s t) : (runEncode t).Ends (LaunchRunning s) (LaunchRaised s) :=
  (samplingKeeps_launch s).runEncode_ends ((runInit_launch h).andThen fun _ => runOpen_launch)
    fun _ => runClose_launch

theorem runOf_launch (i : Instr) (s : State) : (runOf i s).Ends (LaunchRunning s) (LaunchRaised s) := by
  have h := LaunchRunning.refl s
  cases i with
  | init => exact runInit_launch h
  | inspect => exact runInspect_launch h
  | openSink => exact runOpen_launch h
  | closeSink => exact runClose_launch h
  | encode => exact runEncode_launch h
  | filter | bit | byte | gap | leader | payload =>
    exact (samplingKeeps_launch s).runOf_ends _ rfl (by simp) h

/-- What a whole command keeps: the launch, a recorded fault, and its cause unless it raises. -/
structure LaunchFrame (s t : State) : Prop extends SameLaunch s t where
  fault_kept : s.fault = true → t.fault = true
  cause_kept : t.fault = s.fault → t.fcause = s.fcause

theorem LaunchRunning.frame (h : LaunchRunning s t) : LaunchFrame s t :=
  { h with
    fault_kept := h.fault.trans
    cause_kept := fun _ => h.fcause }

/-- A command that passed its checks runs from `FAULT = 0`, so a raise changes `FAULT`. -/
theorem LaunchRaised.frame (h : LaunchRaised s t) (hf : s.fault = false) : LaunchFrame s t :=
  { h with
    fault_kept := fun _ => h.fault
    cause_kept := by simp [h.fault, hf] }

theorem accept_launch (i : Instr) (s : State) : LaunchFrame s (accept i (runOf i) s) := by
  rcases accept_cases i (runOf i) s with ⟨_, he⟩ | ⟨hf, c, _, he⟩ | ⟨hf, _, _, _, _, he⟩ <;> rw [he]
  · exact (LaunchRunning.refl s).frame
  · exact ((LaunchRunning.refl s).raised s.srcFails s.snkFails c).frame hf
  · exact ((runOf_launch i s).mono (fun _ h => h.frame) fun _ h => h.frame hf).state

/-- Settles O51: every command answers with what acceptance and its rule leave. -/
theorem noCommandWritesTheLaunch : Obligations.NoCommandWritesTheLaunch := fun i s =>
  have h := accept_launch i s
  ⟨_, exec_eq i s, h.cfgSrate, h.cfgGain, h.img, h.inLen, h.sinkCap, h.srcPresent, h.snkPresent, h.hostQ,
    h.started, h.fault_kept, h.cause_kept⟩

end Sys2Proof.Machine
end

section
/-! PROOFS. The reset table and the register map (10_state.md R34, R40, 70_reset_and_hazards.md R210,
93_implementation_defined.md U10). -/

namespace Sys2Proof.Machine

/-! ### RESET -/

theorem step_reset (s : State) (rest : List HostMove) (hq : s.hostQ = .reset :: rest) :
    step s = .next (resetEvent { s with hostQ := rest }) := by
  simp only [step, hq, hostMove]

/-- Settles O7: each field of `resetEvent` is that of `State.reset` or kept. -/
theorem resetEstablishesTheResetTable : Obligations.ResetEstablishesTheResetTable :=
  fun s rest hq => ⟨_, step_reset s rest hq, rfl, rfl, rfl, rfl, rfl, rfl, rfl, rfl, rfl, rfl, rfl, rfl, rfl,
    Memory.read_nil, Memory.read_nil, rfl, rfl, rfl, rfl, rfl, rfl, rfl⟩

/-! ### `STATUS` -/

/-- The four fields of a byte packed as `STATUS` is. -/
theorem packed_fields (h : BitVec 2) (c : BitVec 3) (f : Bool) (e : BitVec 2) :
    let b : Byte := h ++ (c ++ (BitVec.ofBool f ++ e))
    b.extractLsb' 0 2 = e ∧ b.getLsbD 2 = f ∧ b.extractLsb' 3 3 = c ∧ b.extractLsb' 6 2 = h := by
  revert h c f e
  decide

theorem statusByte_fields (s : State) :
    (statusByte s).extractLsb' 0 2 = s.sess.code ∧ (statusByte s).getLsbD 2 = s.fault ∧
      (statusByte s).extractLsb' 3 3 = s.fcause.code ∧ (statusByte s).extractLsb' 6 2 = s.hdrStat.code :=
  packed_fields _ _ _ _

@[simp] theorem sessOfCode_code (e : Sess) : sessOfCode e.code = .ok e := by
  cases e <;> rfl

@[simp] theorem causeOfCode_code (c : Cause) : causeOfCode c.code = .ok c := by
  cases c <;> rfl

@[simp] theorem hdrStatOfCode_code (h : HdrStat) : hdrStatOfCode h.code = h := by
  cases h <;> rfl

theorem decodeStatus_statusByte (s : State) :
    decodeStatus (statusByte s) = .ok (s.sess, s.fault, s.fcause, s.hdrStat) := by
  obtain ⟨hsess, hfault, hcause, hstat⟩ := statusByte_fields s
  simp only [decodeStatus, hsess, hfault, hcause, hstat, sessOfCode_code, causeOfCode_code,
    hdrStatOfCode_code]

/-- A code of `SESS` is 3 and refused, or has a value. -/
theorem sessOfCode_cases (c : BitVec 2) :
    (c = 3#2 ∧ sessOfCode c = .error .unreachableStatus) ∨ (c ≠ 3#2 ∧ ∃ e, sessOfCode c = .ok e) := by
  have h : c = 3#2 ∨ c = 0#2 ∨ c = 1#2 ∨ c = 2#2 := by
    revert c
    decide
  rcases h with rfl | rfl | rfl | rfl
  · exact .inl ⟨rfl, rfl⟩
  all_goals exact .inr ⟨by decide, _, rfl⟩

/-- A code of `FCAUSE` is 7 and refused, or has a value. -/
theorem causeOfCode_cases (c : BitVec 3) :
    (c = 7#3 ∧ causeOfCode c = .error .unreachableStatus) ∨ (c ≠ 7#3 ∧ ∃ x, causeOfCode c = .ok x) := by
  have h : c = 7#3 ∨ c = 0#3 ∨ c = 1#3 ∨ c = 2#3 ∨ c = 3#3 ∨ c = 4#3 ∨ c = 5#3 ∨ c = 6#3 := by
    revert c
    decide
  rcases h with rfl | rfl | rfl | rfl | rfl | rfl | rfl | rfl
  · exact .inl ⟨rfl, rfl⟩
  all_goals exact .inr ⟨by decide, _, rfl⟩

theorem decodeStatus_refuses_iff (b : Byte) : decodeStatus b = .error .unreachableStatus ↔
    b.extractLsb' 0 2 = 3#2 ∨ b.extractLsb' 3 3 = 7#3 := by
  rw [decodeStatus]
  rcases sessOfCode_cases (b.extractLsb' 0 2) with ⟨hc, hs⟩ | ⟨hne, e, hs⟩ <;> rw [hs]
  · simp [hc]
  · rcases causeOfCode_cases (b.extractLsb' 3 3) with ⟨hc, hs⟩ | ⟨hnc, c, hs⟩ <;> rw [hs]
    · simp [hc]
    · simp [hne, hnc]

/-! ### The register map -/

theorem hostReadReg_lvl (s : State) : hostReadReg 8 s = .ok (if s.lvl then 1#32 else 0#32) := by
  cases h : s.lvl <;> simp [hostReadReg, h]

theorem hostReadReg_above (n : Nat) (hn : 8 < n) (s : State) :
    hostReadReg n s = .error .noReadableRegister := by
  obtain ⟨k, rfl⟩ := Nat.exists_eq_add_of_le' hn
  rfl

/-- Settles O8: the fields of `STATUS` are those of the packed byte, and a byte is refused exactly when the
code of its `SESS` or its `FCAUSE` is no value's. -/
theorem registerMapReadsTheState : Obligations.RegisterMapReadsTheState := by
  refine ⟨fun s => ?_, decodeStatus_refuses_iff⟩
  obtain ⟨hsess, hfault, hcause, hstat⟩ := statusByte_fields s
  exact ⟨hsess, hfault, hcause, hstat, decodeStatus_statusByte s, rfl, rfl, rfl, rfl, rfl, rfl, rfl, rfl,
    hostReadReg_lvl s, fun n hn => hostReadReg_above n hn s⟩

end Sys2Proof.Machine
end

section
/-! PROOFS. The sink as a byte string: what the host reads of it, and the header at its start
(20_memory.md R54, R65, R66, 10_state.md R36, R39, 44_container.md R171, R175, R176). -/

namespace Sys2Proof.Machine

variable {s : State} {xs ys : List Byte}

/-! ### The bytes in the sink -/

/-- `OUT` holds exactly the bytes `xs`, from address 0 to `POS`. -/
def SinkHolds (xs : List Byte) (s : State) : Prop :=
  s.out = memoryOf xs ∧ s.pos.toNat = xs.length

/-- A memory that lists the addresses below a bound is that of its bytes. -/
theorem memoryOf_map_snd (m : Memory) {n : Nat} (h : m.map Prod.fst = List.range n) :
    m = memoryOf (m.map Prod.snd) := by
  have hn : m.length = n := by simpa using congrArg List.length h
  rw [memoryOf, List.length_map, hn, ← h, List.zip_map', List.map_id']

theorem StateInv.exists_sinkHolds (h : StateInv s) : ∃ xs, SinkHolds xs s :=
  ⟨_, memoryOf_map_snd s.out h.out_addresses, by simpa using (congrArg List.length h.out_addresses).symm⟩

theorem SinkHolds.read (h : SinkHolds xs s) (a : Nat) : s.out.read a = xs[a]? := by
  rw [h.1, memoryOf_read]

theorem SinkHolds.appended (h : SinkHolds xs s) (hr : s.pos.toNat < s.sinkCap.size) (b : Byte) :
    SinkHolds (xs ++ [b]) (appended b s) := by
  obtain ⟨hout, hpos⟩ := h
  constructor
  · simp only [Machine.appended, hpos, hout, memoryOf_append, Memory.writeBytes]
  · rw [List.length_append, ← hpos]
    exact pos_succ s hr

theorem SinkHolds.outPrefix (h : SinkHolds (xs ++ ys) s) : outPrefix xs.length s = xs.map some := by
  refine List.ext_getElem (by simp [Machine.outPrefix]) fun i hi _ => ?_
  have hlt : i < xs.length := by simpa [Machine.outPrefix] using hi
  have hget : (xs ++ ys)[i]? = some xs[i] := by
    rw [List.getElem?_append_left hlt, List.getElem?_eq_getElem hlt]
  simpa [Machine.outPrefix, h.read] using hget

/-! ### Reading the result -/

theorem hostReadOut_of_read {a : Nat} {b : Byte} (hd : s.done = true) (ha : a < s.pos.toNat)
    (hb : s.out.read a = some b) : hostReadOut a s = .ok b := by
  rw [hostReadOut, if_pos ⟨hd, ha⟩, hb]

theorem hostReadOut_refused {a : Nat} (h : s.done = false ∨ s.pos.toNat ≤ a) :
    hostReadOut a s = .error .sinkNotReadable := by
  refine if_neg fun ⟨hd, ha⟩ => ?_
  rcases h with h | h
  · exact absurd hd (by simp [h])
  · exact absurd ha (Nat.not_lt.2 h)

/-- Settles O9: the sink holds a byte string of length `POS`. -/
theorem resultIsReadableExactlyWhenDone : Obligations.ResultIsReadableExactlyWhenDone := by
  refine ⟨fun s a h hd ha => ?_, fun s a h => hostReadOut_refused h⟩
  obtain ⟨xs, hxs⟩ := h.exists_sinkHolds
  have hlt : a < xs.length := hxs.2 ▸ ha
  have hb : s.out.read a = some xs[a] := by rw [hxs.read, List.getElem?_eq_getElem hlt]
  exact ⟨_, hb, hostReadOut_of_read hd ha hb⟩

/-! ### The header in the sink -/

/-- The sink starts with the header of the given length fields. -/
def HeaderInSink (totalLength dataLength : Word32) (s : State) : Prop :=
  ∃ body, SinkHolds (containerHeader totalLength dataLength s.cfgSrate ++ body) s

theorem HeaderInSink.outPrefix {tl dl : Word32} (h : HeaderInSink tl dl s) :
    outPrefix 44 s = (containerHeader tl dl s.cfgSrate).map some := by
  obtain ⟨body, hb⟩ := h
  simpa only [containerHeader_length] using hb.outPrefix

/-- In a sink of at least 44 bytes, what its first 44 addresses read is what it starts with. -/
theorem headerInSink_of_outPrefix {tl dl : Word32} (h : SinkHolds xs s) (hlen : 44 ≤ xs.length)
    (hp : outPrefix 44 s = (containerHeader tl dl s.cfgSrate).map some) : HeaderInSink tl dl s := by
  have hsplit : SinkHolds (xs.take 44 ++ xs.drop 44) s := (List.take_append_drop 44 xs).symm ▸ h
  have htake : (xs.take 44).map some = (containerHeader tl dl s.cfgSrate).map some := by
    rw [← hsplit.outPrefix, List.length_take_of_le hlen, hp]
  exact ⟨xs.drop 44, List.map_injective_iff.2 (Option.some_injective _) htake ▸ hsplit⟩

end Sys2Proof.Machine
end

section
/-! PROOFS. The header in the sink along a run: it is empty before OPEN, starts with the placeholder header
while `OPEN`, and with the true lengths after CLOSE (20_memory.md R65, 44_container.md R171, R175, R176). -/

namespace Sys2Proof.Machine

variable {s t : State} {xs : List Byte}

/-- A command has raised; nothing is said of the header any more. -/
def Faulted (s : State) : Prop := s.fault = true

/-- The session is open and the sink starts with the placeholder header. -/
structure OpenHeader (s : State) : Prop where
  opened : s.sess = .opened
  header : HeaderInSink placeholder placeholder s

/-- The session is closed and the sink starts with the header of the true lengths. -/
structure ClosedHeader (s : State) : Prop where
  closed : s.sess = .closed
  header : HeaderInSink (totalLength s) (dataLength s) s

/-! ### What each of them says of `ContainerInv` -/

theorem containerInv_of_faulted (h : Faulted s) : ContainerInv s where
  while_open hf := absurd (h.symm.trans hf) (by decide)
  when_done hd := absurd hd (by simp [State.done, show s.fault = true from h])

theorem containerInv_of_idle (h : s.sess = .idle) : ContainerInv s where
  while_open _ hs := absurd (h.symm.trans hs) (by decide)
  when_done hd := absurd hd (by simp [State.done, h])

theorem OpenHeader.containerInv (h : OpenHeader s) : ContainerInv s where
  while_open _ _ := h.header.outPrefix
  when_done hd := absurd hd (by simp [State.done, h.opened])

theorem ClosedHeader.containerInv (h : ClosedHeader s) : ContainerInv s where
  while_open _ hs := absurd (h.closed.symm.trans hs) (by decide)
  when_done _ := h.header.outPrefix

theorem Run.Ends.containerInv {Q : State → Prop} {r : Run} (h : r.Ends Q Faulted)
    (hQ : ∀ t, Q t → ContainerInv t) : ContainerInv r.state :=
  (h.mono hQ fun _ => containerInv_of_faulted).state

/-! ### Where a command starts -/

theorem sinkHolds_nil (h : StateInv s) (hs : s.sess = .idle) (hf : s.fault = false) : SinkHolds [] s := by
  obtain ⟨xs, hxs⟩ := h.exists_sinkHolds
  have hlen : xs.length = 0 := by rw [← hxs.2, h.idle_empty hs hf]; rfl
  exact List.eq_nil_of_length_eq_zero hlen ▸ hxs

theorem ContainerInv.openHeader (hc : ContainerInv s) (h : StateInv s) (hs : s.sess = .opened)
    (hf : s.fault = false) : OpenHeader s := by
  obtain ⟨xs, hxs⟩ := h.exists_sinkHolds
  have hlen : 44 ≤ xs.length := hxs.2 ▸ h.open_has_header (by simp [hs])
  exact ⟨hs, headerInSink_of_outPrefix hxs hlen (hc.while_open hf hs)⟩

/-! ### OPEN, the commands of a session, CLOSE -/

/-- A string of appends that completes leaves its bytes behind those of the sink, and the rate. -/
theorem forEachRun_append_sinkHolds (bs : List Byte) : ∀ xs s, SinkHolds xs s →
    (forEachRun bs append s).Ends (fun t => SinkHolds (xs ++ bs) t ∧ t.cfgSrate = s.cfgSrate) Faulted := by
  induction bs with
  | nil => exact fun xs s h => ⟨(List.append_nil xs).symm ▸ h, rfl⟩
  | cons b bs ih =>
    intro xs s h
    refine (append_ends_room (Q := fun t => SinkHolds (xs ++ [b]) t ∧ t.cfgSrate = s.cfgSrate) b s
      (fun hr => ⟨h.appended hr b, rfl⟩) fun _ => rfl).andThen fun t ⟨ht, hrate⟩ => ?_
    simpa only [List.append_assoc, List.singleton_append, hrate] using ih _ t ht

theorem runOpen_openHeader (h : SinkHolds [] s) : (runOpen s).Ends OpenHeader Faulted := by
  refine (forEachRun_append_sinkHolds _ [] s h).andThen fun t ⟨ht, hrate⟩ => ?_
  have hheader : HeaderInSink placeholder placeholder t :=
    ⟨[], by simpa only [hrate, List.append_nil, List.nil_append] using ht⟩
  exact ⟨rfl, hheader⟩

theorem OpenHeader.appended (h : OpenHeader s) (hr : s.pos.toNat < s.sinkCap.size) (b : Byte) :
    OpenHeader (appended b s) := by
  obtain ⟨hs, body, hb⟩ := h
  refine ⟨hs, body ++ [b], ?_⟩
  rw [← List.append_assoc]
  exact hb.appended hr b

theorem OpenHeader.filtered (h : OpenHeader s) (l : Int) : OpenHeader (filtered l s) := { h with }

theorem samplingKeeps_openHeader : SamplingKeeps OpenHeader Faulted where
  sample l s h := sample_ends l s
    (fun b hr => (h.filtered l).appended hr b) fun _ => rfl
  toggle _ h := { h with }
  rewind _ h := { h with }
  read _ h _ := { h with }
  readFails _ _ _ := rfl

/-- A patch that completes has written its bytes and taken one answer. -/
theorem patch_ends_written (a : Nat) (v : List Byte) (s : State) :
    (patch a v s).Ends (· = { s with out := s.out.writeBytes a v, snkFails := s.snkFails.tail }) Faulted :=
  patch_ends a v s rfl fun _ => rfl

theorem SinkHolds.patched {body : List Byte} {tl dl r : Word32}
    (h : SinkHolds (containerHeader placeholder placeholder r ++ body) s)
    (hout : t.out = (s.out.writeBytes 4 (le32 tl)).writeBytes 40 (le32 dl)) (hpos : t.pos = s.pos) :
    SinkHolds (containerHeader tl dl r ++ body) t := by
  constructor
  · rw [hout, h.1, memoryOf_patched]
  · rw [hpos, h.2]
    simp only [List.length_append, containerHeader_length]

theorem runClose_closedHeader (h : OpenHeader s) : (runClose s).Ends ClosedHeader Faulted := by
  obtain ⟨-, body, hb⟩ := h
  refine (patch_ends_written 4 _ s).andThen fun t ht =>
    (patch_ends_written 40 _ t).andThen fun u hu => ?_
  subst ht hu
  exact ⟨rfl, body, hb.patched rfl rfl⟩

/-! ### Every command -/

theorem runInspect_idle (h : s.sess = .idle) : (runInspect s).Ends (·.sess = .idle) Faulted :=
  runInspect_ends (fun _ _ _ h => h) (fun _ _ _ h => h) (fun _ _ _ => rfl) s h

theorem runInit_sinkHolds (h : SinkHolds xs s) : (runInit s).Ends (SinkHolds xs) Faulted := h

theorem runEncode_closedHeader (h : SinkHolds [] s) : (runEncode s).Ends ClosedHeader Faulted :=
  samplingKeeps_openHeader.runEncode_ends
    ((runInit_sinkHolds h).andThen fun _ => runOpen_openHeader) fun _ => runClose_closedHeader

theorem runOf_idle_containerInv (i : Instr) (hi : legalIn i .idle = true) (hs : s.sess = .idle)
    (h : SinkHolds [] s) : ContainerInv (runOf i s).state := by
  cases i with
  | init => exact containerInv_of_idle hs
  | inspect => exact (runInspect_idle hs).containerInv fun _ => containerInv_of_idle
  | openSink => exact (runOpen_openHeader h).containerInv fun _ => OpenHeader.containerInv
  | encode => exact (runEncode_closedHeader h).containerInv fun _ => ClosedHeader.containerInv
  | filter | bit | byte | gap | leader | payload | closeSink => exact absurd hi Bool.false_ne_true

theorem runOf_open_containerInv (i : Instr) (hi : legalIn i .opened = true) (h : OpenHeader s) :
    ContainerInv (runOf i s).state := by
  by_cases hc : i = .closeSink
  · subst hc
    exact (runClose_closedHeader h).containerInv fun _ => ClosedHeader.containerInv
  · exact (samplingKeeps_openHeader.runOf_ends i hi hc h).containerInv fun _ => OpenHeader.containerInv

theorem accept_containerInv (i : Instr) (h : StateInv s) (hc : ContainerInv s) :
    ContainerInv (accept i (runOf i) s) := by
  rcases accept_cases i (runOf i) s with ⟨_, he⟩ | ⟨_, _, _, he⟩ | ⟨hf, _, hl, _, _, he⟩ <;> rw [he]
  · exact hc
  · exact containerInv_of_faulted rfl
  · cases hs : s.sess with
    | idle => exact runOf_idle_containerInv i (hs ▸ hl) hs (sinkHolds_nil h hs hf)
    | opened => exact runOf_open_containerInv i (hs ▸ hl) (hc.openHeader h hs hf)
    | closed => simp [hs, not_legalIn_closed] at hl

theorem rejectWord_faulted (s : State) : Faulted (rejectWord s) := by
  unfold rejectWord
  split
  next hf => exact hf
  next => rfl

/-! ### The moves of the host -/

theorem presentCommand_containerInv {w : CmdWord} (h : StateInv s) (hc : ContainerInv s)
    (ht : presentCommand w s = .next t) : ContainerInv t := by
  rcases presentCommand_next ht with ⟨i, _, rfl⟩ | ⟨_, _, rfl⟩
  · exact accept_containerInv i { h with not_started := by simp } { hc with }
  · exact containerInv_of_faulted (rejectWord_faulted _)

/-- The writes of the host come before the first command, in `IDLE`. -/
theorem hostMove_containerInv {m : HostMove} (h : StateInv s) (hc : ContainerInv s)
    (ht : hostMove m s = .next t) : ContainerInv t := by
  cases m with
  | command w => exact presentCommand_containerInv h hc ht
  | reset =>
    cases ht
    exact containerInv_of_idle rfl
  | writeSrate | writeGain | writeInLen | writeImage =>
    obtain ⟨hs, rfl⟩ := beforeFirstCommand_next ht
    exact containerInv_of_idle (h.not_started hs).1
  | drivePins src snk =>
    cases ht
    exact { hc with }

theorem step_next_cases (h : step s = .next t) :
    (s.hostQ = [] ∧ t = s) ∨
    ∃ m rest, s.hostQ = m :: rest ∧ hostMove m { s with hostQ := rest } = .next t := by
  unfold step at h
  cases hq : s.hostQ with
  | nil =>
    simp only [hq, Host.Outcome.next.injEq] at h
    exact .inl ⟨rfl, h.symm⟩
  | cons m rest =>
    simp only [hq] at h
    exact .inr ⟨m, rest, rfl, h⟩

/-- Settles O15: between commands the header is the session's; inside one, OPEN writes it to an empty sink,
the samples go behind it, and CLOSE patches its two length fields. -/
theorem stepKeepsTheContainerHeader : Obligations.StepKeepsTheContainerHeader := by
  intro s t h hc ht
  rcases step_next_cases ht with ⟨_, rfl⟩ | ⟨m, rest, _, hm⟩
  · exact hc
  · exact hostMove_containerInv (s := { s with hostQ := rest }) { h with } { hc with } hm

end Sys2Proof.Machine
end

section
/-! PROOFS. The encoding: the decoder answers an instruction exactly for the word of a well-formed one, and
those words are the listed ones (30_encoding.md R80 to R84). -/

namespace Sys2Proof

variable {w : CmdWord} {op : BitVec 4} {arg : BitVec 8} {i j : Instr}

/-! ### The fields of a word -/

/-- A word is its fields put together. -/
theorem word_of_fields (w : CmdWord) : opField w ++ (zField w ++ argField w) = w := by
  have hlow : zField w ++ argField w = w.extractLsb' 0 12 :=
    BitVec.extractLsb'_append_extractLsb'_eq_extractLsb' rfl
  have hall : opField w ++ w.extractLsb' 0 12 = w.extractLsb' 0 16 :=
    BitVec.extractLsb'_append_extractLsb'_eq_extractLsb' rfl
  rw [hlow, hall, BitVec.extractLsb'_eq_self]

theorem decode_word (op : BitVec 4) (arg : BitVec 8) : decode (op ++ (0#4 ++ arg)) = decodeOp op arg := by
  obtain ⟨hop, hz, harg⟩ := fields_of_word op arg
  rw [decode, hop, hz, harg, if_pos rfl]

/-! ### The operand -/

theorem decodeNoOperand_eq_ok_iff : decodeNoOperand arg i = .ok j ↔ arg = 0#8 ∧ i = j := by
  unfold decodeNoOperand
  split <;> simp [*]

theorem decodeOneBit_eq_ok_iff {f : BitVec 8 → Instr} :
    decodeOneBit arg f = .ok j ↔ oneBitArg arg = true ∧ f arg = j := by
  unfold decodeOneBit
  split <;> simp [*]

/-- A one-bit operand is 0 or 1. -/
theorem oneBitArg_iff (arg : BitVec 8) : oneBitArg arg = true ↔ arg = 0#8 ∨ arg = 1#8 := by
  revert arg
  decide

/-! ### Decoding -/

/-- The decoder's answer to a well-formed instruction's fields, and to those of an ill-formed one. -/
theorem decodeOp_fields (i : Instr) :
    decodeOp i.opcode i.argByte = if i.wellFormed then .ok i else .error .argBits := by
  cases i <;> rfl

/-- An operation code and an `ARG` byte decode to `i` only if they are those of `i`. -/
theorem fields_of_decodeOp (h : decodeOp op arg = .ok i) :
    i.opcode = op ∧ i.argByte = arg ∧ i.wellFormed = true := by
  unfold decodeOp at h
  split at h
  case h_4 hop | h_5 hop =>
    obtain ⟨harg, rfl⟩ := decodeOneBit_eq_ok_iff.1 h
    exact ⟨BitVec.eq_of_toNat_eq hop.symm, rfl, harg⟩
  case h_6 hop =>
    cases h
    exact ⟨BitVec.eq_of_toNat_eq hop.symm, rfl, rfl⟩
  case h_12 => cases h
  all_goals
    rename_i hop
    obtain ⟨rfl, rfl⟩ := decodeNoOperand_eq_ok_iff.1 h
    exact ⟨BitVec.eq_of_toNat_eq hop.symm, rfl, rfl⟩

theorem decode_encode (i : Instr) : decode (encode i) = if i.wellFormed then .ok i else .error .argBits := by
  rw [encode, decode_word, decodeOp_fields]

/-- The decoder answers an instruction exactly for the word of a well-formed one. -/
theorem decode_eq_ok_iff : decode w = .ok i ↔ encode i = w ∧ i.wellFormed = true := by
  constructor
  · intro h
    unfold decode at h
    split at h
    case isTrue hz =>
      obtain ⟨hop, harg, hwf⟩ := fields_of_decodeOp h
      exact ⟨by rw [encode, hop, harg, ← hz, word_of_fields], hwf⟩
    case isFalse => cases h
  · rintro ⟨rfl, hwf⟩
    rw [decode_encode, if_pos hwf]

/-- Settles O1: a word is its three fields put together, and the decoder checks all three. -/
theorem decodeAndEncodeAgree : Obligations.DecodeAndEncodeAgree :=
  ⟨decode_encode, fun _ _ => decode_eq_ok_iff.1⟩

/-! ### The list of legal words -/

/-- The words of 30_encoding.md R82 without those of BYTE. -/
def listedWords : List CmdWord :=
  [0x1000#16, 0x2000#16, 0x3000#16, 0x4000#16, 0x4001#16, 0x5000#16, 0x5001#16, 0x7000#16,
    0x8000#16, 0x9000#16, 0xA000#16, 0xB000#16]

/-- The well-formed instructions those words stand for, in their order. -/
def listedInstrs : List Instr :=
  [.init, .inspect, .openSink, .filter 0#8, .filter 1#8, .bit 0#8, .bit 1#8, .gap, .leader, .payload,
    .closeSink, .encode]

theorem wellFormed_iff_listed (i : Instr) :
    i.wellFormed = true ↔ i ∈ listedInstrs ∨ ∃ v, i = .byte v := by
  cases i <;> simp [Instr.wellFormed, listedInstrs, oneBitArg_iff]

theorem encode_byte (v : BitVec 8) : encode (.byte v) = 0x6000#16 + v.setWidth 16 := by
  revert v
  decide

theorem map_encode_listedInstrs : listedInstrs.map encode = listedWords := by
  decide

/-- Settles O2: the legal words are those of the well-formed instructions. -/
theorem legalWordsAreTheListedOnes : Obligations.LegalWordsAreTheListedOnes := by
  intro w
  change _ ↔ w ∈ listedWords ∨ _
  simp only [decode_eq_ok_iff, wellFormed_iff_listed, ← map_encode_listedInstrs, List.mem_map,
    ← encode_byte]
  constructor
  · rintro ⟨i, rfl, hi | ⟨v, rfl⟩⟩
    · exact .inl ⟨i, hi, rfl⟩
    · exact .inr ⟨v, rfl⟩
  · rintro (⟨i, hi, rfl⟩ | ⟨v, rfl⟩)
    · exact ⟨i, rfl, .inl hi⟩
    · exact ⟨_, rfl, .inr ⟨v, rfl⟩⟩

/-- Settles O3: the decoder evaluates on each word. -/
theorem writtenOutWordsDecode : Obligations.WrittenOutWordsDecode :=
  ⟨rfl, rfl, rfl, rfl, rfl, rfl, rfl, rfl, rfl, rfl, rfl, rfl, rfl⟩

end Sys2Proof
end

section
/-! PROOFS. Presenting a command: the step that decodes and runs it, and the acceptance checks in their
order (30_encoding.md R84 to R86, 60_exceptions.md R185, R191, R195, 70_reset_and_hazards.md R211, R215). -/

namespace Sys2Proof.Machine

variable {s : State} {w : CmdWord} {rest : List HostMove} {i : Instr}

/-! ### The step -/

theorem step_command_of_decode_ok (hq : s.hostQ = .command w :: rest) (hl : launchLegal s = true)
    (hd : decode w = .ok i) : step s = exec i { s with hostQ := rest, started := true } := by
  have hl' : launchLegal { s with hostQ := rest } = true := hl
  simp only [step, hq, hostMove, presentCommand, hl', if_true, hd]

theorem step_command_of_decode_error {e : IllegalWord} (hq : s.hostQ = .command w :: rest)
    (hl : launchLegal s = true) (hd : decode w = .error e) :
    step s = .next (rejectWord { s with hostQ := rest, started := true }) := by
  have hl' : launchLegal { s with hostQ := rest } = true := hl
  simp only [step, hq, hostMove, presentCommand, hl', if_true, hd]

theorem decode_of_decodeTableWord {n k : Nat} (h : decodeTableWord n k = some i) :
    decode (BitVec.ofNat 16 k) = .ok i := by
  unfold decodeTableWord at h
  split at h
  case isTrue =>
    cases hd : decode (BitVec.ofNat 16 k) with
    | ok j => simpa [hd, Except.toOption] using h
    | error e => simp [hd, Except.toOption] at h
  case isFalse => cases h

/-- Settles O4: a legal launch decodes the word at the head of the queue. -/
theorem stepRunsThePresentedCommand : Obligations.StepRunsThePresentedCommand :=
  ⟨fun _ _ _ _ hq hl hd => step_command_of_decode_ok hq hl hd,
    fun _ _ _ _ hq hl hd => step_command_of_decode_error hq hl hd,
    fun s n k _ hl hd =>
      step_command_of_decode_ok (s := s.withFetchWord n k) rfl hl (decode_of_decodeTableWord hd)⟩

/-! ### Acceptance -/

variable (run : State → Run)

theorem accept_illegalCommand (hf : s.fault = false) (hw : i.wellFormed = false) :
    accept i run s = { s with fault := true, fcause := .illegalCommand } := by
  simp [accept, raise, hf, hw]

theorem accept_sequenceError (hf : s.fault = false) (hw : i.wellFormed = true)
    (hl : legalIn i s.sess = false) :
    accept i run s = { s with fault := true, fcause := .sequenceError } := by
  simp [accept, raise, hf, hw, hl]

theorem accept_inputUnreadable (hf : s.fault = false) (hw : i.wellFormed = true)
    (hl : legalIn i s.sess = true) (hn : needsSource i = true) (hp : s.srcPresent = false) :
    accept i run s = { s with fault := true, fcause := .inputUnreadable } := by
  simp [accept, raise, hf, hw, hl, hn, hp]

theorem accept_outputUnwritable (hf : s.fault = false) (hw : i.wellFormed = true)
    (hl : legalIn i s.sess = true) (hsrc : needsSource i = true → s.srcPresent = true)
    (hn : needsSink i = true) (hp : s.snkPresent = false) :
    accept i run s = { s with fault := true, fcause := .outputUnwritable } := by
  have hsrc' : (needsSource i && !s.srcPresent) = false := by simpa using hsrc
  simp [accept, raise, hf, hw, hl, hsrc', hn, hp]

theorem needsSource_iff (i : Instr) : needsSource i = true ↔ i ∈ [.inspect, .payload, .encode] := by
  cases i <;> simp [needsSource]

theorem needsSink_iff (i : Instr) : needsSink i = true ↔ i ∈ [.openSink, .encode] := by
  cases i <;> simp [needsSink]

/-- Of the commands that need the sink only ENCODE needs the source too. -/
theorem eq_encode_of_needsSink (hk : needsSink i = true) (hs : needsSource i = true) : i = .encode := by
  have h : i = .openSink ∨ i = .encode := by simpa using (needsSink_iff i).1 hk
  rcases h with rfl | rfl
  · cases hs
  · rfl

theorem exec_accepted (h : Accepted i s) : exec i s = .next (runOf i s).state := by
  obtain ⟨hfault, hwf, hlegal, hsrc, hsnk⟩ := h
  rw [exec_eq, accept_run i _ s hfault hwf hlegal hsrc hsnk]

/-- Settles O10: each check is reached only when those before it have passed. -/
theorem acceptanceChecksInOrder : Obligations.AcceptanceChecksInOrder := by
  intro i s
  simp only [exec_eq, Host.Outcome.next.injEq, ← needsSource_iff, ← needsSink_iff]
  exact ⟨accept_faulted i _ s, accept_illegalCommand _, accept_sequenceError _, accept_inputUnreadable _,
    fun hf hw hl hn hp hsrc =>
      accept_outputUnwritable _ hf hw hl (fun hs => hsrc (eq_encode_of_needsSink hn hs)) hn hp⟩

end Sys2Proof.Machine
end

section
/-! PROOFS. Commands issued one after another: in an open session they are one run, and where the first is
not accepted the rest change nothing, so a command that is a sequence of others inside is also their sequence
outside, whatever fails (30_encoding.md R88, R91, R94, 43_framing.md R153). -/

namespace Sys2Proof.Machine

variable {i : Instr} {is : List Instr} {s : State}

/-! ### Lists of commands -/

theorem execAll_cons (i : Instr) (is : List Instr) (s : State) :
    execAll (i :: is) s = execAll is (accept i (runOf i) s) := by
  rw [execAll, List.foldl_cons, exec_eq, execAll]

/-- No command changes a faulted state (60_exceptions.md R197). -/
theorem execAll_faulted (is : List Instr) (h : s.fault = true) : execAll is s = s := by
  induction is with
  | nil => rfl
  | cons i is ih => rw [execAll_cons, accept_faulted i _ s h, ih]

theorem forEachRun_map {α β : Type} (g : α → β) (f : β → State → Run) (xs : List α) (s : State) :
    forEachRun (xs.map g) f s = forEachRun xs (fun x => f (g x)) s := by
  induction xs generalizing s with
  | nil => rfl
  | cons x xs ih =>
    simp only [List.map_cons, forEachRun_cons]
    exact congrArg _ (funext ih)

/-! ### Commands that only produce samples -/

/-- The command produces samples and reads no image: FILTER, BIT and BYTE with a legal operand, GAP and
LEADER. -/
structure ProducesSamples (i : Instr) : Prop where
  wellFormed : i.wellFormed = true
  legal : legalIn i .opened = true
  no_source : needsSource i = false
  not_close : i ≠ .closeSink

namespace ProducesSamples

theorem needsSink (h : ProducesSamples i) : needsSink i = false := by
  cases i with
  | openSink | encode => exact absurd h.legal (by decide)
  | init | inspect | filter | bit | byte | gap | leader | payload | closeSink => rfl

theorem not_legal (h : ProducesSamples i) {e : Sess} (he : e ≠ .opened) : legalIn i e = false := by
  cases i with
  | init | inspect | openSink | encode => exact absurd h.legal (by decide)
  | filter | bit | byte | gap | leader | payload | closeSink => exact beq_false_of_ne he

/-- Such a command asks nothing of acceptance but an open session. -/
theorem accept_opened (h : ProducesSamples i) (hf : s.fault = false) (hs : s.sess = .opened) :
    accept i (runOf i) s = (runOf i s).state :=
  accept_run i _ s hf h.wellFormed (hs ▸ h.legal) (by simp [h.no_source]) (by simp [h.needsSink])

theorem accept_not_opened (h : ProducesSamples i) (hf : s.fault = false) (hs : s.sess ≠ .opened) :
    accept i (runOf i) s = { s with fault := true, fcause := .sequenceError } :=
  accept_sequenceError _ hf h.wellFormed (h.not_legal hs)

end ProducesSamples

/-- A session is open and nothing has raised. -/
structure InSession (s : State) : Prop where
  opened : s.sess = .opened
  fault_free : s.fault = false

theorem samplingKeeps_inSession : SamplingKeeps InSession Faulted where
  sample l s h := sample_ends l s (fun _ _ => { h with }) fun _ => rfl
  toggle _ h := { h with }
  rewind _ h := { h with }
  read _ h _ := { h with }
  readFails _ _ _ := rfl

/-- In an open session such commands are one run: each is accepted while nothing has raised, and none changes
anything afterwards. -/
theorem execAll_inSession (his : ∀ i ∈ is, ProducesSamples i) (h : InSession s) :
    execAll is s = (forEachRun is runOf s).state := by
  induction is generalizing s with
  | nil => rfl
  | cons i is ih =>
    obtain ⟨hi, his⟩ := List.forall_mem_cons.1 his
    have hends := samplingKeeps_inSession.runOf_ends i hi.legal hi.not_close h
    rw [execAll_cons, hi.accept_opened h.fault_free h.opened, forEachRun_cons]
    generalize runOf i s = r at hends ⊢
    cases r with
    | done t => exact ih his hends
    | raised t => exact execAll_faulted is hends

/-- A command whose rule runs the rules of such commands in order is those commands, in every state. -/
theorem exec_eq_execAll (hi : ProducesSamples i) (his : ∀ j ∈ is, ProducesSamples j) (hne : is ≠ [])
    (hrun : runOf i s = forEachRun is runOf s) : exec i s = .next (execAll is s) := by
  obtain ⟨j, rest, rfl⟩ := List.exists_cons_of_ne_nil hne
  rw [exec_eq]
  congr 1
  by_cases hf : s.fault = true
  · rw [accept_faulted i _ s hf, execAll_faulted _ hf]
  · have hf : s.fault = false := by simpa using hf
    by_cases hs : s.sess = .opened
    · rw [hi.accept_opened hf hs, hrun, execAll_inSession his ⟨hs, hf⟩]
    · have hj : ProducesSamples j := his j (List.mem_cons_self ..)
      rw [hi.accept_not_opened hf hs, execAll_cons, hj.accept_not_opened hf hs, execAll_faulted _ rfl]

/-! ### BYTE, LEADER and GAP -/

/-- The BIT command of a bit. -/
def bitInstr (b : Bool) : Instr := .bit (if b then 1#8 else 0#8)

theorem producesSamples_bitInstr (b : Bool) : ProducesSamples (bitInstr b) := by
  cases b <;> exact ⟨rfl, rfl, rfl, by simp [bitInstr]⟩

theorem producesSamples_byte (v : Byte) : ProducesSamples (.byte v) := ⟨rfl, rfl, rfl, by simp⟩

theorem producesSamples_leader : ProducesSamples .leader := ⟨rfl, rfl, rfl, by simp⟩

theorem producesSamples_gap : ProducesSamples .gap := ⟨rfl, rfl, rfl, by simp⟩

theorem producesSamples_filter_zero : ProducesSamples (.filter 0#8) := ⟨rfl, rfl, rfl, by simp⟩

theorem runOf_bitInstr (b : Bool) : runOf (bitInstr b) = runBit b := by
  cases b <;> rfl

theorem runOf_filter_zero : runOf (.filter 0#8) = sample 0 := rfl

/-- The rules of the BIT commands of a bit string are its half-cycles. -/
theorem forEachRun_bitInstr (bs : List Bool) (s : State) :
    forEachRun (bs.map bitInstr) runOf s = forEachRun bs runBit s := by
  simp only [forEachRun_map, runOf_bitInstr]

/-- A command whose rule sends a bit string is the BIT commands of its bits. -/
theorem exec_eq_execAll_bits (hi : ProducesSamples i) {bs : List Bool} (hne : bs ≠ [])
    (hrun : runOf i s = forEachRun bs runBit s) :
    exec i s = .next (execAll (bs.map bitInstr) s) :=
  exec_eq_execAll hi (List.forall_mem_map.2 fun b _ => producesSamples_bitInstr b) (by simpa using hne)
    (hrun.trans (forEachRun_bitInstr bs s).symm)

/-- A command whose rule repeats that of another is that other command repeated. -/
theorem exec_eq_execAll_replicate {j : Instr} (hi : ProducesSamples i) (hj : ProducesSamples j) {n : Nat}
    (hn : n ≠ 0) (hrun : runOf i s = repeatRun n (runOf j) s) :
    exec i s = .next (execAll (List.replicate n j) s) :=
  exec_eq_execAll hi (fun _ hk => List.eq_of_mem_replicate hk ▸ hj) (by simpa using hn)
    (hrun.trans (repeatRun_eq_forEachRun runOf j n s))

theorem bytesBits_replicate_ne_nil {n : Nat} (hn : n ≠ 0) (v : Byte) :
    bytesBits (List.replicate n v) ≠ [] := by
  obtain ⟨k, rfl⟩ := Nat.exists_eq_succ_of_ne_zero hn
  simp [List.replicate_succ, bytesBits_cons, bitsMsbFirst]

/-- The bits of the leader, each as its command (30_encoding.md R94). -/
theorem leaderBits_bitInstr :
    (bytesBits (List.replicate leaderCount leaderByte)).map bitInstr = (List.replicate 255
      [.bit 1#8, .bit 0#8, .bit 1#8, .bit 0#8, .bit 1#8, .bit 0#8, .bit 1#8, .bit 0#8]).flatten := by
  have hbyte : (bitsMsbFirst leaderByte).map bitInstr =
      [.bit 1#8, .bit 0#8, .bit 1#8, .bit 0#8, .bit 1#8, .bit 0#8, .bit 1#8, .bit 0#8] := rfl
  rw [bytesBits_replicate, List.map_flatten, List.map_replicate, hbyte, leaderCount]

/-- Settles O46: BYTE runs the rules of its bits, LEADER those of its bytes and so of their bits. -/
theorem bytesAreTheirBitsAndNothingElse : Obligations.BytesAreTheirBitsAndNothingElse := by
  refine ⟨fun s v => ?_, fun s => ?_, fun s => ?_⟩
  · exact exec_eq_execAll_bits (producesSamples_byte v) (bs := bitsMsbFirst v) (by simp [bitsMsbFirst]) rfl
  · exact exec_eq_execAll_replicate producesSamples_leader (producesSamples_byte leaderByte) (by decide) rfl
  · rw [← leaderBits_bitInstr]
    exact exec_eq_execAll_bits producesSamples_leader (bytesBits_replicate_ne_nil (by decide) _)
      (runLeader_eq s)

/-- Settles O47: a silent sample is the rule of FILTER 0. -/
theorem gapIsFilterZeroRepeated : Obligations.GapIsFilterZeroRepeated := fun s hn =>
  exec_eq_execAll_replicate producesSamples_gap producesSamples_filter_zero hn
    (by rw [runOf_filter_zero]; rfl)

end Sys2Proof.Machine
end

section
/-! PROOFS. INSPECT on an image with a textual header (30_encoding.md R95, R96, 40_inspector.md R112). -/

namespace Sys2Proof.Machine

variable {s : State} {b : Byte} {xs bs : List Byte}

/-! ### Reading a string of the image -/

/-- `bs` is what is left of the image, and no read of it will fail. -/
structure Unread (bs : List Byte) (s : State) : Prop where
  image : (imageBytes s).drop s.ipos.toNat = bs
  no_failure : NoSourceFailure s

/-- The state after `n` bytes have been read. -/
def advancedBy (n : Nat) (s : State) : State :=
  { s with ipos := s.ipos + BitVec.ofNat 32 n, srcFails := s.srcFails.drop n }

theorem advancedBy_zero (s : State) : advancedBy 0 s = s := by
  simp [advancedBy]

theorem advancedBy_advancedBy (m n : Nat) (s : State) :
    advancedBy n (advancedBy m s) = advancedBy (m + n) s := by
  simp [advancedBy, BitVec.add_assoc, BitVec.ofNat_add]

theorem advancedBy_advanced (n : Nat) (s : State) : advancedBy n (advanced s) = advancedBy (n + 1) s := by
  simp [advancedBy, advanced, pos_add_succ]

namespace Unread

theorem length (h : Unread bs s) : bs.length = s.inLen.toNat - s.ipos.toNat := by
  rw [← h.image, List.length_drop, imageBytes_length]

theorem not_at_end (h : Unread (b :: bs) s) : s.ipos.toNat < s.inLen.toNat := by
  have hlen := h.length
  rw [List.length_cons] at hlen
  omega

theorem drop_image (h : Unread (b :: bs) s) :
    memRead s s.ipos.toNat = b ∧ (imageBytes s).drop (s.ipos.toNat + 1) = bs := by
  have himage := h.image
  rwa [imageBytes_drop s _ h.not_at_end, List.cons.injEq] at himage

theorem readIn (h : Unread (b :: bs) s) : readIn s = .byte b (Machine.advanced s) := by
  rcases readIn_cases s with ⟨hend, _⟩ | ⟨_, hfail, _⟩ | ⟨_, _, hread⟩
  · exact absurd h.not_at_end (Nat.not_lt.2 hend)
  · exact absurd (hfail.symm.trans (noSourceFailure_next s h.no_failure)) (by decide)
  · rw [hread, h.drop_image.1]

theorem advanced (h : Unread (b :: bs) s) : Unread bs (Machine.advanced s) where
  image := by
    have hipos : (Machine.advanced s).ipos.toNat = s.ipos.toNat + 1 := ipos_succ s h.not_at_end
    rw [hipos]
    exact h.drop_image.2
  no_failure := fun a ha => h.no_failure a (List.mem_of_mem_tail ha)

theorem advancedBy (h : Unread (xs ++ bs) s) : Unread bs (Machine.advancedBy xs.length s) := by
  induction xs generalizing s with
  | nil => rwa [List.length_nil, advancedBy_zero]
  | cons x xs ih =>
    rw [List.length_cons, ← advancedBy_advanced]
    exact ih h.advanced

end Unread

/-! ### The three parts of the inspection -/

/-- The first loop passes over the bytes it compares with. -/
theorem matchSig_of_unread (h : Unread (xs ++ bs) s) :
    matchSig xs true s = (true, .done (advancedBy xs.length s)) := by
  induction xs generalizing s with
  | nil => rw [matchSig, List.length_nil, advancedBy_zero]
  | cons x xs ih =>
    simp only [matchSig, h.readIn, beq_self_eq_true, Bool.and_true]
    rw [ih h.advanced, advancedBy_advanced, List.length_cons]

/-- The outcome `FOUND`, with the header ending `n` bytes ahead. -/
def foundAfter (n : Nat) (s : State) : Run :=
  setHeader .found (advancedBy n s).ipos (advancedBy n s)

theorem foundAfter_advancedBy (m n : Nat) (s : State) :
    foundAfter n (advancedBy m s) = foundAfter (m + n) s := by
  simp only [foundAfter, advancedBy_advancedBy]

theorem foundAfter_advanced (n : Nat) (s : State) : foundAfter n (advanced s) = foundAfter (n + 1) s := by
  simp only [foundAfter, advancedBy_advanced]

theorem checkMarker_of_unread (h : Unread (marker :: bs) s) : checkMarker s = foundAfter 1 s := by
  simp only [checkMarker, h.readIn, if_true]
  rw [← foundAfter_advanced, foundAfter, advancedBy_zero]

/-- The second loop passes over a field of non-zero bytes, its terminator and the marker. -/
theorem scanZero_of_unread (hx : ∀ b ∈ xs, b ≠ 0#8) (h : Unread (xs ++ 0#8 :: marker :: bs) s) {n : Nat}
    (hn : xs.length < n) : scanZero n s = foundAfter (xs.length + 2) s := by
  induction xs generalizing s n with
  | nil =>
    obtain ⟨n, rfl⟩ := Nat.exists_eq_succ_of_ne_zero (Nat.ne_zero_of_lt hn)
    simp only [scanZero, h.readIn, if_true]
    rw [checkMarker_of_unread h.advanced, foundAfter_advanced, List.length_nil]
  | cons x xs ih =>
    obtain ⟨n, rfl⟩ := Nat.exists_eq_succ_of_ne_zero (Nat.ne_zero_of_lt hn)
    obtain ⟨hx0, hxs⟩ := List.forall_mem_cons.1 hx
    simp only [scanZero, h.readIn, if_neg hx0]
    rw [ih hxs h.advanced (Nat.lt_of_succ_lt_succ hn), foundAfter_advanced, List.length_cons,
      Nat.add_right_comm]

/-- An image with a textual header is inspected up to the byte after the marker. -/
theorem runInspect_of_header {field rest : List Byte} (hf : NoSourceFailure s)
    (hfield : ∀ b ∈ field, b ≠ 0#8) (himage : imageBytes s = sig ++ (field ++ 0#8 :: marker :: rest)) :
    runInspect s = foundAfter (32 + (field.length + 2)) { s with ipos := 0#32 } := by
  have h0 : Unread (sig ++ (field ++ 0#8 :: marker :: rest)) { s with ipos := 0#32 } := ⟨himage, hf⟩
  have h32 := h0.advancedBy
  have hlen := h32.length
  rw [runInspect, matchSig_of_unread h0, Run.done_andThen, if_pos rfl, ← hlen,
    scanZero_of_unread hfield h32 (by simp), foundAfter_advancedBy]
  rfl

/-! ### The size of the header -/

theorem foundAfter_hdrSize {n : Nat} (hn : n < 2 ^ 32) (s : State) :
    (foundAfter n { s with ipos := 0#32 }).state.hdrSize.toNat = n := by
  simp only [foundAfter, setHeader, advancedBy, Run.state_done, BitVec.zero_add, BitVec.toNat_ofNat]
  exact Nat.mod_eq_of_lt hn

/-- Settles O28: the signature's 32 bytes, the field with its terminator and the marker are read, and
`HDR_SIZE` is the position reached. -/
theorem headerSizeIsTheOffsetAfterTheMarker : Obligations.HeaderSizeIsTheOffsetAfterTheMarker := by
  intro s field rest ha hf hfield himage
  have himage : imageBytes s = sig ++ (field ++ 0#8 :: marker :: rest) := by
    simpa [sig, marker] using himage
  have hrun := runInspect_of_header hf hfield himage
  have hlt : 32 + (field.length + 2) < 2 ^ 32 := by
    have hlen := congrArg List.length himage
    have hword := s.inLen.isLt
    simp only [imageBytes_length, List.length_append, List.length_cons, sig] at hlen
    omega
  refine ⟨(foundAfter (32 + (field.length + 2)) { s with ipos := 0#32 }).state, ?_, rfl, ha.1, ?_⟩
  · rw [exec_accepted ha, runOf, hrun]
  · rw [foundAfter_hdrSize hlt, List.length_append, List.length_singleton]
    omega

end Sys2Proof.Machine
end

section
/-! PROOFS. The length fields CLOSE leaves in the sink (30_encoding.md R99, 44_container.md R173, R175). -/

namespace Sys2Proof.Machine

variable {s : State}

/-! ### Reading a string back -/

theorem Memory.reads_writeBytes (m : Memory) (a : Nat) (bs : List Byte) {n : Nat} (hn : bs.length = n) :
    (List.range n).map (fun k => (m.writeBytes a bs).read (a + k)) = bs.map some := by
  refine List.ext_getElem (by simp [hn]) fun k hk _ => ?_
  have hlt : k < bs.length := by simpa [hn] using hk
  simp [Memory.read_writeBytes, hlt]

/-- A string written elsewhere is not seen. -/
theorem Memory.reads_writeBytes_of_disjoint (m : Memory) {a b n : Nat} (bs : List Byte)
    (h : a + n ≤ b ∨ b + bs.length ≤ a) :
    (List.range n).map (fun k => (m.writeBytes b bs).read (a + k)) =
      (List.range n).map fun k => m.read (a + k) := by
  refine List.map_congr_left fun k hk => ?_
  have hlt : k < n := List.mem_range.1 hk
  rw [Memory.read_writeBytes, if_neg (by omega)]

theorem ofNat_toNat_sub (p : Word32) {n : Nat} (h : n ≤ p.toNat) :
    BitVec.ofNat 32 (p.toNat - n) = p - BitVec.ofNat 32 n := by
  rw [← BitVec.ofNat_sub_ofNat_of_le _ _ (h.trans_lt p.isLt) h, BitVec.ofNat_toNat, BitVec.setWidth_eq]

/-! ### CLOSE -/

/-- The state after both length fields have been patched (44_container.md R175). -/
def closed (s : State) : State :=
  { s with
    out := (s.out.writeBytes 4 (le32 (totalLength s))).writeBytes 40 (le32 (dataLength s))
    sess := .closed
    snkFails := s.snkFails.drop 2 }

theorem patch_done (a : Nat) (v : List Byte) (h : NoSinkFailure s) :
    patch a v s = .done { s with out := s.out.writeBytes a v, snkFails := s.snkFails.tail } := by
  rcases patch_cases a v s with ⟨hf, _⟩ | ⟨_, he⟩
  · rw [noSinkFailure_next s h] at hf
    cases hf
  · exact he

theorem runClose_done (h : NoSinkFailure s) : runClose s = .done (closed s) := by
  have htail : ∀ b ∈ s.snkFails.tail, b = false := fun b hb => h b (List.mem_of_mem_tail hb)
  rw [runClose, patch_done 4 _ h, Run.done_andThen, patch_done 40 _ htail, Run.done_andThen]
  simp [closed, totalLength, dataLength, ← List.drop_one]

theorem closed_reads_totalLength (s : State) :
    (List.range 4).map (fun k => (closed s).out.read (4 + k)) = (le32 (totalLength s)).map some := by
  rw [closed, Memory.reads_writeBytes_of_disjoint _ _ (.inl (by decide)),
    Memory.reads_writeBytes (n := 4) _ _ _ rfl]

theorem closed_reads_dataLength (s : State) :
    (List.range 4).map (fun k => (closed s).out.read (40 + k)) = (le32 (dataLength s)).map some :=
  Memory.reads_writeBytes _ _ _ rfl

/-- A session has begun with a command. -/
theorem StateInv.sessionInv (h : StateInv s) (hs : s.sess = .opened) (hf : s.fault = false) :
    SessionInv s := by
  have hstarted : s.started = true := by
    by_contra hn
    have hidle := (h.not_started (by simpa using hn)).1
    exact absurd (hs.symm.trans hidle) (by decide)
  exact ⟨h.running hstarted hf, by simp [hs]⟩

theorem SessionInv.out_length (h : SessionInv s) : s.out.length = s.pos.toNat := by
  simpa using congrArg List.length h.running.out_addresses

theorem SessionInv.closed (h : SessionInv s) (hf : NoSinkFailure s) : SessionInv (closed s) := by
  simpa only [runClose_done hf, Run.ends_done] using runClose_sessionInv h

theorem exec_closeSink_done (ha : Accepted .closeSink s) (hf : NoSinkFailure s) :
    exec .closeSink s = .next (closed s) := by
  rw [exec_accepted ha, runOf, runClose_done hf, Run.state_done]

/-- Settles O33: the patched fields are read back, and the sink is as long as `POS` says. -/
theorem lengthFieldsAfterClose : Obligations.LengthFieldsAfterClose := by
  intro s h ha hf
  have hexec := exec_closeSink_done ha hf
  obtain ⟨hfault, -, hlegal, -⟩ := ha
  have hs := h.sessionInv (by simpa [legalIn] using hlegal) hfault
  have hc := hs.closed hf
  have hlen : (closed s).out.length = s.pos.toNat := hc.out_length
  have h44 : 44 ≤ s.pos.toNat := hs.running.open_has_header hs.not_idle
  have htotal : BitVec.ofNat 32 (s.pos.toNat - 8) = totalLength s := ofNat_toNat_sub _ (by omega)
  have hdata : BitVec.ofNat 32 (s.pos.toNat - 44) = dataLength s := ofNat_toNat_sub _ h44
  refine ⟨closed s, hexec, rfl, hc.out_length, ?_, ?_, fun h => ?_⟩
  · rw [hlen, htotal, closed_reads_totalLength]
  · rw [hlen, hdata, closed_reads_dataLength]
  · rw [closed_reads_totalLength, closed_reads_dataLength, ← htotal, ← hdata, ← hlen, h]
    exact ⟨rfl, rfl⟩

end Sys2Proof.Machine
end

section
/-! PROOFS. INSPECT on every image (40_inspector.md R111, R112): it reads as many bytes as the inspection
table says unless a read fails, and then records what the table says. -/

namespace Sys2Proof.Machine

variable {s : State} {b : Byte} {xs bs : List Byte} {f g : State → Run}

/-! ### Reads that may fail -/

/-- `bs` is what is left of the image. -/
def Ahead (bs : List Byte) (s : State) : Prop := (imageBytes s).drop s.ipos.toNat = bs

namespace Ahead

/-- What is ahead does not depend on the answers to come. -/
theorem unread (h : Ahead bs s) : Unread bs { s with srcFails := [] } := ⟨h, by simp⟩

theorem length (h : Ahead bs s) : s.inLen.toNat - s.ipos.toNat = bs.length := h.unread.length.symm

theorem advanced (h : Ahead (b :: bs) s) : Ahead bs (advanced s) := h.unread.advanced.image

theorem advancedBy (h : Ahead (xs ++ bs) s) : Ahead bs (advancedBy xs.length s) :=
  h.unread.advancedBy.image

theorem readIn_nil (h : Ahead [] s) : readIn s = .eof s := by
  have hend : s.inLen.toNat - s.ipos.toNat = 0 := h.length
  rcases readIn_cases s with ⟨_, hr⟩ | ⟨hlt, _⟩ | ⟨hlt, _⟩
  · exact hr
  · omega
  · omega

theorem readIn_cons (h : Ahead (b :: bs) s) :
    (nextAnswer s.srcFails = true ∧
      readIn s = .raised (raise .inputStreamFailure { s with srcFails := s.srcFails.tail }).state) ∨
    (nextAnswer s.srcFails = false ∧ readIn s = .byte b (Machine.advanced s)) := by
  rcases readIn_cases s with ⟨hend, _⟩ | ⟨_, hf, hr⟩ | ⟨_, hf, hr⟩
  · exact absurd h.unread.not_at_end (Nat.not_lt.2 hend)
  · exact .inl ⟨hf, hr⟩
  · have hb : memRead s s.ipos.toNat = b := h.unread.drop_image.1
    exact .inr ⟨hf, hb ▸ hr⟩

end Ahead

/-- Read `n` bytes and go on with `f`; the first read that fails raises. -/
def afterReads : Nat → (State → Run) → State → Run
  | 0, f, s => f s
  | n + 1, f, s =>
    if nextAnswer s.srcFails then raise .inputStreamFailure { s with srcFails := s.srcFails.tail }
    else afterReads n f (advanced s)

theorem afterReads_zero (f : State → Run) (s : State) : afterReads 0 f s = f s := rfl

theorem afterReads_succ_of_fails (n : Nat) (h : nextAnswer s.srcFails = true) :
    afterReads (n + 1) f s = raise .inputStreamFailure { s with srcFails := s.srcFails.tail } :=
  if_pos h

theorem afterReads_succ_of_answers (n : Nat) (h : nextAnswer s.srcFails = false) :
    afterReads (n + 1) f s = afterReads n f (advanced s) :=
  if_neg (by simp [h])

/-- Only what follows the reads in the state they lead to matters. -/
theorem afterReads_congr {n : Nat} (h : f (advancedBy n s) = g (advancedBy n s)) :
    afterReads n f s = afterReads n g s := by
  induction n generalizing s with
  | zero => rwa [advancedBy_zero] at h
  | succ n ih =>
    rw [← advancedBy_advanced] at h
    simp only [afterReads, ih h]

theorem afterReads_afterReads (m n : Nat) (f : State → Run) (s : State) :
    afterReads m (afterReads n f) s = afterReads (m + n) f s := by
  induction m generalizing s with
  | zero => rw [afterReads_zero, Nat.zero_add]
  | succ m ih => simp only [Nat.succ_add, afterReads, ih]

theorem afterReads_of_noSourceFailure (n : Nat) (h : NoSourceFailure s) :
    afterReads n f s = f (advancedBy n s) := by
  induction n generalizing s with
  | zero => rw [afterReads_zero, advancedBy_zero]
  | succ n ih =>
    rw [afterReads_succ_of_answers n (noSourceFailure_next s h),
      ih fun a ha => h a (List.mem_of_mem_tail ha), advancedBy_advanced]

theorem afterReads_of_failure {k n : Nat} {rest : List Bool} (hk : k < n)
    (h : s.srcFails = List.replicate k false ++ true :: rest) :
    afterReads n f s = .raised { s with
      ipos := s.ipos + BitVec.ofNat 32 k, srcFails := rest, fault := true
      fcause := .inputStreamFailure } := by
  induction k generalizing s n with
  | zero =>
    obtain ⟨n, rfl⟩ := Nat.exists_eq_succ_of_ne_zero (Nat.ne_zero_of_lt hk)
    rw [afterReads_succ_of_fails n (by rw [h]; rfl)]
    simp [raise, h]
  | succ k ih =>
    obtain ⟨n, rfl⟩ := Nat.exists_eq_succ_of_ne_zero (Nat.ne_zero_of_lt hk)
    have hs : (advanced s).srcFails = List.replicate k false ++ true :: rest := by
      simp [advanced, h, List.replicate_succ]
    rw [afterReads_succ_of_answers n (by rw [h]; rfl), ih (Nat.lt_of_succ_lt_succ hk) hs]
    simp only [advanced, pos_add_succ]

/-! ### The three parts of the inspection -/

/-- The first loop compares whole strings: it reads up to the length of the signature, and an image that ends
before is no match. -/
theorem matchSig_andThen (cs : List Byte) (ok : Bool) (h : Ahead bs s) :
    ((matchSig cs ok s).2.andThen fun t => if (matchSig cs ok s).1 then f t else g t) =
      afterReads (min cs.length bs.length)
        (if ok = true ∧ bs.take cs.length = cs then f else g) s := by
  induction cs generalizing ok bs s with
  | nil => cases ok <;> simp [matchSig, afterReads_zero]
  | cons c cs ih =>
    cases bs with
    | nil => simp [matchSig, h.readIn_nil, afterReads_zero]
    | cons b bs =>
      simp only [List.length_cons, Nat.succ_min_succ]
      rcases h.readIn_cons with ⟨hf, hr⟩ | ⟨hf, hr⟩ <;> simp only [matchSig, hr]
      · rw [afterReads_succ_of_fails _ hf]
        rfl
      · rw [afterReads_succ_of_answers _ hf, ih _ h.advanced]
        simp [and_assoc]

/-- The second loop passes over bytes that are not zero. -/
theorem scanZero_of_nonzero (n : Nat) (hx : 0#8 ∉ xs) (h : Ahead (xs ++ bs) s) :
    scanZero (xs.length + n) s = afterReads xs.length (scanZero n) s := by
  induction xs generalizing s with
  | nil => rw [List.length_nil, Nat.zero_add, afterReads_zero]
  | cons x xs ih =>
    obtain ⟨hx0, hxs⟩ := not_or.1 (mt List.mem_cons.2 hx)
    rw [List.length_cons, Nat.succ_add]
    rcases h.readIn_cons with ⟨hf, hr⟩ | ⟨hf, hr⟩ <;> simp only [scanZero, hr]
    · rw [afterReads_succ_of_fails _ hf]
      rfl
    · rw [afterReads_succ_of_answers _ hf, if_neg (Ne.symm hx0), ih hxs h.advanced]

theorem scanZero_of_zero (n : Nat) (h : Ahead (0#8 :: bs) s) :
    scanZero (n + 1) s = afterReads 1 checkMarker s := by
  rcases h.readIn_cons with ⟨hf, hr⟩ | ⟨hf, hr⟩ <;> simp only [scanZero, hr]
  · rw [afterReads_succ_of_fails _ hf]
    rfl
  · rw [afterReads_succ_of_answers _ hf, if_pos trivial, afterReads_zero]

/-- The second loop finds the first zero byte, and the byte after it decides. -/
theorem scanZero_of_field (hx : 0#8 ∉ xs) (h : Ahead (xs ++ 0#8 :: bs) s) :
    scanZero (xs ++ 0#8 :: bs).length s = afterReads (xs.length + 1) checkMarker s := by
  rw [List.length_append, List.length_cons, scanZero_of_nonzero _ hx h, ← afterReads_afterReads]
  exact afterReads_congr (scanZero_of_zero _ h.advancedBy)

theorem checkMarker_of_nil (h : Ahead [] s) : checkMarker s = setHeader .malformed 0#32 s := by
  simp only [checkMarker, h.readIn_nil]

theorem checkMarker_of_cons (h : Ahead (b :: bs) s) :
    checkMarker s = afterReads 1
      (fun t => if b = marker then setHeader .found t.ipos t else setHeader .malformed 0#32 t) s := by
  rcases h.readIn_cons with ⟨hf, hr⟩ | ⟨hf, hr⟩ <;> simp only [checkMarker, hr]
  · rw [afterReads_succ_of_fails _ hf]
    rfl
  · rw [afterReads_succ_of_answers _ hf, afterReads_zero]

/-! ### The inspection table -/

theorem inspection_of_no_signature {image : List Byte} (h : image.take 32 ≠ sig) :
    inspection image = (.noHeader, 0, min 32 image.length) := if_neg h

theorem sig_length : sig.length = 32 := rfl

theorem take_sig_append (bs : List Byte) : (sig ++ bs).take 32 = sig := List.take_left' rfl

theorem drop_sig_append (bs : List Byte) : (sig ++ bs).drop 32 = bs := List.drop_left' rfl

theorem findIdx?_zero_eq_none (hx : 0#8 ∉ xs) : xs.findIdx? (· == 0#8) = none := by
  simpa using fun b hb => ne_of_mem_of_not_mem hb hx

theorem findIdx?_zero_append (hx : 0#8 ∉ xs) (bs : List Byte) :
    (xs ++ 0#8 :: bs).findIdx? (· == 0#8) = some xs.length := by
  simp [List.findIdx?_append, findIdx?_zero_eq_none hx, List.findIdx?_cons]

/-- The byte after the terminator of the field. -/
theorem getElem?_after_terminator (xs bs : List Byte) :
    (sig ++ (xs ++ 0#8 :: bs))[32 + xs.length + 1]? = bs[0]? := by
  rw [Nat.add_assoc, ← List.getElem?_drop, drop_sig_append, List.getElem?_append_right (by simp)]
  simp

theorem inspection_of_no_zero (hx : 0#8 ∉ xs) :
    inspection (sig ++ xs) = (.malformed, 0, 32 + xs.length) := by
  simp only [inspection, take_sig_append, drop_sig_append, findIdx?_zero_eq_none hx,
    List.length_append, sig_length, if_true]

theorem inspection_of_no_marker (hx : 0#8 ∉ xs) :
    inspection (sig ++ (xs ++ [0#8])) = (.malformed, 0, 32 + (xs.length + 1)) := by
  simp only [inspection, take_sig_append, drop_sig_append, findIdx?_zero_append hx,
    getElem?_after_terminator, List.getElem?_nil, List.length_append, sig_length,
    List.length_singleton, if_true]

theorem inspection_of_field (hx : 0#8 ∉ xs) (b : Byte) (bs : List Byte) :
    inspection (sig ++ (xs ++ 0#8 :: b :: bs)) =
      if b = marker then (.found, 32 + (xs.length + 2), 32 + (xs.length + 2))
      else (.malformed, 0, 32 + (xs.length + 2)) := by
  simp only [inspection, take_sig_append, drop_sig_append, findIdx?_zero_append hx,
    getElem?_after_terminator, List.getElem?_cons_zero, if_true]
  rfl

/-! ### The inspection follows the table -/

/-- The reads and the outcome the table gives for an image. -/
def tableRun (image : List Byte) : State → Run :=
  afterReads (inspection image).2.2
    (setHeader (inspection image).1 (BitVec.ofNat 32 (inspection image).2.1))

theorem ahead_image (s : State) : Ahead (imageBytes s) { s with ipos := 0#32 } := rfl

theorem runInspect_of_no_signature (h : (imageBytes s).take 32 ≠ sig) :
    runInspect s = tableRun (imageBytes s) { s with ipos := 0#32 } := by
  rw [tableRun, inspection_of_no_signature h]
  refine (matchSig_andThen sig true (ahead_image s)).trans ?_
  rw [if_neg (fun hok => h hok.2)]
  rfl

/-- Behind the signature the rest of the image is scanned. -/
theorem runInspect_of_signature (h : imageBytes s = sig ++ bs) :
    runInspect s = afterReads 32 (scanZero bs.length) { s with ipos := 0#32 } := by
  have h0 : Ahead (sig ++ bs) { s with ipos := 0#32 } := h ▸ ahead_image s
  have h32 : Ahead bs (advancedBy 32 { s with ipos := 0#32 }) := h0.advancedBy
  refine (matchSig_andThen sig true h0).trans ?_
  rw [if_pos ⟨rfl, take_sig_append bs⟩, List.length_append, sig_length,
    Nat.min_eq_left (Nat.le_add_right ..)]
  exact afterReads_congr (by rw [h32.length])

/-- The scan ends at the end of the image, at the end of the field, or at the byte after it. -/
theorem scanZero_follows_table (hs : s.ipos = 0#32) (h : Ahead (sig ++ bs) s) :
    afterReads 32 (scanZero bs.length) s = tableRun (sig ++ bs) s := by
  have h32 : Ahead bs (advancedBy 32 s) := h.advancedBy
  by_cases hzero : 0#8 ∈ bs
  case neg =>
    have hscan : scanZero bs.length (advancedBy 32 s) =
        afterReads bs.length (scanZero 0) (advancedBy 32 s) :=
      scanZero_of_nonzero (bs := []) 0 hzero (by rwa [List.append_nil])
    rw [tableRun, inspection_of_no_zero hzero, afterReads_congr hscan, afterReads_afterReads]
    rfl
  case pos =>
    obtain ⟨xs, rest, rfl, hx⟩ := List.eq_append_cons_of_mem hzero
    rw [afterReads_congr (scanZero_of_field hx h32), afterReads_afterReads]
    have hrest : Ahead rest (advancedBy (32 + (xs.length + 1)) s) := by
      have hfield : Ahead ((xs ++ [0#8]) ++ rest) (advancedBy 32 s) := by simpa using h32
      simpa [advancedBy_advancedBy] using hfield.advancedBy
    cases rest with
    | nil =>
      rw [tableRun, inspection_of_no_marker hx]
      exact afterReads_congr (checkMarker_of_nil hrest)
    | cons b rest =>
      rw [tableRun, inspection_of_field hx, afterReads_congr (checkMarker_of_cons hrest),
        afterReads_afterReads]
      split
      · refine afterReads_congr ?_
        simp [advancedBy, hs, Nat.add_assoc]
      · rfl

/-- INSPECT makes the reads of the table, and unless one of them fails it records what the table says. -/
theorem runInspect_follows_table (s : State) :
    runInspect s = tableRun (imageBytes s) { s with ipos := 0#32 } := by
  by_cases hsig : (imageBytes s).take 32 = sig
  · have himage : imageBytes s = sig ++ (imageBytes s).drop 32 := by
      rw [← hsig, List.take_append_drop]
    generalize (imageBytes s).drop 32 = bs at himage
    rw [runInspect_of_signature himage, himage]
    exact scanZero_follows_table rfl (himage ▸ ahead_image s)
  · exact runInspect_of_no_signature hsig

/-- Settles O27: without a failure the reads of the table only move `IPOS` and use up answers. -/
theorem inspectFollowsTheTable : Obligations.InspectFollowsTheTable := by
  intro s ha hf
  rw [exec_accepted ha, runOf, runInspect_follows_table, tableRun,
    afterReads_of_noSourceFailure (s := { s with ipos := 0#32 }) _ hf]
  simp only [advancedBy, setHeader, BitVec.zero_add, Run.state_done]

/-- Settles O29: the failing read is one of those of the table, and nothing is recorded. -/
theorem inspectReadFailure : Obligations.InspectReadFailure := by
  intro s k rest ha hs hk
  rw [exec_accepted ha, runOf, runInspect_follows_table, tableRun,
    afterReads_of_failure (s := { s with ipos := 0#32 }) hk hs]
  simp only [BitVec.zero_add, Run.state_raised]

end Sys2Proof.Machine
end

section
/-! PROOFS. An inspection makes no difference to what ENCODE writes (40_inspector.md R113, R114 (d)): the
commands ENCODE is made of neither read nor write what an inspection leaves, and PAYLOAD starts at `IPOS = 0`. -/

namespace Sys2Proof.Machine

variable {u : State → State} {f g : State → Run} {s : State}

/-! ### Updates that a run does not notice -/

/-- Apply an update to the state a run leaves. -/
def Run.map (u : State → State) : Run → Run
  | .done s => .done (u s)
  | .raised s => .raised (u s)

@[simp] theorem Run.state_map (u : State → State) (r : Run) : (r.map u).state = u r.state := by
  cases r <;> rfl

theorem Run.Ends.map_andThen {Q E : State → Prop} {r : Run} (h : r.Ends Q E)
    (hg : ∀ s, Q s → g (u s) = (g s).map u) : (r.map u).andThen g = (r.andThen g).map u := by
  cases r with
  | done s => exact hg s h
  | raised s => rfl

/-- It makes no difference whether the update is made before `f` or after it, whatever fails. -/
def Commutes (u : State → State) (f : State → Run) : Prop := ∀ s, f (u s) = (f s).map u

namespace Commutes

theorem map_andThen (hg : Commutes u g) (r : Run) : (r.map u).andThen g = (r.andThen g).map u := by
  cases r with
  | done s => exact hg s
  | raised s => rfl

theorem andThen (hf : Commutes u f) (hg : Commutes u g) : Commutes u fun s => (f s).andThen g :=
  fun s => (congrArg (·.andThen g) (hf s)).trans (hg.map_andThen (f s))

theorem repeatRun (hf : Commutes u f) (n : Nat) : Commutes u (repeatRun n f) := by
  induction n with
  | zero => exact fun s => rfl
  | succ n ih => exact hf.andThen ih

theorem forEachRun {α : Type} {f : α → State → Run} (hf : ∀ x, Commutes u (f x)) (xs : List α) :
    Commutes u (forEachRun xs f) := by
  induction xs with
  | nil => exact fun s => rfl
  | cons x xs ih => exact (hf x).andThen ih

end Commutes

/-! ### The update an inspection makes -/

/-- An outcome is recorded, `IPOS` is moved and `k` answers are used. -/
def inspected (st : HdrStat) (size : Word32) (move : Word32 → Word32) (k : Nat) (s : State) : State :=
  { s with hdrStat := st, hdrSize := size, ipos := move s.ipos, srcFails := s.srcFails.drop k }

section

variable {st : HdrStat} {size : Word32} {move : Word32 → Word32} {k : Nat}

theorem append_inspected (b : Byte) : Commutes (inspected st size move k) (append b) := by
  intro s
  rcases append_cases b s with ⟨hfull, he⟩ | ⟨hroom, hf, he⟩ | ⟨hroom, hf, he⟩ <;> rw [he]
  · exact append_full b (inspected st size move k s) hfull
  · exact append_fails b (inspected st size move k s) hroom hf
  · exact append_done b (inspected st size move k s) hroom hf

theorem patch_inspected (a : Nat) (v : List Byte) : Commutes (inspected st size move k) (patch a v) := by
  intro s
  have hsame : nextAnswer (inspected st size move k s).snkFails = nextAnswer s.snkFails := rfl
  cases hf : nextAnswer s.snkFails <;> simp only [patch, askSnkFail, hsame, hf] <;> rfl

theorem sample_inspected (l : Int) : Commutes (inspected st size move k) (sample l) := fun s =>
  append_inspected (sampleByte l s) (filtered l s)

theorem half_inspected (m : Nat) : Commutes (inspected st size move k) (half m) :=
  (Commutes.repeatRun (fun s => sample_inspected (amp s) s) m).andThen fun _ => rfl

theorem runBit_inspected (b : Bool) : Commutes (inspected st size move k) (runBit b) := by
  intro s
  cases b with
  | false => exact half_inspected _ s
  | true => exact (half_inspected _).andThen (half_inspected _) s

theorem runByte_inspected (v : Byte) : Commutes (inspected st size move k) (runByte v) :=
  Commutes.forEachRun runBit_inspected _

theorem runGap_inspected : Commutes (inspected st size move k) runGap := fun s =>
  (sample_inspected 0).repeatRun (nsil s.cfgSrate) s

theorem runLeader_inspected : Commutes (inspected st size move k) runLeader :=
  (runByte_inspected leaderByte).repeatRun leaderCount

theorem runOpen_inspected : Commutes (inspected st size move k) runOpen := fun s =>
  (Commutes.forEachRun append_inspected (containerHeader placeholder placeholder s.cfgSrate)).andThen
    (fun _ => rfl) s

theorem runClose_inspected : Commutes (inspected st size move k) runClose :=
  Commutes.andThen (fun s => patch_inspected 4 (le32 (totalLength s)) s)
    (Commutes.andThen (fun s => patch_inspected 40 (le32 (dataLength s)) s) fun _ => rfl)

/-! ### PAYLOAD -/

theorem readIn_of_noSourceFailure (h : NoSourceFailure s) :
    readIn s = if s.inLen.toNat ≤ s.ipos.toNat then .eof s
      else .byte (memRead s s.ipos.toNat) (advanced s) := by
  rcases readIn_cases s with ⟨hend, hr⟩ | ⟨_, hf, _⟩ | ⟨hlt, _, hr⟩
  · rw [hr, if_pos hend]
  · rw [noSourceFailure_next s h] at hf
    cases hf
  · rw [hr, if_neg (Nat.not_le.2 hlt)]

theorem inspected_noSourceFailure (h : NoSourceFailure s) :
    NoSourceFailure (inspected st size move k s) :=
  fun b hb => h b (List.mem_of_mem_drop hb)

/-- A read moves `IPOS` and uses an answer in the same way after an inspection that left `IPOS` alone. -/
theorem advanced_inspected (s : State) :
    advanced (inspected st size id k s) = inspected st size id k (advanced s) := by
  simp [advanced, inspected]

theorem samplingKeeps_noSourceFailure : SamplingKeeps NoSourceFailure Faulted where
  sample l s h := sample_ends l s (fun _ _ => h) fun _ => rfl
  toggle _ h := h
  rewind _ h := h
  read _ h _ := fun b hb => h b (List.mem_of_mem_tail hb)
  readFails _ _ _ := rfl

theorem payloadLoop_inspected (m : Nat) (h : NoSourceFailure s) :
    payloadLoop m (inspected st size id k s) = (payloadLoop m s).map (inspected st size id k) := by
  induction m generalizing s with
  | zero => rfl
  | succ m ih =>
    simp only [payloadLoop, readIn_of_noSourceFailure h,
      readIn_of_noSourceFailure (inspected_noSourceFailure h), advanced_inspected]
    by_cases hend : s.inLen.toNat ≤ s.ipos.toNat
    · have hend' : (inspected st size id k s).inLen.toNat ≤ (inspected st size id k s).ipos.toNat := hend
      simp only [if_pos hend, if_pos hend']
      rfl
    · have hend' : ¬(inspected st size id k s).inLen.toNat ≤ (inspected st size id k s).ipos.toNat := hend
      have hbyte := samplingKeeps_noSourceFailure.runByte_ends (memRead s s.ipos.toNat) (advanced s)
        (samplingKeeps_noSourceFailure.read s h (Nat.not_le.1 hend))
      simp only [if_neg hend, if_neg hend']
      rw [← hbyte.map_andThen fun t ht => ih ht]
      exact congrArg (·.andThen (payloadLoop m)) (runByte_inspected _ (advanced s))

/-- PAYLOAD starts at `IPOS = 0`, wherever the inspection left it. -/
theorem runPayload_inspected (h : NoSourceFailure s) :
    runPayload (inspected st size move k s) = (runPayload s).map (inspected st size id k) :=
  payloadLoop_inspected s.inLen.toNat (s := { s with ipos := 0#32 }) h

/-! ### ENCODE -/

/-- ENCODE as far as its leader. -/
def encodeLeader (s : State) : Run := (((runInit s).andThen runOpen).andThen runGap).andThen runLeader

/-- ENCODE from its payload on. -/
def encodePayload (s : State) : Run :=
  (runPayload s).andThen fun s => (runGap s).andThen runClose

theorem runEncode_eq (s : State) : runEncode s = (encodeLeader s).andThen encodePayload := by
  simp only [runEncode, encodeLeader, Run.andThen_assoc]
  rfl

theorem encodeLeader_inspected : Commutes (inspected st size move k) encodeLeader :=
  ((Commutes.andThen (fun _ => rfl) runOpen_inspected).andThen runGap_inspected).andThen runLeader_inspected

theorem encodePayload_inspected (h : NoSourceFailure s) :
    encodePayload (inspected st size move k s) = (encodePayload s).map (inspected st size id k) := by
  rw [encodePayload, runPayload_inspected h]
  exact (runGap_inspected.andThen runClose_inspected).map_andThen (runPayload s)

theorem runOpen_noSourceFailure (h : NoSourceFailure s) : (runOpen s).Ends NoSourceFailure Faulted :=
  (forEachRun_ends (fun b t ht => append_ends b t ht fun _ => rfl) _ s h).andThen fun _ ht => ht

theorem encodeLeader_noSourceFailure (h : NoSourceFailure s) :
    (encodeLeader s).Ends NoSourceFailure Faulted :=
  ((runOpen_noSourceFailure (s := { s with lp := 0#64, hp := 0#64, lvl := lvlReset }) h).andThen
    fun _ => samplingKeeps_noSourceFailure.runGap_ends).andThen
    fun _ => samplingKeeps_noSourceFailure.runLeader_ends

/-- ENCODE after an inspection leaves what it leaves without one, but for what the inspection recorded and the
answers it used; `IPOS` still shows the inspection only if ENCODE raised before its payload. -/
theorem runEncode_inspected (h : NoSourceFailure s) : ∃ move' : Word32 → Word32,
    (runEncode (inspected st size move k s)).state = inspected st size move' k (runEncode s).state ∧
      ((runEncode s).state.fault = false → move' = id) := by
  rw [runEncode_eq, runEncode_eq, encodeLeader_inspected s]
  have hleader := encodeLeader_noSourceFailure h
  generalize encodeLeader s = r at hleader
  cases r with
  | done t => exact ⟨id, by rw [Run.map, Run.done_andThen, Run.done_andThen,
      encodePayload_inspected hleader, Run.state_map], fun _ => rfl⟩
  | raised t => exact ⟨move, rfl, fun hf => absurd (hf.symm.trans hleader) (by decide)⟩

end

theorem accept_of_exec {i : Instr} {t : State} (h : exec i s = .next t) : accept i (runOf i) s = t :=
  Host.Outcome.next.inj ((exec_eq i s).symm.trans h)

theorem execAll_encode (h : Accepted .encode s) : execAll [.encode] s = (runEncode s).state := by
  rw [execAll_cons, accept_of_exec (exec_accepted h)]
  rfl

/-- ENCODE is legal where INSPECT is, and needs the sink besides. -/
theorem accepted_inspect_of_encode (h : Accepted .encode s) : Accepted .inspect s := by
  obtain ⟨hfault, -, hlegal, hsrc, -⟩ := h
  exact ⟨hfault, rfl, hlegal, hsrc, by simp [needsSink]⟩

theorem accept_inspect_inspected (ha : Accepted .inspect s) (hf : NoSourceFailure s) :
    ∃ st size p k, accept .inspect (runOf .inspect) s = inspected st size (fun _ => p) k s :=
  ⟨_, _, _, _, accept_of_exec (inspectFollowsTheTable s ha hf)⟩

/-- Settles O50: INSPECT leaves an update of its own registers, which ENCODE does not notice. -/
theorem inspectionDoesNotChangeTheTape : Obligations.InspectionDoesNotChangeTheTape := by
  intro s hf ha t u
  obtain ⟨st, size, p, k, hinspect⟩ := accept_inspect_inspected (accepted_inspect_of_encode ha) hf
  have hencode : Accepted .encode (inspected st size (fun _ => p) k s) := ha
  obtain ⟨move, hrun, hmove⟩ :=
    runEncode_inspected (st := st) (size := size) (move := fun _ => p) (k := k) hf
  rw [← execAll_encode hencode, ← execAll_encode ha] at hrun
  rw [← execAll_encode ha] at hmove
  have ht : t = inspected st size move k u := by
    rw [← hrun, ← hinspect]
    exact execAll_cons ..
  rw [ht]
  refine ⟨rfl, rfl, rfl, rfl, rfl, rfl, rfl, rfl, fun hfault => ?_⟩
  rw [hmove hfault]
  rfl

end Sys2Proof.Machine
end

section
/-! PROOFS. Correct rounding stays between finite values, and what is finite is exact: the filter's constants,
the integers it converts, and the sample byte (00_scope.md R13, 41_filter.md R121, R123, R125,
30_encoding.md R92). -/

namespace Sys2Proof.Machine

/-! ### Results between finite values -/

theorem f64Mag_lt_overflow {x : Binary64} (hx : f64IsFinite x = true) :
    f64Mag x < (2 ^ 54 - 1) * 2 ^ 2044 := by
  obtain ⟨m, k, hm, hm53, hk⟩ := f64Mag_significand x hx
  calc f64Mag x = m * 2 ^ k := hm
    _ ≤ (2 ^ 53 - 1) * 2 ^ 2045 := Nat.mul_le_mul (by omega) (Nat.pow_le_pow_right (by omega) hk)
    _ < (2 ^ 54 - 1) * 2 ^ 2044 := by
      have := Nat.two_pow_pos 2044
      have := pow_succ' 2 2044
      omega

variable {r a b : Binary64} {v : Int} {e : Nat}

/-- A correctly rounded result lies between any two finite values that the exact result lies between. -/
theorem CorrectlyRounded.between (h : CorrectlyRounded r v e) (ha : f64IsFinite a = true)
    (hb : f64IsFinite b = true) (hav : f64Units a * 2 ^ e ≤ v) (hvb : v ≤ f64Units b * 2 ^ e) :
    f64IsFinite r = true ∧ f64Units a ≤ f64Units r ∧ f64Units r ≤ f64Units b := by
  obtain ⟨hfin, hnear⟩ := h
  have hf : f64IsFinite r = true := by
    have hlt : ∀ x, f64IsFinite x = true →
        (f64Units x * 2 ^ e).natAbs < (2 ^ 54 - 1) * 2 ^ (2044 + e) := by
      intro x hx
      rw [Int.natAbs_mul, f64Units_natAbs, Int.natAbs_pow, pow_add, ← mul_assoc]
      exact Nat.mul_lt_mul_of_pos_right (f64Mag_lt_overflow hx) (Nat.two_pow_pos e)
    have := hlt a ha
    have := hlt b hb
    rw [hfin]
    omega
  have hpos : (0 : Int) < 2 ^ e := by positivity
  obtain ⟨hra, -⟩ := hnear hf a ha
  obtain ⟨hrb, -⟩ := hnear hf b hb
  exact ⟨hf, le_of_mul_le_mul_right (by omega) hpos, le_of_mul_le_mul_right (by omega) hpos⟩

/-- What a finite pattern represents is not changed by rounding. -/
theorem CorrectlyRounded.exact (h : CorrectlyRounded r v e) (ha : f64IsFinite a = true)
    (hav : f64Units a * 2 ^ e = v) : f64IsFinite r = true ∧ f64Units r = f64Units a := by
  obtain ⟨hf, hle, hge⟩ := h.between ha ha hav.le hav.ge
  exact ⟨hf, le_antisymm hge hle⟩

/-! ### The constants -/

theorem f64_integer (n : Int) (hn : n.natAbs < 2 ^ 53) :
    ∃ z, f64IsFinite z = true ∧ f64Units z = n * 2 ^ 1074 := by
  obtain ⟨z, hz, hu⟩ := f64_representable 1074 n.natAbs hn (by omega)
  rw [Nat.cast_mul, Nat.cast_pow, Nat.cast_two] at hu
  rcases Int.natAbs_eq n with h | h
  · exact ⟨z, hz, by rw [hu, ← h]⟩
  · obtain ⟨hfin, hneg⟩ := f64Neg_units z hz
    exact ⟨f64Neg z, hfin, by rw [hneg, hu, ← neg_mul, ← h]⟩

/-- `real(n)` is the exact count of units, rounded once. -/
theorem f64OfInt_correctlyRounded (n : Int) : CorrectlyRounded (f64OfInt n) (n * 2 ^ 1074) 0 := by
  have h := f64Round_correctlyRounded (decide (n < 0)) (n.natAbs * 2 ^ 1074) 0
  have hv : (if decide (n < 0) = true then -((n.natAbs * 2 ^ 1074 : Nat) : Int)
      else (n.natAbs * 2 ^ 1074 : Nat)) = n * 2 ^ 1074 := by
    rw [Nat.cast_mul, Nat.cast_pow, Nat.cast_two, ← neg_mul, ← ite_mul]
    congr 1
    simp only [decide_eq_true_eq]
    omega
  rwa [hv] at h

theorem f64OfInt_exact (n : Int) (hn : n.natAbs < 2 ^ 53) :
    f64IsFinite (f64OfInt n) = true ∧ f64Units (f64OfInt n) = n * 2 ^ 1074 := by
  obtain ⟨z, hz, hu⟩ := f64_integer n hn
  rw [← hu]
  exact (f64OfInt_correctlyRounded n).exact hz (by rw [pow_zero, mul_one, hu])

theorem f64Units_of_fields {x : Binary64} {k : Nat} (hs : f64Sign x = false) (he : f64Expo x = k + 1) :
    f64Units x = (2 ^ 52 + f64Frac x : Nat) * 2 ^ k := by
  rw [f64Units, hs, if_neg Bool.false_ne_true, f64Mag, he, if_neg (Nat.succ_ne_zero k),
    Nat.add_sub_cancel, Nat.cast_mul, Nat.cast_pow, Nat.cast_two]

theorem kLp_units : f64Units kLp = 5023315024369051 * 2 ^ 1021 :=
  f64Units_of_fields (by decide) (by decide)

theorem kHp_units : f64Units kHp = 8183898008301243 * 2 ^ 1014 :=
  f64Units_of_fields (by decide) (by decide)

/-- Settles O57: the coefficients are read off their fields, and an integer below 2^53 is a significand. -/
theorem filterConstantsAreExact : Obligations.FilterConstantsAreExact :=
  ⟨⟨by decide, by rw [kLp_units, mul_assoc, ← pow_add]⟩,
    ⟨by decide, by rw [kHp_units, mul_assoc, ← pow_add]⟩, f64OfInt_exact⟩


/-! ### The sample byte -/

/-- The integer part toward zero is the truncated quotient by the units of 1. -/
theorem f64Trunc_eq_tdiv (x : Binary64) : f64Trunc x = (f64Units x).tdiv (2 ^ 1074) := by
  have hpow : (2 ^ 1074 : Int) = (2 ^ 1074 : Nat) := (Nat.cast_pow 2 1074).symm
  rw [f64Trunc, f64Units, hpow]
  cases f64Sign x
  · exact Int.ofNat_tdiv _ _
  · rw [if_pos rfl, if_pos rfl, Int.neg_tdiv, Int.ofNat_tdiv]

theorem f64Trunc_of_units_eq {x : Binary64} {n : Int} (h : f64Units x = n * 2 ^ 1074) :
    f64Trunc x = n := by
  rw [f64Trunc_eq_tdiv, h, Int.mul_tdiv_cancel _ (by positivity)]

theorem f64Trunc_mono {x y : Binary64} (h : f64Units x ≤ f64Units y) : f64Trunc x ≤ f64Trunc y := by
  rw [f64Trunc_eq_tdiv, f64Trunc_eq_tdiv]
  exact Int.tdiv_le_tdiv (by positivity) h

theorem f64Lt_iff {x y : Binary64} (hx : f64IsFinite x = true) (hy : f64IsFinite y = true) :
    f64Lt x y = true ↔ f64Units x < f64Units y := by
  simp [f64Lt, f64IsNaN_of_finite hx, f64IsNaN_of_finite hy]

/-- The value `ToByte` truncates (41_filter.md R123, first line). -/
def clamped (y : Binary64) : Binary64 :=
  let c := if f64Lt y (f64OfInt (-clip)) then f64OfInt (-clip) else y
  if f64Lt (f64OfInt clip) c then f64OfInt clip else c

theorem toByte_eq {y : Binary64} (hy : f64IsFinite y = true) :
    toByte y = BitVec.ofInt 8 (f64Trunc (clamped y)) ^^^ offsetMask := by
  rw [toByte, f64IsNaN_of_finite hy, if_neg Bool.false_ne_true, clamped]

/-- Clamping the value before the truncation is clamping the integer part. -/
theorem f64Trunc_clamped {y : Binary64} (hy : f64IsFinite y = true) :
    f64Trunc (clamped y) = max (-clip) (min clip (f64Trunc y)) := by
  obtain ⟨hlo, hloU⟩ := f64OfInt_exact (-clip) (by decide)
  obtain ⟨hhi, hhiU⟩ := f64OfInt_exact clip (by decide)
  have hloT := f64Trunc_of_units_eq hloU
  have hhiT := f64Trunc_of_units_eq hhiU
  have hord : ¬ f64Units (f64OfInt clip) < f64Units (f64OfInt (-clip)) := by
    rw [hloU, hhiU, not_lt]
    exact mul_le_mul_of_nonneg_right (by decide) (by positivity)
  have hclip : -clip ≤ clip := by decide
  unfold clamped
  simp only [f64Lt_iff hy hlo]
  split
  case isTrue h =>
    have := f64Trunc_mono h.le
    rw [if_neg (by rwa [f64Lt_iff hhi hlo])]
    omega
  case isFalse h =>
    have := f64Trunc_mono (not_lt.1 h)
    simp only [f64Lt_iff hhi hy]
    split
    case isTrue h' =>
      have := f64Trunc_mono h'.le
      omega
    case isFalse h' =>
      have := f64Trunc_mono (not_lt.1 h')
      omega

/-- The offset adds 128 to a byte read in two's complement. -/
theorem xor_offsetMask_toNat (b : Byte) : ((b ^^^ offsetMask).toNat : Int) = b.toInt + 128 := by
  revert b
  decide

/-- Settles O21: the clamped integer part is that of a byte in two's complement, and never -128. -/
theorem sampleByteIsClampedAndOffset : Obligations.SampleByteIsClampedAndOffset := by
  intro y hy
  have hbyte : ((toByte y).toNat : Int) = 128 + max (-127) (min 127 (f64Trunc y)) := by
    rw [toByte_eq hy, f64Trunc_clamped hy, xor_offsetMask_toNat, clip, BitVec.toInt_ofInt_eq_self (by decide)
      (by omega) (by omega), add_comm]
  refine ⟨hbyte, fun h => ?_⟩
  rw [h] at hbyte
  simp at hbyte
  omega

end Sys2Proof.Machine
end

section
/-! PROOFS. The range of the filter: an update leaves an accumulator between its old value and the target, and
so the output needs no clamp (41_filter.md R122, R123, R126). -/

namespace Sys2Proof.Machine

variable {r a b : Binary64} {v : Int} {e : Nat}

/-! ### One update of an accumulator -/

/-- `t` lies between 0 and `v`, on the side of `v`. -/
def Within (t v : Int) : Prop := (0 ≤ t ∧ t ≤ v) ∨ (v ≤ t ∧ t ≤ 0)

/-- A finite value is at most a fifth away from any value far below overflow, on the side of 0: the 53
leading bits. -/
theorem exists_finite_within (v : Int) (hv : v.natAbs < 2 ^ 2000) :
    ∃ z, f64IsFinite z = true ∧ Within (f64Units z) v ∧ Within (4 * v) (5 * f64Units z) := by
  obtain ⟨hlt, hle⟩ := log2_sub_bounds v.natAbs 0
  rw [Nat.zero_max] at hlt hle
  have hk : v.natAbs.log2 - 52 ≤ 2000 := by
    by_cases h0 : v.natAbs = 0
    · simp [h0]
    · have := (Nat.log2_lt h0).2 hv
      omega
  generalize v.natAbs.log2 - 52 = k at *
  have hdiv := Nat.div_add_mod' v.natAbs (2 ^ k)
  have hmod := Nat.mod_lt v.natAbs (Nat.two_pow_pos k)
  have hc : v.natAbs / 2 ^ k < 2 ^ 53 := (Nat.div_lt_iff_lt_mul (Nat.two_pow_pos k)).2 hlt
  obtain ⟨z, hz, hu⟩ := f64_representable k _ hc hk
  have hnear : 4 * v.natAbs ≤ 5 * (v.natAbs / 2 ^ k * 2 ^ k) := by
    rcases hle with rfl | hle <;> omega
  rcases le_total 0 v with h | h
  · exact ⟨z, hz, .inl (by omega), .inl (by omega)⟩
  · obtain ⟨hfin, hneg⟩ := f64Neg_units z hz
    exact ⟨f64Neg z, hfin, .inr (by omega), .inr (by omega)⟩


theorem Within.mul {d z k u : Int} (h : Within (2 * d) (3 * z)) (hk : 0 ≤ k) (hku : 3 * k ≤ 2 * u) :
    Within (d * k) (z * u) := by
  rcases h with ⟨h0, h⟩ | ⟨h, h0⟩
  · have := mul_le_mul h hku (by omega) (by omega)
    exact .inl ⟨mul_nonneg (by omega) hk, by linarith⟩
  · have := mul_le_mul (neg_le_neg h) hku (by omega) (by omega)
    exact .inr ⟨by linarith, mul_nonpos_of_nonpos_of_nonneg (by omega) hk⟩

theorem CorrectlyRounded.within (h : CorrectlyRounded r v e) (ha : f64IsFinite a = true)
    (hv : Within v (f64Units a * 2 ^ e)) : f64IsFinite r = true ∧ Within (f64Units r) (f64Units a) := by
  have h0 : f64IsFinite 0#64 = true := by decide
  have hu : f64Units 0#64 = 0 := by decide
  rcases hv with ⟨hv0, hv⟩ | ⟨hv, hv0⟩
  · obtain ⟨hf, hge, hle⟩ := h.between h0 ha (by rwa [hu, zero_mul]) hv
    exact ⟨hf, .inl ⟨hu ▸ hge, hle⟩⟩
  · obtain ⟨hf, hge, hle⟩ := h.between ha h0 hv (by rwa [hu, zero_mul])
    exact ⟨hf, .inr ⟨hge, hu ▸ hle⟩⟩

/-- The difference of two finite values of the same sign does not overflow. -/
theorem fsub_finite {x y : Binary64} (hx : f64IsFinite x = true) (hy : f64IsFinite y = true)
    (hx0 : 0 ≤ f64Units x) (hy0 : 0 ≤ f64Units y) : f64IsFinite (fsub x y) = true := by
  obtain ⟨hneg, hunits⟩ := f64Neg_units y hy
  exact ((fsub_correctlyRounded hx hy).between hneg hx (by omega) (by omega)).1

/-- A coefficient of an update: between 0 and 2/3, as both of the filter are. -/
structure SmoothingCoefficient (k : Binary64) : Prop where
  finite : f64IsFinite k = true
  nonneg : 0 ≤ f64Units k
  le_two_thirds : 3 * f64Units k ≤ 2 * 2 ^ 1074

theorem SmoothingCoefficient.of_units {k : Binary64} {m : Int} {i j : Nat} (hf : f64IsFinite k = true)
    (hu : f64Units k = m * 2 ^ j) (hm0 : 0 ≤ m) (hij : i + j = 1074) (hm : 3 * m ≤ 2 * 2 ^ i) :
    SmoothingCoefficient k where
  finite := hf
  nonneg := hu ▸ mul_nonneg hm0 (by positivity)
  le_two_thirds := by
    rw [hu, ← hij, pow_add, ← mul_assoc, ← mul_assoc]
    exact mul_le_mul_of_nonneg_right hm (by positivity)

theorem kLp_smoothing : SmoothingCoefficient kLp :=
  .of_units (i := 53) (by decide) kLp_units (by decide) rfl (by decide)

theorem kHp_smoothing : SmoothingCoefficient kHp :=
  .of_units (i := 60) (by decide) kHp_units (by decide) rfl (by decide)

variable {k target x y : Binary64} {A : Int}

theorem f64Between.nonneg (h : f64Between 0 A x) : 0 ≤ f64Units x := by
  simpa only [zero_mul] using h.2.1

theorem f64Between.distance_lt (hA : A < 2 ^ 53) (hx : f64Between 0 A x) (hy : f64Between 0 A y) :
    (f64Units x - f64Units y).natAbs < 2 ^ 2000 := by
  have hx0 := hx.nonneg
  have hy0 := hy.nonneg
  obtain ⟨-, -, hxA⟩ := hx
  obtain ⟨-, -, hyA⟩ := hy
  have hbound : A * 2 ^ 1074 < 2 ^ 53 * 2 ^ 1074 := mul_lt_mul_of_pos_right hA (by positivity)
  have hpow : (2 : Int) ^ 53 * 2 ^ 1074 ≤ 2 ^ 2000 := by
    rw [← pow_add]
    exact pow_le_pow_right₀ (by decide) (by decide)
  omega

/-- What an update adds to the accumulator does not pass the target. There is a finite value `z` between the
accumulator's distance to the target and 4/5 of it. The rounded difference is no farther from the distance
than `z` is, so it is at most 3/2 of `z`; the exact product then is at most `z`, and so is the rounded one. -/
theorem correction_within (hk : SmoothingCoefficient k) (hA : A < 2 ^ 53) (ht : f64Between 0 A target)
    (hx : f64Between 0 A x) :
    f64IsFinite (fmul (fsub target x) k) = true ∧
      Within (f64Units (fmul (fsub target x) k)) (f64Units target - f64Units x) := by
  obtain ⟨z, hz, hzv, hvz⟩ := exists_finite_within _ (ht.distance_lt hA hx)
  have hd := fsub_finite ht.1 hx.1 ht.nonneg hx.nonneg
  have hdz : Within (2 * f64Units (fsub target x)) (3 * f64Units z) := by
    obtain ⟨-, hnear⟩ := fsub_correctlyRounded ht.1 hx.1
    obtain ⟨hle, -⟩ := hnear hd z hz
    rw [pow_zero, mul_one, mul_one] at hle
    unfold Within at *
    omega
  obtain ⟨hm, hmz⟩ :=
    (fmul_correctlyRounded hd hk.finite).within hz (hdz.mul hk.nonneg hk.le_two_thirds)
  refine ⟨hm, ?_⟩
  unfold Within at *
  omega

/-- An update leaves the accumulator between its old value and the target. -/
theorem update_bounded (hk : SmoothingCoefficient k) (hA : A < 2 ^ 53) (ht : f64Between 0 A target)
    (hx : f64Between 0 A x) : f64Between 0 A (fadd x (fmul (fsub target x) k)) := by
  obtain ⟨hm, hw⟩ := correction_within hk hA ht hx
  have hr := fadd_correctlyRounded hx.1 hm
  obtain ⟨htf, ht0, htA⟩ := ht
  obtain ⟨hxf, hx0, hxA⟩ := hx
  rcases hw with ⟨h0, h⟩ | ⟨h, h0⟩
  · obtain ⟨hf, hge, hle⟩ := hr.between hxf htf (by omega) (by omega)
    exact ⟨hf, hx0.trans hge, hle.trans htA⟩
  · obtain ⟨hf, hge, hle⟩ := hr.between htf hxf (by omega) (by omega)
    exact ⟨hf, ht0.trans hge, hle.trans hxA⟩

/-! ### The filter in its range -/

variable {g : BitVec 3}

theorem gainAmp_bounds (g : BitVec 3) : 0 ≤ gainAmp g ∧ gainAmp g ≤ 105 := by
  revert g
  decide

theorem selAmp_between (g : BitVec 3) (sel : Bool) : f64Between 0 (gainAmp g) (f64OfInt (selAmp g sel)) := by
  obtain ⟨h0, h105⟩ := gainAmp_bounds g
  have hsel : 0 ≤ selAmp g sel ∧ selAmp g sel ≤ gainAmp g := by
    cases sel
    · exact ⟨le_rfl, h0⟩
    · exact ⟨h0, le_rfl⟩
  obtain ⟨hf, hu⟩ := f64OfInt_exact (selAmp g sel) (by omega)
  have hpos : (0 : Int) ≤ 2 ^ 1074 := by positivity
  exact ⟨hf, hu ▸ mul_le_mul_of_nonneg_right hsel.1 hpos, hu ▸ mul_le_mul_of_nonneg_right hsel.2 hpos⟩

theorem nextLp_between (sel : Bool) {lp : Binary64} (h : f64Between 0 (gainAmp g) lp) :
    f64Between 0 (gainAmp g) (nextLp (selAmp g sel) lp) := by
  unfold nextLp
  have := gainAmp_bounds g
  exact update_bounded kLp_smoothing (by omega) (selAmp_between g sel) h

theorem nextHp_between {lp hp : Binary64} (hlp : f64Between 0 (gainAmp g) lp)
    (hhp : f64Between 0 (gainAmp g) hp) : f64Between 0 (gainAmp g) (nextHp lp hp) := by
  unfold nextHp
  have := gainAmp_bounds g
  exact update_bounded kHp_smoothing (by omega) hlp hhp

/-- The difference of the accumulators is between the amplitude and its negative, which are finite values. -/
theorem fsub_between {lp hp : Binary64} (hlp : f64Between 0 (gainAmp g) lp)
    (hhp : f64Between 0 (gainAmp g) hp) : f64Between (-gainAmp g) (gainAmp g) (fsub lp hp) := by
  obtain ⟨h0, h105⟩ := gainAmp_bounds g
  obtain ⟨hlo, hloU⟩ := f64OfInt_exact (-gainAmp g) (by omega)
  obtain ⟨hhi, hhiU⟩ := f64OfInt_exact (gainAmp g) (by omega)
  have hlp0 := hlp.nonneg
  have hhp0 := hhp.nonneg
  obtain ⟨hlpf, -, hlpA⟩ := hlp
  obtain ⟨hhpf, -, hhpA⟩ := hhp
  rw [f64Between, ← hloU, ← hhiU]
  rw [neg_mul] at hloU
  exact (fsub_correctlyRounded hlpf hhpf).between hlo hhi (by omega) (by omega)

theorem f64Trunc_between {lo hi : Int} (h : f64Between lo hi y) :
    lo ≤ f64Trunc y ∧ f64Trunc y ≤ hi := by
  obtain ⟨-, hlo, hhi⟩ := h
  have hpos : (2 : Int) ^ 1074 ≠ 0 := by positivity
  rw [f64Trunc_eq_tdiv, ← Int.mul_tdiv_cancel lo hpos, ← Int.mul_tdiv_cancel hi hpos]
  exact ⟨Int.tdiv_le_tdiv (by positivity) hlo, Int.tdiv_le_tdiv (by positivity) hhi⟩

/-- Settles O17: the new accumulators are in the range, and the amplitude is below the clamp bound. -/
theorem clampNeverEngages : Obligations.ClampNeverEngages := by
  intro s sel h lp y
  have hlp : f64Between 0 (gainAmp s.cfgGain) lp := nextLp_between sel h.lp_bounded
  have hy : f64Between (-gainAmp s.cfgGain) (gainAmp s.cfgGain) y :=
    fsub_between hlp (nextHp_between hlp h.hp_bounded)
  obtain ⟨hlo, hhi⟩ := f64Trunc_between hy
  have := gainAmp_bounds s.cfgGain
  have hclamp : max (-clip) (min clip (f64Trunc y)) = f64Trunc y := by
    unfold clip
    omega
  exact ⟨hy, by rw [toByte_eq hy.1, f64Trunc_clamped hy.1, hclamp, offsetMask]⟩

end Sys2Proof.Machine
end

section
/-! PROOFS. The filter invariant along a run: every command gives the filter only the two levels FILTER
selects, INIT and RESET clear it, and the gain is written only before the first command (41_filter.md R126). -/

namespace Sys2Proof.Machine

/-- The filter invariant inside a command. -/
structure FilterRunning (s : State) : Prop where
  started : s.started = true
  lp_bounded : f64Between 0 (gainAmp s.cfgGain) s.lp
  hp_bounded : f64Between 0 (gainAmp s.cfgGain) s.hp

/-- The run ends in the filter's range, whether or not it raises. -/
def Run.InRange (r : Run) : Prop := r.Ends FilterRunning FilterRunning

variable {s t : State}

theorem FilterRunning.filterInv (h : FilterRunning s) : FilterInv s :=
  { h with not_started := by simp [h.started] }

theorem FilterInv.running (h : FilterInv s) (hs : s.started = true) : FilterRunning s :=
  { h with started := hs }

/-! ### The samples, at the levels a command can select

`SamplingKeeps` speaks of a sample of any level; the range is kept only by the two that FILTER selects. -/

theorem sample_inRange (sel : Bool) (h : FilterRunning s) : (sample (selAmp s.cfgGain sel) s).InRange :=
  have hlp := nextLp_between sel h.lp_bounded
  have hf : FilterRunning (filtered (selAmp s.cfgGain sel) s) :=
    { started := h.started
      lp_bounded := hlp
      hp_bounded := nextHp_between hlp h.hp_bounded }
  sample_ends _ s (fun _ _ => { hf with }) fun _ => { hf with }

/-- The amplitude of the level flag is one of the two FILTER selects, `AMP_LOW` being 0 (decision D7). -/
theorem amp_eq_selAmp (s : State) : amp s = selAmp s.cfgGain s.lvl := rfl

theorem half_inRange (n : Nat) (h : FilterRunning s) : (half n s).InRange :=
  (repeatRun_ends (fun t ht => amp_eq_selAmp t ▸ sample_inRange t.lvl ht) n s h).andThen
    fun _ ht => { ht with }

theorem runBit_inRange (b : Bool) (s : State) (h : FilterRunning s) : (runBit b s).InRange := by
  cases b with
  | false => exact half_inRange _ h
  | true => exact (half_inRange _ h).andThen fun _ => half_inRange _

theorem runByte_inRange (v : Byte) (s : State) (h : FilterRunning s) : (runByte v s).InRange :=
  forEachRun_ends runBit_inRange _ s h

theorem runGap_inRange (h : FilterRunning s) : (runGap s).InRange :=
  repeatRun_ends (fun _ => sample_inRange false) _ s h

theorem runLeader_inRange (h : FilterRunning s) : (runLeader s).InRange :=
  repeatRun_ends (runByte_inRange leaderByte) _ s h

theorem runPayload_inRange (h : FilterRunning s) : (runPayload s).InRange :=
  payloadLoop_ends runByte_inRange (fun _ ht _ => { ht with }) (fun _ ht _ => { ht with }) _ _ { h with }

/-! ### The other commands -/

theorem runInit_inRange (h : FilterRunning s) : (runInit s).InRange where
  started := h.started
  lp_bounded := f64Between_zero _
  hp_bounded := f64Between_zero _

theorem runInspect_inRange (h : FilterRunning s) : (runInspect s).InRange :=
  runInspect_ends (fun _ _ _ ht => { ht with }) (fun _ _ _ ht => { ht with }) (fun _ _ ht => { ht with }) s h

theorem runOpen_inRange (h : FilterRunning s) : (runOpen s).InRange :=
  (forEachRun_ends (fun b t ht => append_ends b t { ht with } fun _ => { ht with }) _ s h).andThen
    fun _ ht => { ht with }

theorem patch_inRange (a : Nat) (v : List Byte) (h : FilterRunning s) : (patch a v s).InRange :=
  patch_ends a v s { h with } fun _ => { h with }

theorem runClose_inRange (h : FilterRunning s) : (runClose s).InRange :=
  (patch_inRange 4 _ h).andThen fun _ ht => (patch_inRange 40 _ ht).andThen fun _ hu => { hu with }

theorem runEncode_inRange (h : FilterRunning s) : (runEncode s).InRange :=
  ((((((runInit_inRange h).andThen fun _ => runOpen_inRange).andThen fun _ => runGap_inRange).andThen
    fun _ => runLeader_inRange).andThen fun _ => runPayload_inRange).andThen
    fun _ => runGap_inRange).andThen fun _ => runClose_inRange

theorem runOf_inRange (i : Instr) (h : FilterRunning s) : (runOf i s).InRange := by
  cases i with
  | init => exact runInit_inRange h
  | inspect => exact runInspect_inRange h
  | openSink => exact runOpen_inRange h
  | filter arg => exact sample_inRange (argBit arg) h
  | bit arg => exact runBit_inRange (argBit arg) s h
  | byte v => exact runByte_inRange v s h
  | gap => exact runGap_inRange h
  | leader => exact runLeader_inRange h
  | payload => exact runPayload_inRange h
  | closeSink => exact runClose_inRange h
  | encode => exact runEncode_inRange h

/-! ### The step -/

theorem accept_filterRunning (i : Instr) (h : FilterRunning s) : FilterRunning (accept i (runOf i) s) := by
  rcases accept_cases i (runOf i) s with ⟨_, he⟩ | ⟨_, _, _, he⟩ | ⟨_, _, _, _, _, he⟩ <;> rw [he]
  · exact h
  · exact { h with }
  · exact (runOf_inRange i h).state

theorem rejectWord_filterRunning (h : FilterRunning s) : FilterRunning (rejectWord s) := by
  unfold rejectWord
  split
  next => exact h
  next => exact { h with }

/-- A gain can be written only while the accumulators are +0, which is in the range of every gain. -/
theorem FilterInv.writeGain (h : FilterInv s) (hs : s.started = false) (g : BitVec 3) :
    FilterInv { s with cfgGain := g } := by
  obtain ⟨hlp, hhp⟩ := h.not_started hs
  exact {
    lp_bounded := hlp ▸ f64Between_zero g
    hp_bounded := hhp ▸ f64Between_zero g
    not_started := h.not_started }

theorem hostMove_filterInv {m : HostMove} (h : FilterInv s) (ht : hostMove m s = .next t) :
    FilterInv t := by
  cases m with
  | command w =>
    have hs : FilterRunning { s with started := true } := { h with started := rfl }
    rcases presentCommand_next ht with ⟨i, _, rfl⟩ | ⟨_, _, rfl⟩
    · exact (accept_filterRunning i hs).filterInv
    · exact (rejectWord_filterRunning hs).filterInv
  | reset =>
    cases ht
    exact {
      lp_bounded := f64Between_zero _
      hp_bounded := f64Between_zero _
      not_started := fun _ => ⟨rfl, rfl⟩ }
  | writeGain g =>
    obtain ⟨hs, rfl⟩ := beforeFirstCommand_next ht
    exact h.writeGain hs g
  | writeSrate | writeInLen | writeImage =>
    obtain ⟨_, rfl⟩ := beforeFirstCommand_next ht
    exact { h with }
  | drivePins src snk =>
    cases ht
    exact { h with }

/-- Settles O16: each update leaves its accumulator between the old value and a target in the range. -/
theorem stepKeepsTheFilterBounded : Obligations.StepKeepsTheFilterBounded := by
  intro s t h ht
  rcases step_next_cases ht with ⟨_, rfl⟩ | ⟨m, rest, _, hm⟩
  · exact h
  · exact hostMove_filterInv (s := { s with hostQ := rest }) { h with } hm

end Sys2Proof.Machine
end

section
/-! PROOFS. The sample commands, whether or not they fail: what a sample computes and appends, what is left at
a sample that fails, and what FILTER, GAP, BIT, BYTE and LEADER do not change (00_scope.md R17,
20_memory.md R56, 41_filter.md R122, R124, 42_modulator.md R138, R139, 43_framing.md R153, R154). -/

namespace Sys2Proof.Machine

variable {s t : State}

/-! ### One sample -/

/-- Settles O20: the two updates and the output byte, opened. -/
theorem filterComputesTheRecurrence : Obligations.FilterComputesTheRecurrence := by
  intro level s
  simp only [toneFilter, nextLp, nextHp]

theorem forEachRun_sample_singleton (l : Int) (s : State) : forEachRun [l] sample s = sample l s := by
  rw [forEachRun_cons]
  cases sample l s <;> rfl

theorem selAmp_argBit {arg : BitVec 8} (h : (Instr.filter arg).wellFormed = true) (g : BitVec 3) :
    selAmp g (argBit arg) = if arg = 1#8 then gainAmp g else 0 := by
  rcases (oneBitArg_iff arg).1 h with rfl | rfl <;> rfl

/-- Settles O35: the rule of FILTER is one sample. -/
theorem filterAppendsOneSample : Obligations.FilterAppendsOneSample := by
  intro s sel ha hf hr
  have ⟨_, hwf, _⟩ := ha
  have hrun : runOf (.filter sel) s = .done (emit [selAmp s.cfgGain (argBit sel)] s) :=
    sample_done _ s hr hf
  rw [exec_accepted ha, hrun, Run.state_done, selAmp_argBit hwf]

/-! ### The sample that fails -/

theorem sample_done_of_answer (l : Int) (hr : s.pos.toNat < s.sinkCap.size)
    (hf : nextAnswer s.snkFails = false) : sample l s = .done (emit [l] s) := by
  rw [sample_eq, append_done _ (filtered l s) hr hf]
  simp only [appended, filtered, emit, filterAcc, filterBytes, sampleByte, Memory.writeBytes,
    List.length_singleton, List.drop_one]

/-- The sink takes exactly `k` more bytes: append number `k` is answered by a failure of the stream, or finds
the sink full. `rest` are the answers left after it. -/
inductive SinkFailsAt (k : Nat) (rest : List Bool) (s : State) : Prop where
  | stream (room : s.pos.toNat + k < s.sinkCap.size)
      (answers : s.snkFails = List.replicate k false ++ true :: rest)
  | full (full : s.pos.toNat + k = s.sinkCap.size) (answers : NoSinkFailure s)
      (left : rest = s.snkFails.drop k)

variable {k : Nat} {rest : List Bool}

/-- The filter has run, and the append has raised (decision D29). -/
def sampleRaised (l : Int) (rest : List Bool) (s : State) : State :=
  { filtered l s with snkFails := rest, fault := true, fcause := .outputStreamFailure }

theorem SinkFailsAt.sample_zero (h : SinkFailsAt 0 rest s) (l : Int) :
    sample l s = .raised (sampleRaised l rest s) := by
  rw [sample_eq]
  cases h with
  | stream room answers =>
    have answers : (filtered l s).snkFails = true :: rest := answers
    rw [append_fails _ (filtered l s) room (by rw [answers]; rfl), answers]
    rfl
  | full full _ left =>
    rw [append_full _ (filtered l s) full.ge, left]
    rfl

theorem SinkFailsAt.sample_succ (h : SinkFailsAt (k + 1) rest s) (l : Int) :
    sample l s = .done (emit [l] s) ∧ SinkFailsAt k rest (emit [l] s) := by
  have hpos : s.pos.toNat < s.sinkCap.size := by cases h <;> omega
  have hnext : (emit [l] s).pos.toNat = s.pos.toNat + 1 := pos_succ s hpos
  cases h with
  | stream room answers =>
    rw [List.replicate_succ, List.cons_append] at answers
    exact ⟨sample_done_of_answer l hpos (by rw [answers]; rfl),
      .stream (by rw [hnext, emit_sinkCap]; omega) (by rw [emit_snkFails, answers]; rfl)⟩
  | full full answers left =>
    exact ⟨sample_done_of_answer l hpos (noSinkFailure_next s answers),
      .full (by rw [hnext, emit_sinkCap]; omega) (emit_noSinkFailure _ s answers)
        (by rw [left, emit_snkFails, List.drop_drop, List.length_singleton, Nat.add_comm])⟩

/-- The state left by a string of samples that raises at its sample number `k`: the samples before it are in
the sink, and the accumulators have taken it too. -/
def raisedAt (k : Nat) (levels : List Int) (rest : List Bool) (s : State) : State :=
  { emit (levels.take k) s with
    lp := (filterAcc s.lp s.hp (levels.take (k + 1))).1
    hp := (filterAcc s.lp s.hp (levels.take (k + 1))).2
    snkFails := rest, fault := true, fcause := .outputStreamFailure }

theorem raisedAt_zero_cons (l : Int) (ls : List Int) (rest : List Bool) (s : State) :
    raisedAt 0 (l :: ls) rest s = sampleRaised l rest s := by
  simp only [raisedAt, List.take_zero, emit_nil, List.take_succ_cons, filterAcc, sampleRaised, filtered]

theorem raisedAt_succ_cons (hr : Room 1 s) (l : Int) (ls : List Int) :
    raisedAt (k + 1) (l :: ls) rest s = raisedAt k ls rest (emit [l] s) := by
  have h := emit_append [l] (ls.take k) s hr
  rw [raisedAt, List.take_succ_cons, ← List.singleton_append, h]
  rfl

/-- A string of samples longer than the sink takes stops at the sample that fails. -/
theorem forEachRun_sample_raised (ls : List Int) : ∀ (k : Nat) (s : State), k < ls.length →
    SinkFailsAt k rest s → forEachRun ls sample s = .raised (raisedAt k ls rest s) := by
  induction ls with
  | nil => exact fun k _ hk => absurd hk (Nat.not_lt_zero k)
  | cons l ls ih =>
    intro k s hk h
    cases k with
    | zero => rw [forEachRun_cons, h.sample_zero l, Run.raised_andThen, raisedAt_zero_cons]
    | succ k =>
      obtain ⟨hdone, hnext⟩ := h.sample_succ l
      have hr : Room 1 s := by cases h <;> simp only [Room] <;> omega
      rw [forEachRun_cons, hdone, Run.done_andThen, ih k _ (Nat.lt_of_succ_lt_succ hk) hnext,
        raisedAt_succ_cons hr]

/-- Settles O36: both commands are strings of samples. -/
theorem filterAndGapWriteFailure : Obligations.FilterAndGapWriteFailure := by
  intro s i levels k rest hi ha hk acc
  have hrun : runOf i s = forEachRun levels sample s := by
    rcases hi with ⟨rfl, rfl⟩ | ⟨rfl, rfl⟩ | ⟨rfl, rfl⟩
    · exact (forEachRun_sample_singleton 0 s).symm
    · exact (forEachRun_sample_singleton _ s).symm
    · exact repeatRun_eq_forEachRun sample 0 _ s
  have hraised : ∀ rest, SinkFailsAt k rest s → exec i s = .next (raisedAt k levels rest s) := by
    intro rest h
    rw [exec_accepted ha, hrun, forEachRun_sample_raised levels k s hk h, Run.state_raised]
  refine ⟨fun hroom hans => hraised rest (.stream hroom hans), fun hfull hans => ?_⟩
  rw [hraised _ (.full hfull hans rfl), raisedAt, emit, List.length_take_of_le hk.le]

/-! ### What the sample commands do not change -/

/-- `t` is `s` but for the accumulators, the level flag, the fault registers, the answers to writes, and bytes
appended to the sink. -/
structure SampleFrame (s t : State) : Prop extends SameLaunch s t where
  sess : t.sess = s.sess
  ipos : t.ipos = s.ipos
  hdrStat : t.hdrStat = s.hdrStat
  hdrSize : t.hdrSize = s.hdrSize
  srcFails : t.srcFails = s.srcFails
  pos_le : s.pos.toNat ≤ t.pos.toNat
  out_outside : ∀ a, a < s.pos.toNat ∨ t.pos.toNat ≤ a → t.out.read a = s.out.read a

/-- As `SampleFrame`, and the level flag too stays. -/
structure LevelFrame (s t : State) : Prop extends SampleFrame s t where
  lvl : t.lvl = s.lvl

theorem LevelFrame.refl (s : State) : LevelFrame s s :=
  { SameLaunch.refl s with
    sess := rfl
    ipos := rfl
    hdrStat := rfl
    hdrSize := rfl
    srcFails := rfl
    pos_le := le_rfl
    out_outside := fun _ _ => rfl
    lvl := rfl }

theorem SampleFrame.appended (h : SampleFrame s t) (hr : t.pos.toNat < t.sinkCap.size) (b : Byte) :
    SampleFrame s (appended b t) := by
  have hpos : (Machine.appended b t).pos.toNat = t.pos.toNat + 1 := pos_succ t hr
  have hle := h.pos_le
  exact { h with
    pos_le := by omega
    out_outside := fun a ha => by
      have hne : a ≠ t.pos.toNat := by omega
      calc (Machine.appended b t).out.read a = t.out.read a := by
            rw [Machine.appended, Memory.read_write, if_neg hne]
        _ = s.out.read a := h.out_outside a (by omega) }

theorem sample_sampleFrame (l : Int) (t : State) (h : SampleFrame s t) :
    (sample l t).Ends (SampleFrame s) (SampleFrame s) :=
  have hf : SampleFrame s (filtered l t) := { h with }
  sample_ends l t (fun b hr => hf.appended hr b) fun _ => { hf with }

theorem sample_levelFrame (l : Int) (t : State) (h : LevelFrame s t) :
    (sample l t).Ends (LevelFrame s) (LevelFrame s) :=
  have hf : SampleFrame s (filtered l t) := { h.toSampleFrame with }
  sample_ends l t (fun b hr => { hf.appended hr b with lvl := h.lvl }) fun _ => { hf with lvl := h.lvl }

theorem toggleLvl_sampleFrame (t : State) (h : SampleFrame s t) : SampleFrame s (toggleLvl t) := { h with }

theorem runBit_sampleFrame (b : Bool) (s : State) : (runBit b s).Ends (SampleFrame s) (SampleFrame s) :=
  runBit_ends sample_sampleFrame toggleLvl_sampleFrame b s (LevelFrame.refl s).toSampleFrame

theorem runByte_sampleFrame (v : Byte) (t : State) (h : SampleFrame s t) :
    (runByte v t).Ends (SampleFrame s) (SampleFrame s) :=
  runByte_ends sample_sampleFrame toggleLvl_sampleFrame v t h

theorem runLeader_sampleFrame (s : State) : (runLeader s).Ends (SampleFrame s) (SampleFrame s) :=
  repeatRun_ends (runByte_sampleFrame leaderByte) _ s (LevelFrame.refl s).toSampleFrame

theorem runFilter_levelFrame (arg : BitVec 8) (s : State) :
    (runFilter arg s).Ends (LevelFrame s) (LevelFrame s) :=
  sample_levelFrame _ s (LevelFrame.refl s)

theorem runGap_levelFrame (s : State) : (runGap s).Ends (LevelFrame s) (LevelFrame s) :=
  repeatRun_ends (sample_levelFrame 0) _ s (LevelFrame.refl s)

/-- The frame of a command: `SampleFrame`, and for FILTER and GAP the level flag too. -/
structure CommandFrame (i : Instr) (s t : State) : Prop extends SampleFrame s t where
  lvl : (i = .gap ∨ ∃ a, i = .filter a) → t.lvl = s.lvl

variable {i : Instr}

theorem LevelFrame.command (h : LevelFrame s t) : CommandFrame i s t := { h with lvl := fun _ => h.lvl }

theorem runOf_commandFrame (hi : i ∈ [.gap, .leader] ∨ ∃ a, i ∈ [.filter a, .bit a, .byte a])
    (s : State) :
    CommandFrame i s (runOf i s).state := by
  cases i with
  | filter arg => exact (runFilter_levelFrame arg s).state.command
  | gap => exact (runGap_levelFrame s).state.command
  | bit arg => exact { (runBit_sampleFrame (argBit arg) s).state with lvl := by simp }
  | byte v => exact { (runByte_sampleFrame v s (LevelFrame.refl s).toSampleFrame).state with lvl := by simp }
  | leader => exact { (runLeader_sampleFrame s).state with lvl := by simp }
  | init | inspect | openSink | payload | closeSink | encode => simp at hi

/-- Acceptance itself changes only the fault registers. -/
theorem accept_commandFrame {run : State → Run} (h : CommandFrame i s (run s).state) :
    CommandFrame i s (accept i run s) := by
  rcases accept_cases i run s with ⟨_, he⟩ | ⟨_, _, _, he⟩ | ⟨_, _, _, _, _, he⟩ <;> rw [he]
  · exact (LevelFrame.refl s).command
  · exact LevelFrame.command { LevelFrame.refl s with }
  · exact h

/-- Settles O52: the commands are made of samples and toggles of the level flag. -/
theorem sampleCommandsFrame : Obligations.SampleCommandsFrame := by
  intro i s t hi ht
  have h : CommandFrame i s t := accept_of_exec ht ▸ accept_commandFrame (runOf_commandFrame hi s)
  exact ⟨h.sess, h.ipos, h.cfgSrate, h.cfgGain, h.hdrStat, h.hdrSize, h.inLen, h.img, h.sinkCap,
    h.srcPresent, h.snkPresent, h.srcFails, h.hostQ, h.started, h.lvl, h.pos_le, h.out_outside⟩

end Sys2Proof.Machine
end

section
/-! PROOFS. The modulator: what BIT, BYTE and LEADER leave when they complete, and when they fail inside a
half-cycle (30_encoding.md R90, R93, 42_modulator.md R136 to R141, 43_framing.md R154). -/

namespace Sys2Proof.Machine

variable {s : State} {k : Nat} {rest : List Bool}

/-! ### Completion -/

theorem exec_bit_done {arg : BitVec 8} (ha : Accepted (.bit arg) s) (hf : NoSinkFailure s)
    (hr : Room (bitsLevels s.cfgSrate s.cfgGain s.lvl [argBit arg]).length s) :
    exec (.bit arg) s = .next (sendBits [argBit arg] s) := by
  have hrun : runOf (.bit arg) s = .done (sendBits [argBit arg] s) := runBit_done _ s hf hr
  rw [exec_accepted ha, hrun, Run.state_done]

theorem sendBits_singleton (b : Bool) (s : State) :
    sendBits [b] s = { emit (bitsLevels s.cfgSrate s.cfgGain s.lvl [b]) s with lvl := lvlAfterBit s.lvl b } :=
  rfl

/-- Settles O37: each operand is a bit string of length 1. -/
theorem bitEmitsItsHalfCycles : Obligations.BitEmitsItsHalfCycles := by
  intro s hf
  have bit0 : argBit 0#8 = false := rfl
  have bit1 : argBit 1#8 = true := rfl
  refine ⟨fun ha hr => ?_, fun ha hr => ?_⟩
  · rw [exec_bit_done ha hf (by simpa [bit0, bitsLevels_singleton] using hr), bit0, sendBits_singleton,
      bitsLevels_singleton, if_neg Bool.false_ne_true]
    rfl
  · rw [exec_bit_done ha hf (by simpa [bit1, bitsLevels_length] using hr), bit1, sendBits_singleton,
      bitsLevels_singleton, if_pos rfl]
    rfl

theorem exec_byte_done {v : Byte} (ha : Accepted (.byte v) s) (hf : NoSinkFailure s)
    (hr : Room (bitsLevels s.cfgSrate s.cfgGain s.lvl (bitsMsbFirst v)).length s) :
    exec (.byte v) s = .next (sendBits (bitsMsbFirst v) s) := by
  have hrun : runOf (.byte v) s = .done (sendBits (bitsMsbFirst v) s) := runByte_done v s hf hr
  rw [exec_accepted ha, hrun, Run.state_done]

/-- Settles O39: the rule of BYTE runs the rule of BIT for bits 7 down to 0. -/
theorem byteSendsEightBits : Obligations.ByteSendsEightBits := fun _ _ ha hf hr =>
  exec_byte_done ha hf hr

/-! ### Counting toggles and samples -/

/-- Each 0 inverts the level, and a 1 leaves it (42_modulator.md R138). -/
theorem lvlAfter_eq (bs : List Bool) : ∀ l, lvlAfter l bs = (l ^^ decide (bs.count false % 2 = 1)) := by
  induction bs with
  | nil => simp [lvlAfter]
  | cons b bs ih =>
    intro l
    have hcons : lvlAfter l (b :: bs) = lvlAfter (lvlAfterBit l b) bs := rfl
    rw [hcons, ih]
    cases b with
    | true => simp [lvlAfterBit]
    | false =>
      rcases Nat.mod_two_eq_zero_or_one (bs.count false) with h | h <;>
        simp [lvlAfterBit, Nat.add_mod, h]

theorem zeros_add_popcount (v : Byte) : (bitsMsbFirst v).count false + popcount v = 8 := by
  rw [← count_true_bitsMsbFirst]
  exact List.count_false_add_count_true _

theorem popcount_le (v : Byte) : popcount v ≤ 8 := by
  have := zeros_add_popcount v
  omega

theorem bitHalves_length (r : Word32) (l b : Bool) : (bitHalves r l b).length = 1 + b.toNat := by
  cases b <;> rfl

theorem bitsHalves_length (r : Word32) (bs : List Bool) : ∀ l,
    (bitsHalves r l bs).length = bs.length + bs.count true := by
  induction bs with
  | nil => exact fun _ => rfl
  | cons b bs ih =>
    intro l
    rw [bitsHalves, List.length_append, ih, bitHalves_length]
    cases b <;> simp <;> omega

/-- The samples of a byte with `n` bits 1 at the legal rates (42_modulator.md R141). -/
theorem byte_samples_mem (r : Word32) (hr : r ∈ legalRates) (n : Nat) (hn : n ≤ 8) :
    (r, (8 - n) * period r false + n * (2 * period r true)) ∈
      [(48000#32, 336), (44100#32, 304), (22050#32, 152 + n), (11025#32, 80), (8000#32, 56 - n)] := by
  have hperiods := periodsAndGapsOfTheLegalRates.1
  simp only [List.map_cons, List.cons.injEq, Prod.mk.injEq] at hperiods
  simp only [legalRates, List.mem_cons, List.not_mem_nil, or_false] at hr
  rcases hr with rfl | rfl | rfl | rfl | rfl <;> simp [hperiods] <;> omega

/-- Settles O24: a byte is its 8 bits, of which the `n` ones have two half-cycles and the others one. -/
theorem byteTogglesAndSamples : Obligations.ByteTogglesAndSamples := by
  refine ⟨fun s v ha hf => ?_, fun r l v => ?_⟩
  · intro n samples
    have hn : popcount v ≤ 8 := popcount_le v
    have hzeros : (bitsMsbFirst v).count false = 8 - n := Nat.eq_sub_of_add_eq (zeros_add_popcount v)
    have hlen : (bitsLevels s.cfgSrate s.cfgGain s.lvl (bitsMsbFirst v)).length = samples := by
      rw [bitsLevels_length, hzeros, count_true_bitsMsbFirst]
    refine ⟨fun hl => ?_, fun hr => ⟨_, exec_byte_done ha hf (hlen ▸ hr), ha.1, ?_, ?_⟩⟩
    · rw [launchLegal, Bool.and_eq_true, List.contains_iff_mem] at hl
      exact byte_samples_mem _ hl.1 n hn
    · rw [sendBits_pos, emit_pos, hlen, room_pos _ s hr]
    · have hparity : (8 - n) % 2 = n % 2 := by omega
      rw [sendBits_lvl, lvlAfter_eq, hzeros, hparity]
  · exact ⟨popcount_le v, by rw [bitsHalves_length, count_true_bitsMsbFirst]; rfl⟩

/-! ### A bit string as half-cycles -/

/-- The lengths of the half-cycles of a bit. -/
def bitLengths (r : Word32) (b : Bool) : List Nat :=
  if b then [period r true, period r true] else [period r false]

/-- Half-cycles of the given lengths, the level toggled after each (42_modulator.md R136). -/
def alternating : Bool → List Nat → List HalfCycle
  | _, [] => []
  | l, n :: ns => (n, l) :: alternating (!l) ns

theorem bitsHalves_eq_alternating (r : Word32) (bs : List Bool) : ∀ l,
    bitsHalves r l bs = alternating l (bs.flatMap (bitLengths r)) := by
  induction bs with
  | nil => exact fun _ => rfl
  | cons b bs ih =>
    intro l
    rw [bitsHalves, ih, List.flatMap_cons]
    cases b with
    | false => rfl
    | true =>
      simp only [bitHalves, bitLengths, lvlAfterBit, if_true, List.cons_append, List.nil_append, alternating,
        Bool.not_not]

theorem forEachRun_singleton {α : Type} (x : α) (f : α → State → Run) (s : State) :
    forEachRun [x] f s = f x s := by
  rw [forEachRun_cons]
  cases f x s <;> rfl

theorem runBit_eq_halves (b : Bool) (s : State) :
    runBit b s = forEachRun (bitLengths s.cfgSrate b) half s := by
  cases b with
  | false => exact (forEachRun_singleton _ half s).symm
  | true =>
    rw [bitLengths, if_pos rfl, forEachRun_cons]
    exact congrArg (Run.andThen _) (funext fun t => (forEachRun_singleton _ half t).symm)

theorem Run.Ends.andThen_congr {Q E : State → Prop} {r : Run} {f g : State → Run} (h : r.Ends Q E)
    (hfg : ∀ t, Q t → f t = g t) : r.andThen f = r.andThen g := by
  cases r with
  | done t => exact hfg t h
  | raised t => rfl

theorem forEachRun_runBit_eq_halves (bs : List Bool) : ∀ s,
    forEachRun bs runBit s = forEachRun (bs.flatMap (bitLengths s.cfgSrate)) half s := by
  induction bs with
  | nil => exact fun _ => rfl
  | cons b bs ih =>
    intro s
    have hrate : (runBit b s).Ends (SampleFrame s) (SampleFrame s) := runBit_sampleFrame b s
    rw [forEachRun_cons, List.flatMap_cons, forEachRun_append, ← runBit_eq_halves]
    refine hrate.andThen_congr fun t ht => ?_
    rw [ih, ht.cfgSrate]

/-! ### The level flag during each sample -/

theorem halvesFlags_alternating_cons (l : Bool) (n : Nat) (ns : List Nat) :
    halvesFlags (alternating l (n :: ns)) = List.replicate n l ++ halvesFlags (alternating (!l) ns) := rfl

theorem halvesLevels_alternating_cons (g : BitVec 3) (l : Bool) (n : Nat) (ns : List Nat) :
    halvesLevels g (alternating l (n :: ns)) =
      List.replicate n (levelAmp g l) ++ halvesLevels g (alternating (!l) ns) := rfl

theorem halvesLevels_length (g : BitVec 3) (hs : List HalfCycle) :
    (halvesLevels g hs).length = (halvesFlags hs).length := by
  simp [halvesLevels, halvesFlags, List.length_flatMap]

/-! ### The sample that fails, in its half-cycle -/

theorem SinkFailsAt.room (h : SinkFailsAt k rest s) : Room k s := by
  cases h <;> simp only [Room] <;> omega

theorem SinkFailsAt.toggled (h : SinkFailsAt k rest s) : SinkFailsAt k rest (toggleLvl s) := by
  cases h with
  | stream room answers => exact .stream room answers
  | full full answers left => exact .full full answers left

/-- Samples before the failing one complete, and bring it nearer. -/
theorem SinkFailsAt.samples (ls : List Int) : ∀ s, SinkFailsAt (ls.length + k) rest s →
    forEachRun ls sample s = .done (emit ls s) ∧ SinkFailsAt k rest (emit ls s) := by
  induction ls with
  | nil => exact fun s h => ⟨by rw [forEachRun_nil, emit_nil], by simpa using h⟩
  | cons l ls ih =>
    intro s h
    rw [List.length_cons, Nat.add_right_comm] at h
    have hr : Room [l].length s := by
      have := h.room
      simp only [Room, List.length_singleton] at this ⊢
      omega
    obtain ⟨hdone, hnext⟩ := h.sample_succ l
    have hemit : emit (l :: ls) s = emit ls (emit [l] s) := emit_append [l] ls s hr
    rw [forEachRun_cons, hdone, Run.done_andThen, hemit]
    exact ih _ hnext

theorem raisedAt_append_left (xs ys : List Int) (hk : k < xs.length) :
    raisedAt k (xs ++ ys) rest s = raisedAt k xs rest s := by
  rw [raisedAt, List.take_append_of_le_length hk.le, List.take_append_of_le_length hk, raisedAt]

theorem raisedAt_append_right (xs ys : List Int) (hr : Room xs.length s) :
    raisedAt (xs.length + k) (xs ++ ys) rest s = raisedAt k ys rest (emit xs s) := by
  simp only [raisedAt, Nat.add_assoc, List.take_length_add_append, emit_append _ _ _ hr, filterAcc_append,
    emit_lp, emit_hp]

theorem half_eq_samples (n : Nat) (s : State) :
    half n s = (forEachRun (List.replicate n (amp s)) sample s).andThen fun s => .done (toggleLvl s) := by
  rw [half_eq, repeatRun_eq_forEachRun]

theorem SinkFailsAt.half_raised {n : Nat} (h : SinkFailsAt k rest s) (hk : k < n) :
    half n s = .raised (raisedAt k (List.replicate n (amp s)) rest s) := by
  rw [half_eq_samples, forEachRun_sample_raised _ k s (by rwa [List.length_replicate]) h, Run.raised_andThen]

theorem SinkFailsAt.half_done {n : Nat} (h : SinkFailsAt (n + k) rest s) :
    half n s = .done (toggleLvl (emit (List.replicate n (amp s)) s)) ∧
      SinkFailsAt k rest (toggleLvl (emit (List.replicate n (amp s)) s)) := by
  obtain ⟨hdone, hnext⟩ :=
    SinkFailsAt.samples (List.replicate n (amp s)) s (by rwa [List.length_replicate])
  exact ⟨by rw [half_eq_samples, hdone, Run.done_andThen], hnext.toggled⟩

/-- Half-cycles stop at the sample that fails; its half-cycle's toggle is not made. -/
theorem forEachRun_half_raised {l : Bool} (ns : List Nat) : ∀ k s,
    (halvesFlags (alternating s.lvl ns))[k]? = some l → SinkFailsAt k rest s →
    forEachRun ns half s = .raised
      { raisedAt k (halvesLevels s.cfgGain (alternating s.lvl ns)) rest s with lvl := l } := by
  induction ns with
  | nil => intro k s hk; cases hk
  | cons n ns ih =>
    intro k s hk h
    have hlen : (List.replicate n (amp s)).length = n := List.length_replicate
    rw [halvesFlags_alternating_cons] at hk
    rw [halvesLevels_alternating_cons, ← amp, forEachRun_cons]
    by_cases hkn : k < n
    · rw [List.getElem?_append_left (by simpa using hkn), List.getElem?_replicate_of_lt hkn] at hk
      cases hk
      rw [h.half_raised hkn, Run.raised_andThen, raisedAt_append_left _ _ (hlen.symm ▸ hkn)]
      rfl
    · obtain ⟨j, rfl⟩ := Nat.exists_eq_add_of_le (Nat.le_of_not_lt hkn)
      rw [List.getElem?_append_right (by simp), List.length_replicate, Nat.add_sub_cancel_left] at hk
      obtain ⟨hdone, hnext⟩ := h.half_done
      have hr : Room (List.replicate n (amp s)).length s := by
        have := h.room
        simp only [Room, hlen] at this ⊢
        omega
      have hsplit := raisedAt_append_right (k := j) (rest := rest) _
        (halvesLevels s.cfgGain (alternating (!s.lvl) ns)) hr
      rw [hlen] at hsplit
      rw [hdone, Run.done_andThen, ih j _ hk hnext, hsplit]
      rfl

theorem forEachRun_runBit_raised (bs : List Bool) {l : Bool}
    (hk : (halvesFlags (bitsHalves s.cfgSrate s.lvl bs))[k]? = some l) (h : SinkFailsAt k rest s) :
    forEachRun bs runBit s = .raised
      { raisedAt k (bitsLevels s.cfgSrate s.cfgGain s.lvl bs) rest s with lvl := l } := by
  rw [bitsHalves_eq_alternating] at hk
  rw [forEachRun_runBit_eq_halves, forEachRun_half_raised _ k s hk h, bitsLevels, bitsHalves_eq_alternating]

/-- Settles O38: all three commands are bit strings, and so strings of half-cycles. -/
theorem modulatorWriteFailure : Obligations.ModulatorWriteFailure := by
  intro s i bits k rest hi ha levels flags acc hk
  have hrun : runOf i s = forEachRun bits runBit s := by
    rcases hi with ⟨a, rfl, rfl⟩ | ⟨v, rfl, rfl⟩ | ⟨rfl, rfl⟩
    · exact (forEachRun_singleton _ runBit s).symm
    · rfl
    · exact runLeader_eq s
  have hkf : k < flags.length := halvesLevels_length s.cfgGain _ ▸ hk
  have hflag : flags[k]? = some (flags[k]?.getD s.lvl) := by
    rw [List.getElem?_eq_getElem hkf, Option.getD_some]
  have hraised : ∀ rest, SinkFailsAt k rest s →
      exec i s = .next { raisedAt k levels rest s with lvl := flags[k]?.getD s.lvl } := by
    intro rest h
    rw [exec_accepted ha, hrun, forEachRun_runBit_raised bits hflag h, Run.state_raised]
  refine ⟨fun hroom hans => hraised rest (.stream hroom hans), fun hfull hans => ?_⟩
  rw [hraised _ (.full hfull hans rfl), raisedAt, emit, List.length_take_of_le hk.le]

end Sys2Proof.Machine
end

section
/-! PROOFS. INIT, GAP, LEADER and PAYLOAD when no write fails: how many samples a byte string is, and what each
command leaves (43_framing.md R150 to R156, 30_encoding.md R94, 42_modulator.md R140, R141). -/

namespace Sys2Proof.Machine

variable {s : State}

/-! ### INIT and GAP -/

/-- Settles O26: the rule of INIT is those three writes. -/
theorem initResult : Obligations.InitResult := by
  intro s ha
  rw [exec_accepted ha]
  rfl

theorem runGap_done (hf : NoSinkFailure s) (hr : Room (nsil s.cfgSrate) s) :
    runGap s = .done (emit (List.replicate (nsil s.cfgSrate) 0) s) :=
  repeatRun_sample_done _ 0 s hr hf

/-- Settles O40: `NSIL` is the quotient, and the rule of GAP repeats one silent sample. -/
theorem gapEmitsSilence : Obligations.GapEmitsSilence := by
  intro s ha hf hr
  rw [exec_accepted ha, runOf, runGap_done hf hr, Run.state_done, nsil_eq]

/-! ### Counting the bits and the samples of a byte string -/

theorem bytesBits_count_true (vs : List Byte) : (bytesBits vs).count true = (vs.map popcount).sum := by
  induction vs with
  | nil => rfl
  | cons v vs ih =>
    rw [bytesBits_cons, List.count_append, count_true_bitsMsbFirst, ih, List.map_cons, List.sum_cons]

theorem bytesBits_zeros_add_popcounts (vs : List Byte) :
    (bytesBits vs).count false + (vs.map popcount).sum = 8 * vs.length := by
  induction vs with
  | nil => rfl
  | cons v vs ih =>
    have hv := zeros_add_popcount v
    rw [bytesBits_cons, List.count_append, List.map_cons, List.sum_cons, List.length_cons]
    omega

/-- Each 0 bit is one half-cycle and each 1 bit two (42_modulator.md R141). -/
theorem bytesLevels_length (r : Word32) (g : BitVec 3) (l : Bool) (vs : List Byte) :
    (bitsLevels r g l (bytesBits vs)).length =
      (8 * vs.length - (vs.map popcount).sum) * period r false +
        (vs.map popcount).sum * (2 * period r true) := by
  rw [bitsLevels_length, bytesBits_count_true, ← bytesBits_zeros_add_popcounts, Nat.add_sub_cancel]

/-! ### LEADER -/

/-- The bits of the leader (30_encoding.md R94). (Irreducible, as `tapeBits`, so that no proof unfolds
them by accident.) -/
@[irreducible] def leaderBits : List Bool := bytesBits (List.replicate leaderCount leaderByte)

theorem leaderBits_eq :
    leaderBits = (List.replicate 255 [true, false, true, false, true, false, true, false]).flatten := by
  have hbyte : bitsMsbFirst leaderByte = [true, false, true, false, true, false, true, false] := rfl
  rw [leaderBits, bytesBits_replicate, hbyte, leaderCount]

/-- Half of the leader's 2040 bits are 1 and half are 0. -/
theorem leaderBits_count (b : Bool) : leaderBits.count b = 255 * 4 := by
  rw [leaderBits_eq, List.count_flatten, List.map_replicate, List.sum_replicate, smul_eq_mul]
  cases b <;> rfl

theorem leaderLevels_length (r : Word32) (g : BitVec 3) (l : Bool) :
    (bitsLevels r g l leaderBits).length = 255 * (4 * period r false + 8 * period r true) := by
  rw [bitsLevels_length, leaderBits_count, leaderBits_count]
  ring

/-- The leader has an even number of 0 bits. -/
theorem lvlAfter_leaderBits (l : Bool) : lvlAfter l leaderBits = l := by
  simp [lvlAfter_eq, leaderBits_count]

theorem runLeader_done (hf : NoSinkFailure s)
    (hr : Room (bitsLevels s.cfgSrate s.cfgGain s.lvl leaderBits).length s) :
    runLeader s = .done (sendBits leaderBits s) := by
  rw [runLeader_eq, ← leaderBits, forEachRun_runBit_done _ s hf hr]

/-- Settles O41: LEADER sends its bits, and its 0 bits toggle the level an even number of times. -/
theorem leaderSendsTheSyncPattern : Obligations.LeaderSendsTheSyncPattern := by
  intro s ha hf hr
  rw [← leaderBits_eq]
  rw [← leaderLevels_length s.cfgSrate s.cfgGain s.lvl] at hr
  refine ⟨?_, lvlAfter_leaderBits s.lvl⟩
  rw [exec_accepted ha, runOf, runLeader_done hf hr, Run.state_done]

/-! ### PAYLOAD -/

theorem runPayload_done (hsrc : NoSourceFailure s) (hsnk : NoSinkFailure s)
    (hr : Room (bitsLevels s.cfgSrate s.cfgGain s.lvl (bytesBits (imageBytes s))).length s) :
    runPayload s = .done { sendBits (bytesBits (imageBytes s)) s with
      ipos := s.inLen, srcFails := s.srcFails.drop s.inLen.toNat } :=
  payloadLoop_done _ { s with ipos := 0#32 } (Nat.zero_add _) hsrc hsnk hr

/-- Settles O42: the loop starts at offset 0 and ends at the end of the image. -/
theorem payloadSendsTheWholeImage : Obligations.PayloadSendsTheWholeImage := by
  intro s ha hsrc hsnk hr
  rw [exec_accepted ha, runOf, runPayload_done hsrc hsnk hr, Run.state_done]

/-- Settles O43: the reads before the failing one have been sent, and the loop started at offset 0. -/
theorem payloadReadFailure : Obligations.PayloadReadFailure := by
  intro s k rest ha hsnk hk hs hr
  have hrun := payloadLoop_read_fails k s.inLen.toNat { s with ipos := 0#32 } rest (Nat.zero_add _) hk
    hsnk hs hr
  rw [BitVec.zero_add] at hrun
  rw [exec_accepted ha, runOf, runPayload, hrun]
  rfl

end Sys2Proof.Machine
end

section
/-! PROOFS. PAYLOAD as the bytes of the image, whatever write fails: the loop sends them one after another and
moves `IPOS` past those it has read (43_framing.md R155, R156, 60_exceptions.md R191, R195). -/

namespace Sys2Proof.Machine

variable {s t r : State} {v : Byte} {xs ys vs : List Byte}

/-! ### Samples do not notice reads -/

theorem Run.Ends.map_congr {Q E : State → Prop} {r : Run} {u w : State → State} (h : r.Ends Q E)
    (hQ : ∀ t, Q t → u t = w t) (hE : ∀ t, E t → u t = w t) : r.map u = r.map w := by
  cases r with
  | done t => exact congrArg Run.done (hQ t h)
  | raised t => exact congrArg Run.raised (hE t h)

/-- `IPOS` is moved and `k` answers to reads are used. -/
def reread (move : Word32 → Word32) (k : Nat) (s : State) : State :=
  { s with ipos := move s.ipos, srcFails := s.srcFails.drop k }

theorem advanced_eq_advancedBy : advanced = advancedBy 1 := by
  funext s
  simp [advanced, advancedBy]

/-- An inspection that records what is already recorded only moves `IPOS` and uses answers. -/
theorem SampleFrame.inspected_eq_reread (h : SampleFrame s t) (move : Word32 → Word32) (k : Nat) :
    inspected s.hdrStat s.hdrSize move k t = reread move k t := by
  rw [inspected, ← h.hdrStat, ← h.hdrSize, reread]

theorem runByte_reread (move : Word32 → Word32) (k : Nat) (v : Byte) :
    Commutes (reread move k) (runByte v) := by
  intro s
  have h := runByte_sampleFrame v s (LevelFrame.refl s).toSampleFrame
  calc runByte v (reread move k s) = runByte v (inspected s.hdrStat s.hdrSize move k s) := rfl
    _ = (runByte v s).map (inspected s.hdrStat s.hdrSize move k) := runByte_inspected v s
    _ = (runByte v s).map (reread move k) :=
      h.map_congr (fun _ ht => ht.inspected_eq_reread move k) fun _ ht => ht.inspected_eq_reread move k

theorem runByte_advancedBy (n : Nat) (v : Byte) : Commutes (advancedBy n) (runByte v) :=
  runByte_reread (· + BitVec.ofNat 32 n) n v

/-! ### The loop, byte by byte -/

/-- What is ahead in the image stays ahead while a byte is sent. -/
theorem Unread.sampleFrame (h : Unread vs s) (ht : SampleFrame s t) : Unread vs t where
  image := by
    rw [← h.image, imageBytes, imageBytes, ht.ipos, ht.inLen]
    unfold memRead
    rw [ht.img]
  no_failure := by
    rw [NoSourceFailure, ht.srcFails]
    exact h.no_failure

theorem runByte_done_sampleFrame (h : runByte v s = .done t) : SampleFrame s t := by
  simpa only [h, Run.ends_done] using runByte_sampleFrame v s (LevelFrame.refl s).toSampleFrame

theorem payloadLoop_of_byte (n : Nat) (h : Unread (v :: vs) s) :
    payloadLoop (n + 1) s = ((runByte v s).map (advancedBy 1)).andThen (payloadLoop n) := by
  simp only [payloadLoop, h.readIn]
  rw [advanced_eq_advancedBy, runByte_advancedBy]

theorem forEachRun_cons_eq_done {α : Type} {f : α → State → Run} {x : α} {l : List α}
    (h : forEachRun (x :: l) f s = .done t) : ∃ u, f x s = .done u ∧ forEachRun l f u = .done t := by
  rw [forEachRun_cons] at h
  cases hx : f x s with
  | done u => exact ⟨u, rfl, by rwa [hx] at h⟩
  | raised u => rw [hx] at h; cases h

/-- Bytes whose sending completes are sent, and `IPOS` moves past them. -/
theorem payloadLoop_of_done (n : Nat) (h : Unread (xs ++ ys) s) (hd : forEachRun xs runByte s = .done t) :
    payloadLoop (xs.length + n) s = payloadLoop n (advancedBy xs.length t) := by
  induction xs generalizing s t with
  | nil =>
    cases hd
    rw [List.length_nil, Nat.zero_add, advancedBy_zero]
  | cons x xs ih =>
    obtain ⟨u, hx, hxs⟩ := forEachRun_cons_eq_done hd
    have hu : Unread (xs ++ ys) (advancedBy 1 u) :=
      advanced_eq_advancedBy ▸ (h.sampleFrame (runByte_done_sampleFrame hx)).advanced
    have ht : forEachRun xs runByte (advancedBy 1 u) = .done (advancedBy 1 t) :=
      (Commutes.forEachRun (runByte_advancedBy 1) xs u).trans (congrArg (Run.map _) hxs)
    rw [List.length_cons, Nat.add_right_comm, payloadLoop_of_byte _ h, hx]
    refine (ih hu ht).trans ?_
    rw [advancedBy_advancedBy, Nat.add_comm]

/-- The byte whose sending raises has been read. -/
theorem payloadLoop_of_raised (n : Nat) (h : Unread (xs ++ v :: ys) s)
    (hd : forEachRun xs runByte s = .done t) (hr : runByte v t = .raised r) :
    payloadLoop (xs.length + (n + 1)) s = .raised (advancedBy (xs.length + 1) r) := by
  have hframe : (forEachRun xs runByte s).Ends (SampleFrame s) (SampleFrame s) :=
    forEachRun_ends runByte_sampleFrame xs s (LevelFrame.refl s).toSampleFrame
  rw [hd, Run.ends_done] at hframe
  have ht : Unread (v :: ys) (advancedBy xs.length t) := (h.sampleFrame hframe).advancedBy
  have hv : runByte v (advancedBy xs.length t) = .raised (advancedBy xs.length r) :=
    (runByte_advancedBy _ v t).trans (congrArg (Run.map _) hr)
  rw [payloadLoop_of_done _ h hd, payloadLoop_of_byte n ht, hv, ← advancedBy_advancedBy]
  rfl

theorem exists_raising_byte {α : Type} {f : α → State → Run} {l : List α} :
    forEachRun l f s = .raised r →
      ∃ as x bs t, l = as ++ x :: bs ∧ forEachRun as f s = .done t ∧ f x t = .raised r := by
  induction l generalizing s with
  | nil => intro h; cases h
  | cons x l ih =>
    intro h
    cases hx : f x s with
    | raised u =>
      rw [forEachRun_cons, hx] at h
      exact ⟨[], x, l, s, rfl, rfl, hx.trans h⟩
    | done u =>
      rw [forEachRun_cons, hx] at h
      obtain ⟨as, y, bs, t, rfl, hd, hy⟩ := ih h
      exact ⟨x :: as, y, bs, t, rfl, by rw [forEachRun_cons, hx, Run.done_andThen, hd], hy⟩

/-- But for what it read, the loop is the bytes ahead sent one after another. -/
theorem payloadLoop_eq_forEachRun (h : Unread vs s) :
    ∃ n, payloadLoop vs.length s = (forEachRun vs runByte s).map (advancedBy n) := by
  cases hrun : forEachRun vs runByte s with
  | done t => exact ⟨vs.length, payloadLoop_of_done (ys := []) 0 (by rwa [List.append_nil]) hrun⟩
  | raised r =>
    obtain ⟨as, v, bs, t, rfl, hd, hv⟩ := exists_raising_byte hrun
    rw [List.length_append, List.length_cons]
    exact ⟨as.length + 1, payloadLoop_of_raised bs.length h hd hv⟩

/-! ### PAYLOAD and the bytes of the image -/

/-- PAYLOAD begins at offset 0. -/
theorem runPayload_eq (s : State) :
    runPayload s = payloadLoop (imageBytes s).length (reread (fun _ => 0#32) 0 s) := by
  rw [imageBytes_length]
  rfl

theorem unread_image (h : NoSourceFailure s) : Unread (imageBytes s) (reread (fun _ => 0#32) 0 s) :=
  ⟨rfl, h⟩

theorem runPayload_eq_forEachRun (h : NoSourceFailure s) :
    ∃ move k, runPayload s = (forEachRun (imageBytes s) runByte s).map (reread move k) := by
  obtain ⟨n, hn⟩ := payloadLoop_eq_forEachRun (unread_image h)
  rw [← runPayload_eq, Commutes.forEachRun (runByte_reread _ 0)] at hn
  refine ⟨fun _ => BitVec.ofNat 32 n, n, hn.trans ?_⟩
  cases forEachRun (imageBytes s) runByte s <;> simp [Run.map, advancedBy, reread]

theorem accepted_payload_inSession (h : Accepted .payload s) : InSession s := by
  obtain ⟨hfault, -, hlegal, -⟩ := h
  exact ⟨by simpa [legalIn] using hlegal, hfault⟩

/-- The BYTE commands of a byte string, in an open session. -/
theorem execAll_bytes (h : InSession s) (vs : List Byte) :
    execAll (vs.map fun v => .byte v) s = (forEachRun vs runByte s).state := by
  rw [execAll_inSession (List.forall_mem_map.2 fun v _ => producesSamples_byte v) h, forEachRun_map]
  rfl

/-! ### What INSPECT found -/

/-- Apply an update to the state a read leaves. -/
def ReadIn.map (u : State → State) : ReadIn → ReadIn
  | .byte v s => .byte v (u s)
  | .eof s => .eof (u s)
  | .raised s => .raised (u s)

theorem readIn_inspected (st : HdrStat) (size : Word32) (s : State) :
    readIn (inspected st size id 0 s) = (readIn s).map (inspected st size id 0) := by
  by_cases hend : s.inLen.toNat ≤ s.ipos.toNat
  · simp [readIn, inspected, ReadIn.map, hend]
  · cases hf : nextAnswer s.srcFails <;>
      simp [readIn, askSrcFail, raise, memRead, inspected, ReadIn.map, hend, hf]

theorem payloadLoop_header (st : HdrStat) (size : Word32) (n : Nat) :
    Commutes (inspected st size id 0) (payloadLoop n) := by
  induction n with
  | zero => exact fun s => rfl
  | succ n ih =>
    intro s
    simp only [payloadLoop, readIn_inspected]
    cases readIn s with
    | byte v t => exact (runByte_inspected v).andThen ih t
    | eof t => rfl
    | raised t => rfl

/-- Settles O48: PAYLOAD is the image's bytes sent one after another, and reads neither inspection register. -/
theorem payloadIsTheWholeImage : Obligations.PayloadIsTheWholeImage := by
  refine ⟨fun s ha hsrc => ⟨_, exec_accepted ha, ?_⟩, fun s st size p ha => ⟨_, exec_accepted ha, ?_⟩⟩
  · obtain ⟨move, k, hrun⟩ := runPayload_eq_forEachRun hsrc
    have hframe : SampleFrame s (forEachRun (imageBytes s) runByte s).state :=
      (forEachRun_ends runByte_sampleFrame (imageBytes s) s (LevelFrame.refl s).toSampleFrame).state
    rw [runOf, hrun, Run.state_map, execAll_bytes (accepted_payload_inSession ha), reread]
    simp only [← hframe.ipos, ← hframe.srcFails]
  · have ha' : Accepted .payload (inspected st size (fun _ => p) 0 s) := ha
    have hrun := payloadLoop_header st size s.inLen.toNat { s with ipos := 0#32 }
    have hstate := congrArg Run.state hrun
    rw [Run.state_map] at hstate
    exact (exec_accepted ha').trans (congrArg Host.Outcome.next hstate)

end Sys2Proof.Machine
end

section
/-! PROOFS. PAYLOAD whose append fails (43_framing.md R156, 42_modulator.md R136, 20_memory.md R56,
60_exceptions.md R191, R195): the bytes before the failing sample's are sent, and its own byte stops as BYTE
does. -/

namespace Sys2Proof.Machine

variable {s t r : State} {k : Nat} {rest : List Bool}

/-! ### Half-cycles that end before the failing sample -/

theorem halvesLevels_alternating_length (g : BitVec 3) (ns : List Nat) : ∀ l,
    (halvesLevels g (alternating l ns)).length = ns.sum := by
  induction ns with
  | nil => exact fun _ => rfl
  | cons n ns ih =>
    intro l
    rw [halvesLevels_alternating_cons, List.length_append, List.length_replicate, ih, List.sum_cons]

theorem forEachRun_half_completes (ns : List Nat) : ∀ k s, ns.sum ≤ k → SinkFailsAt k rest s →
    ∃ t, forEachRun ns half s = .done t := by
  induction ns with
  | nil => exact fun k s _ _ => ⟨s, rfl⟩
  | cons n ns ih =>
    intro k s hk h
    rw [List.sum_cons] at hk
    obtain ⟨j, rfl⟩ := Nat.exists_eq_add_of_le (Nat.le_of_add_right_le hk)
    obtain ⟨hdone, hnext⟩ := h.half_done
    rw [forEachRun_cons, hdone, Run.done_andThen]
    exact ih j _ (by omega) hnext

/-- A byte string of no more samples than the sink takes is sent. -/
theorem forEachRun_runByte_completes (vs : List Byte) (h : SinkFailsAt k rest s)
    (hk : (bitsLevels s.cfgSrate s.cfgGain s.lvl (bytesBits vs)).length ≤ k) :
    ∃ t, forEachRun vs runByte s = .done t := by
  rw [bitsLevels, bitsHalves_eq_alternating, halvesLevels_alternating_length] at hk
  rw [forEachRun_runByte, forEachRun_runBit_eq_halves]
  exact forEachRun_half_completes _ k s hk h

/-! ### The byte of the failing sample -/

theorem bytesLevels_take_length_le (r : Word32) (g : BitVec 3) (l : Bool) (vs : List Byte) (n : Nat) :
    (bitsLevels r g l (bytesBits (vs.take n))).length ≤ (bitsLevels r g l (bytesBits vs)).length := by
  conv_rhs => rw [← List.take_append_drop n vs, bytesBits_append, bitsLevels_append, List.length_append]
  exact Nat.le_add_right _ _

theorem halvesFlags_append (xs ys : List HalfCycle) :
    halvesFlags (xs ++ ys) = halvesFlags xs ++ halvesFlags ys := List.flatMap_append

/-- The sample that fails is one of the first `xs`, and what follows them makes no difference. -/
theorem forEachRun_runByte_raised (xs ys : List Byte) {l : Bool} (h : SinkFailsAt k rest s)
    (hk : k < (bitsLevels s.cfgSrate s.cfgGain s.lvl (bytesBits xs)).length)
    (hl : (halvesFlags (bitsHalves s.cfgSrate s.lvl (bytesBits (xs ++ ys))))[k]? = some l) :
    forEachRun xs runByte s = .raised
      { raisedAt k (bitsLevels s.cfgSrate s.cfgGain s.lvl (bytesBits (xs ++ ys))) rest s with lvl := l } := by
  have hkf : k < (halvesFlags (bitsHalves s.cfgSrate s.lvl (bytesBits xs))).length :=
    halvesLevels_length s.cfgGain _ ▸ hk
  rw [bytesBits_append, bitsHalves_append, halvesFlags_append, List.getElem?_append_left hkf] at hl
  rw [forEachRun_runByte, forEachRun_runBit_raised _ hl h, bytesBits_append, bitsLevels_append,
    raisedAt_append_left _ _ hk]

/-- PAYLOAD has read the byte whose sending raises. -/
theorem runPayload_of_raised {xs ys : List Byte} {v : Byte} (hsrc : NoSourceFailure s)
    (himage : imageBytes s = xs ++ v :: ys) (hd : forEachRun xs runByte s = .done t)
    (hr : runByte v t = .raised r) :
    runPayload s = .raised
      { r with ipos := BitVec.ofNat 32 (xs.length + 1), srcFails := r.srcFails.drop (xs.length + 1) } := by
  have hunread := unread_image hsrc
  rw [himage] at hunread
  have hd0 := (Commutes.forEachRun (runByte_reread (fun _ => 0#32) 0) xs s).trans (congrArg (Run.map _) hd)
  have hr0 := (runByte_reread (fun _ => 0#32) 0 v t).trans (congrArg (Run.map _) hr)
  rw [runPayload_eq, himage, List.length_append, List.length_cons,
    payloadLoop_of_raised ys.length hunread hd0 hr0]
  simp only [advancedBy, reread, BitVec.zero_add, List.drop_zero]

/-- PAYLOAD stops inside the byte of the failing sample, which it has read. -/
theorem runPayload_raised (hsrc : NoSourceFailure s) {j : Nat} (hj : j < s.inLen.toNat) {l : Bool}
    (h : SinkFailsAt k rest s)
    (hlo : (bitsLevels s.cfgSrate s.cfgGain s.lvl (bytesBits ((imageBytes s).take j))).length ≤ k)
    (hhi : k < (bitsLevels s.cfgSrate s.cfgGain s.lvl (bytesBits ((imageBytes s).take (j + 1)))).length)
    (hl : (halvesFlags (bitsHalves s.cfgSrate s.lvl (bytesBits (imageBytes s))))[k]? = some l) :
    runPayload s = .raised
      { raisedAt k (bitsLevels s.cfgSrate s.cfgGain s.lvl (bytesBits (imageBytes s))) rest s with
        lvl := l, ipos := BitVec.ofNat 32 (j + 1), srcFails := s.srcFails.drop (j + 1) } := by
  have hlt : j < (imageBytes s).length := by rwa [imageBytes_length]
  have hlen : ((imageBytes s).take j).length = j := List.length_take_of_le hlt.le
  obtain ⟨t, hd⟩ := forEachRun_runByte_completes _ h hlo
  have hr := forEachRun_runByte_raised _ ((imageBytes s).drop (j + 1)) h hhi
    (by rwa [List.take_append_drop])
  rw [List.take_append_drop, List.take_succ_eq_append_getElem hlt, forEachRun_append, hd, Run.done_andThen,
    forEachRun_singleton] at hr
  have himage : imageBytes s = (imageBytes s).take j ++ (imageBytes s)[j] :: (imageBytes s).drop (j + 1) := by
    rw [← List.drop_eq_getElem_cons hlt, List.take_append_drop]
  rw [runPayload_of_raised hsrc himage hd hr, hlen]
  rfl

/-- Settles O44: the sink fails at sample `k`, for either reason. -/
theorem payloadWriteFailure : Obligations.PayloadWriteFailure := by
  intro s j k rest ha hsrc hj bits levels upTo flags acc hlo hhi
  have hkl : k < levels.length := hhi.trans_le (bytesLevels_take_length_le ..)
  have hkf : k < flags.length := halvesLevels_length s.cfgGain _ ▸ hkl
  have hflag : flags[k]? = some (flags[k]?.getD s.lvl) := by
    rw [List.getElem?_eq_getElem hkf, Option.getD_some]
  have hraised : ∀ rest, SinkFailsAt k rest s → exec .payload s = .next { raisedAt k levels rest s with
      lvl := flags[k]?.getD s.lvl
      ipos := BitVec.ofNat 32 (j + 1), srcFails := s.srcFails.drop (j + 1) } := by
    intro rest h
    rw [exec_accepted ha, runOf, runPayload_raised hsrc hj h hlo hhi hflag, Run.state_raised]
  refine ⟨fun hroom hans => hraised rest (.stream hroom hans), fun hfull hans => ?_⟩
  rw [hraised _ (.full hfull hans rfl), raisedAt, emit, List.length_take_of_le hkl.le]

end Sys2Proof.Machine
end

section
/-! PROOFS. ENCODE as the seven commands it is made of, whatever fails (43_framing.md R158, 30_encoding.md
R88): each command is accepted where the ones before it completed, and changes nothing where one raised. -/

namespace Sys2Proof.Machine

variable {s : State} {is : List Instr} {i : Instr} {r : Run} {Q R : State → Prop}

/-! ### Commands as one run -/

theorem execAll_append (is js : List Instr) (s : State) : execAll (is ++ js) s = execAll js (execAll is s) :=
  List.foldl_append

/-- The commands, issued one after another, leave what the run leaves; where it completes, `Q` holds. -/
structure IssuedAs (is : List Instr) (s : State) (Q : State → Prop) (r : Run) : Prop where
  leaves : execAll is s = r.state
  ends : r.Ends Q Faulted

/-- One more command, accepted wherever the run completes. -/
theorem IssuedAs.next (h : IssuedAs is s Q r) (hi : ∀ t, Q t → Accepted i t)
    (hends : ∀ t, Q t → (runOf i t).Ends R Faulted) :
    IssuedAs (is ++ [i]) s R (r.andThen (runOf i)) := by
  obtain ⟨hleaves, hr⟩ := h
  refine ⟨?_, hr.andThen hends⟩
  rw [execAll_append, hleaves]
  cases r with
  | done t => exact (execAll_cons i [] t).trans (accept_of_exec (exec_accepted (hi t hr)))
  | raised t => exact execAll_faulted [i] hr

/-! ### Where the commands of ENCODE are accepted -/

/-- Nothing has raised, and both streams are present. -/
structure Ready (e : Sess) (s : State) : Prop where
  sess : s.sess = e
  fault_free : s.fault = false
  source : s.srcPresent = true
  sink : s.snkPresent = true

theorem Ready.accepted {e : Sess} (h : Ready e s) (hw : i.wellFormed = true) (hl : legalIn i e = true) :
    Accepted i s :=
  ⟨h.fault_free, hw, h.sess ▸ hl, fun _ => h.source, fun _ => h.sink⟩

theorem runInit_ready (h : Ready .idle s) : (runInit s).Ends (Ready .idle) Faulted := { h with }

theorem runOpen_ready (h : Ready .idle s) : (runOpen s).Ends (Ready .opened) Faulted :=
  (forEachRun_ends (fun b t ht => append_ends b t { ht with } fun _ => rfl) _ s h).andThen
    fun _ ht => { ht with sess := rfl }

theorem samplingKeeps_ready : SamplingKeeps (Ready .opened) Faulted where
  sample l s h := sample_ends l s (fun _ _ => { h with }) fun _ => rfl
  toggle _ h := { h with }
  rewind _ h := { h with }
  read _ h _ := { h with }
  readFails _ _ _ := rfl

theorem runClose_ready (h : Ready .opened s) : (runClose s).Ends (Ready .closed) Faulted :=
  (patch_ends (Q := Ready .opened) 4 _ s { h with } fun _ => rfl).andThen fun t ht =>
    (patch_ends (Q := Ready .opened) 40 _ t { ht with } fun _ => rfl).andThen
      fun _ hu => { hu with sess := rfl }

/-- A command of an open session leaves it open. -/
theorem IssuedAs.sampling (h : IssuedAs is s (Ready .opened) r) (hw : i.wellFormed = true)
    (hl : legalIn i .opened = true) (hc : i ≠ .closeSink) :
    IssuedAs (is ++ [i]) s (Ready .opened) (r.andThen (runOf i)) :=
  h.next (fun _ ht => ht.accepted hw hl) fun _ ht => samplingKeeps_ready.runOf_ends i hl hc ht

theorem runEncode_issuedAs (h : Ready .idle s) :
    IssuedAs [.init, .openSink, .gap, .leader, .payload, .gap, .closeSink] s (Ready .closed)
      (runEncode s) := by
  have hnone : IssuedAs [] s (Ready .idle) (.done s) := ⟨rfl, h⟩
  have hinit := hnone.next (i := .init) (fun _ ht => ht.accepted rfl rfl) fun _ => runInit_ready
  have hopen := hinit.next (i := .openSink) (fun _ ht => ht.accepted rfl rfl) fun _ => runOpen_ready
  have hgap := hopen.sampling (i := .gap) rfl rfl (by simp)
  have hleader := hgap.sampling (i := .leader) rfl rfl (by simp)
  have hpayload := hleader.sampling (i := .payload) rfl rfl (by simp)
  have hgap' := hpayload.sampling (i := .gap) rfl rfl (by simp)
  exact hgap'.next (i := .closeSink) (fun _ ht => ht.accepted rfl rfl) fun _ => runClose_ready

/-- Settles O49: ENCODE is accepted, and its rule is those of the seven commands in order. -/
theorem encodeIsItsSevenCommands : Obligations.EncodeIsItsSevenCommands := by
  intro s hf hs hsrc hsnk
  have h : Ready .idle s := ⟨hs, hf, hsrc, hsnk⟩
  rw [(runEncode_issuedAs h).leaves, exec_accepted (h.accepted rfl rfl)]
  rfl

end Sys2Proof.Machine
end

section
/-! PROOFS. The tape file: what ENCODE leaves in an empty sink when nothing fails, and how long it is
(43_framing.md R157 to R159, 44_container.md R176, 30_encoding.md R97). -/

namespace Sys2Proof.Machine

variable {s : State} {xs ys : List Byte}

/-! ### Room for one part after another -/

theorem room_left {m n : Nat} (h : Room (m + n) s) : Room m s := by
  simp only [Room] at h ⊢
  omega

theorem room_emit {n : Nat} (ls : List Int) (h : Room (ls.length + n) s) : Room n (emit ls s) := by
  have hpos := room_pos ls.length s (room_left h)
  simp only [Room, emit_pos, emit_sinkCap, hpos] at h ⊢
  omega

/-! ### Between OPEN and CLOSE -/

/-- The filter inputs of a gap (43_framing.md R152). -/
def gapLevels (s : State) : List Int := List.replicate (nsil s.cfgSrate) 0

/-- The filter inputs of leader and payload, from the current level on. -/
def leaderPayloadLevels (s : State) : List Int :=
  bitsLevels s.cfgSrate s.cfgGain s.lvl (tapeBits (imageBytes s))

/-- The state after LEADER and PAYLOAD. -/
def leaderPayloadSent (s : State) : State :=
  { sendBits (tapeBits (imageBytes s)) s with
    ipos := s.inLen, srcFails := s.srcFails.drop s.inLen.toNat }

/-- The filter inputs of GAP, LEADER, PAYLOAD and GAP (43_framing.md R157). -/
def framedLevels (s : State) : List Int := gapLevels s ++ leaderPayloadLevels s ++ gapLevels s

/-- The state after GAP, LEADER, PAYLOAD and GAP (43_framing.md R158). -/
def framed (s : State) : State :=
  { emit (framedLevels s) s with
    lvl := lvlAfter s.lvl (tapeBits (imageBytes s))
    ipos := s.inLen, srcFails := s.srcFails.drop s.inLen.toNat }

theorem runGap_levels_done (hf : NoSinkFailure s) (hr : Room (gapLevels s).length s) :
    runGap s = .done (emit (gapLevels s) s) :=
  runGap_done hf (by rwa [gapLevels, List.length_replicate] at hr)

theorem tapeBits_eq (image : List Byte) : tapeBits image = leaderBits ++ bytesBits image := by
  rw [tapeBits, bytesBits_append, leaderBits, leaderCount, leaderByte]

theorem runPayload_sendBits_done (bs : List Bool) (hsrc : NoSourceFailure s) (hsnk : NoSinkFailure s)
    (hr : Room (bitsLevels s.cfgSrate s.cfgGain (lvlAfter s.lvl bs) (bytesBits (imageBytes s))).length
      (sendBits bs s)) :
    runPayload (sendBits bs s) = .done { sendBits (bytesBits (imageBytes s)) (sendBits bs s) with
      ipos := s.inLen, srcFails := s.srcFails.drop s.inLen.toNat } :=
  runPayload_done (s := sendBits bs s) hsrc (sendBits_noSinkFailure bs s hsnk) hr

theorem runLeader_runPayload_done (hsrc : NoSourceFailure s) (hsnk : NoSinkFailure s)
    (hr : Room (leaderPayloadLevels s).length s) :
    (runLeader s).andThen runPayload = .done (leaderPayloadSent s) := by
  rw [leaderPayloadLevels, tapeBits_eq] at hr
  obtain ⟨hleader, hpayload⟩ := room_append _ _ _ hr
  rw [runLeader_done hsnk hleader, Run.done_andThen, runPayload_sendBits_done _ hsrc hsnk hpayload,
    leaderPayloadSent, tapeBits_eq, sendBits_append _ _ _ hleader]

/-- LEADER and PAYLOAD between two strings of samples. -/
theorem emit_leaderPayloadSent_emit (xs ys : List Int) (s : State) :
    emit ys (leaderPayloadSent (emit xs s)) = { emit ys (emit (leaderPayloadLevels s) (emit xs s)) with
      lvl := lvlAfter s.lvl (tapeBits (imageBytes s))
      ipos := s.inLen, srcFails := s.srcFails.drop s.inLen.toNat } := rfl

theorem gapLevels_leaderPayloadSent (xs : List Int) (s : State) :
    gapLevels (leaderPayloadSent (emit xs s)) = gapLevels s := by
  simp only [gapLevels, leaderPayloadSent, sendBits_cfgSrate, emit_cfgSrate]

theorem leaderPayload_gap_done (xs : List Int) (hsrc : NoSourceFailure s) (hsnk : NoSinkFailure s)
    (hr : Room ((leaderPayloadLevels s).length + (gapLevels s).length) (emit xs s)) :
    ((runLeader (emit xs s)).andThen runPayload).andThen runGap =
      .done (emit (gapLevels s) (leaderPayloadSent (emit xs s))) := by
  have hsnk' := emit_noSinkFailure xs s hsnk
  have htape := runLeader_runPayload_done (s := emit xs s) hsrc hsnk' (room_left hr)
  have hgap := runGap_levels_done (s := leaderPayloadSent (emit xs s)) (sendBits_noSinkFailure _ _ hsnk')
    (room_emit (leaderPayloadLevels s) hr)
  rw [htape, Run.done_andThen, hgap, gapLevels_leaderPayloadSent]

theorem framed_done (hsrc : NoSourceFailure s) (hsnk : NoSinkFailure s)
    (hr : Room (framedLevels s).length s) :
    (((runGap s).andThen runLeader).andThen runPayload).andThen runGap = .done (framed s) := by
  rw [framedLevels, List.append_assoc, List.length_append, List.length_append] at hr
  have hrest := room_emit _ hr
  rw [Run.andThen_assoc (runGap s), runGap_levels_done hsnk (room_left hr), Run.done_andThen,
    leaderPayload_gap_done _ hsrc hsnk hrest, emit_leaderPayloadSent_emit, framed, framedLevels,
    List.append_assoc, emit_append _ _ _ (room_left hr), emit_append _ _ _ (room_left hrest)]

/-! ### The whole of ENCODE -/

/-- The state INIT and OPEN leave, when OPEN has appended `header`. -/
def initOpened (header : List Byte) (s : State) : State :=
  { appendedBytes header s with lp := 0#64, hp := 0#64, lvl := false, sess := .opened }

/-- The header OPEN appends (44_container.md R171). -/
def openHeader (s : State) : List Byte := containerHeader placeholder placeholder s.cfgSrate

theorem openHeader_length (s : State) : (openHeader s).length = 44 := containerHeader_length _ _ _

theorem runOpen_done (hf : NoSinkFailure s) (hr : Room (openHeader s).length s) :
    runOpen s = .done { appendedBytes (openHeader s) s with sess := .opened } := by
  rw [runOpen, ← openHeader, forEachRun_append_done _ s hf hr, Run.done_andThen]

theorem runInit_runOpen_done (hf : NoSinkFailure s) (hr : Room (openHeader s).length s) :
    (runInit s).andThen runOpen = .done (initOpened (openHeader s) s) :=
  runOpen_done (s := { s with lp := 0#64, hp := 0#64, lvl := lvlReset }) hf hr

variable {header : List Byte}

/-- INIT selects the level a tape starts at. -/
theorem framedLevels_initOpened (header : List Byte) (s : State) :
    framedLevels (initOpened header s) = tapeLevels s.cfgSrate s.cfgGain (imageBytes s) := rfl

theorem initOpened_noSourceFailure (header : List Byte) (h : NoSourceFailure s) :
    NoSourceFailure (initOpened header s) := h

theorem initOpened_noSinkFailure (header : List Byte) (h : NoSinkFailure s) :
    NoSinkFailure (initOpened header s) := fun b hb => h b (List.mem_of_mem_drop hb)

theorem framed_noSinkFailure (h : NoSinkFailure s) : NoSinkFailure (framed s) :=
  emit_noSinkFailure (framedLevels s) s h

theorem initOpened_room {n : Nat} (hr : Room (header.length + n) s) : Room n (initOpened header s) := by
  have hpos : (initOpened header s).pos.toNat = s.pos.toNat + header.length :=
    room_pos header.length s (room_left hr)
  rw [Room, hpos, Nat.add_assoc]
  exact hr

theorem runEncode_done (hsrc : NoSourceFailure s) (hsnk : NoSinkFailure s)
    (hr : Room ((openHeader s).length + (tapeLevels s.cfgSrate s.cfgGain (imageBytes s)).length) s) :
    runEncode s = .done (closed (framed (initOpened (openHeader s) s))) := by
  have hsrc' := initOpened_noSourceFailure (openHeader s) hsrc
  have hsnk' := initOpened_noSinkFailure (openHeader s) hsnk
  rw [← framedLevels_initOpened (openHeader s)] at hr
  rw [runEncode, runInit_runOpen_done hsnk (room_left hr), Run.done_andThen,
    framed_done hsrc' hsnk' (initOpened_room hr), Run.done_andThen,
    runClose_done (framed_noSinkFailure hsnk')]

/-! ### The bytes in the sink -/

theorem SinkHolds.congr {t : State} (h : SinkHolds xs s) (hout : t.out = s.out) (hpos : t.pos = s.pos) :
    SinkHolds xs t :=
  ⟨hout.trans h.1, hpos ▸ h.2⟩

theorem SinkHolds.appendedBytes (h : SinkHolds xs s) (hr : Room ys.length s) :
    SinkHolds (xs ++ ys) (appendedBytes ys s) := by
  obtain ⟨hout, hpos⟩ := h
  constructor
  · rw [Machine.appendedBytes, hout, hpos, memoryOf_append]
  · rw [Machine.appendedBytes, room_pos _ s hr, hpos, List.length_append]

theorem SinkHolds.initOpened (h : SinkHolds [] s) (hr : Room header.length s) :
    SinkHolds header (initOpened header s) :=
  (h.appendedBytes hr).congr rfl rfl

theorem SinkHolds.framed (h : SinkHolds xs s) (hr : Room (framedLevels s).length s) :
    SinkHolds (xs ++ filterBytes s.lp s.hp (framedLevels s)) (framed s) := by
  have hbytes := h.appendedBytes (ys := filterBytes s.lp s.hp (framedLevels s)) (by rwa [filterBytes_length])
  rw [Machine.appendedBytes, filterBytes_length] at hbytes
  exact hbytes.congr rfl rfl

/-- The fields CLOSE leaves after INIT, OPEN and a string of samples, besides the sink. -/
theorem closed_emit_initOpened (levels : List Int) (l : Bool) (p : Word32) (src : List Bool)
    (header : List Byte) (s : State) :
    closed { emit levels (initOpened header s) with lvl := l, ipos := p, srcFails := src } = { s with
      out := (closed { emit levels (initOpened header s) with lvl := l, ipos := p, srcFails := src }).out
      pos := s.pos + BitVec.ofNat 32 header.length + BitVec.ofNat 32 levels.length
      lp := (filterAcc 0#64 0#64 levels).1, hp := (filterAcc 0#64 0#64 levels).2
      lvl := l, ipos := p, sess := .closed, srcFails := src
      snkFails := ((s.snkFails.drop header.length).drop levels.length).drop 2 } := rfl

theorem framed_initOpened (header : List Byte) (s : State) :
    framed (initOpened header s) =
      { emit (tapeLevels s.cfgSrate s.cfgGain (imageBytes s)) (initOpened header s) with
        lvl := lvlAfter false (tapeBits (imageBytes s))
        ipos := s.inLen, srcFails := s.srcFails.drop s.inLen.toNat } := by
  rw [framed, framedLevels_initOpened]
  rfl

theorem framed_initOpened_pos (header : List Byte) (s : State) :
    (framed (initOpened header s)).pos = s.pos + BitVec.ofNat 32 header.length +
      BitVec.ofNat 32 (tapeLevels s.cfgSrate s.cfgGain (imageBytes s)).length := rfl

/-- CLOSE gives the placeholder header the true lengths (44_container.md R175). -/
theorem SinkHolds.closed {r : Word32} {body : List Byte}
    (h : SinkHolds (containerHeader placeholder placeholder r ++ body) s) :
    SinkHolds (containerHeader (totalLength s) (dataLength s) r ++ body) (closed s) :=
  h.patched rfl rfl

/-- Header and samples before CLOSE. -/
theorem framed_sinkHolds (hpos : s.pos = 0#32) (hout : s.out = [])
    (hr : Room (header.length + (tapeLevels s.cfgSrate s.cfgGain (imageBytes s)).length) s) :
    SinkHolds (header ++ filterBytes 0#64 0#64 (tapeLevels s.cfgSrate s.cfgGain (imageBytes s)))
      (framed (initOpened header s)) :=
  have hempty : SinkHolds [] s := ⟨hout, by rw [hpos]; rfl⟩
  (hempty.initOpened (room_left hr)).framed (initOpened_room hr)

/-- The finished file (44_container.md R176). -/
theorem closed_sinkHolds_tapeFile (hpos : s.pos = 0#32) (hout : s.out = [])
    (hr : Room ((openHeader s).length + (tapeLevels s.cfgSrate s.cfgGain (imageBytes s)).length) s) :
    SinkHolds (tapeFile s.cfgSrate s.cfgGain (imageBytes s))
      (closed (framed (initOpened (openHeader s) s))) := by
  have hclosed := (framed_sinkHolds hpos hout hr).closed
  rw [totalLength, dataLength, framed_initOpened_pos, hpos, openHeader_length] at hclosed
  have htotal : ∀ n : Word32, 0#32 + BitVec.ofNat 32 44 + n - 8#32 = BitVec.ofNat 32 36 + n := fun n => by
    bv_omega
  have hdata : ∀ n : Word32, 0#32 + BitVec.ofNat 32 44 + n - 44#32 = n := fun n => by bv_omega
  rw [htotal, hdata, ← BitVec.ofNat_add] at hclosed
  exact hclosed

/-- Settles O45: the header goes to the empty sink, the samples behind it, and CLOSE writes the lengths. -/
theorem encodeProducesTheTapeFile : Obligations.EncodeProducesTheTapeFile := by
  intro s ha hsrc hsnk hpos hout levels hr
  have hroom : Room ((openHeader s).length + levels.length) s := by
    rw [openHeader_length, Room, hpos]
    simpa using hr
  have hfile := closed_sinkHolds_tapeFile hpos hout hroom
  have hlen : 46 + levels.length = 44 + (levels.length + 2) := by omega
  have hclosed := closed_emit_initOpened levels (lvlAfter false (tapeBits (imageBytes s))) s.inLen
    (s.srcFails.drop s.inLen.toNat) (openHeader s) s
  rw [← framed_initOpened] at hclosed
  rw [exec_accepted ha, runOf, runEncode_done hsrc hsnk hroom, Run.state_done, hclosed, hfile.1,
    hpos, openHeader_length, List.drop_drop, List.drop_drop, hlen, BitVec.ofNat_add, BitVec.zero_add]

/-! ### The size of the file -/

theorem tapeLevels_length (r : Word32) (g : BitVec 3) (image : List Byte) :
    (tapeLevels r g image).length = 2 * nsil r + 255 * (4 * period r false + 8 * period r true) +
      ((8 * image.length - (image.map popcount).sum) * period r false +
        (image.map popcount).sum * (2 * period r true)) := by
  rw [tapeLevels, tapeBits_eq, bitsLevels_append, lvlAfter_leaderBits, List.length_append,
    List.length_append, List.length_append, List.length_replicate, leaderLevels_length, bytesLevels_length]
  ring

theorem popcounts_le (vs : List Byte) : (vs.map popcount).sum ≤ 8 * vs.length :=
  bytesBits_zeros_add_popcounts vs ▸ Nat.le_add_left _ _

/-- The tape of the empty image at the legal rates (43_framing.md R159). -/
theorem emptyTape_size_mem (r : Word32) (hr : r ∈ legalRates) (g : BitVec 3) :
    (r, 44 + (tapeLevels r g []).length) ∈
      [(48000#32, 86372), (44100#32, 78160), (22050#32, 40122), (11025#32, 20592), (8000#32, 13412)] := by
  have hlengths := periodsAndGapsOfTheLegalRates.1
  simp only [List.map_cons, List.cons.injEq, Prod.mk.injEq] at hlengths
  simp only [legalRates, List.mem_cons, List.not_mem_nil, or_false] at hr
  rcases hr with rfl | rfl | rfl | rfl | rfl <;> simp [tapeLevels_length, hlengths]

/-- Settles O25: the file is the header and one byte for each sample. -/
theorem tapeLengthFormula : Obligations.TapeLengthFormula := by
  intro s ha hsrc hsnk hpos hout n1 size
  have hsize : 44 + (tapeLevels s.cfgSrate s.cfgGain (imageBytes s)).length = size := by
    rw [tapeLevels_length, imageBytes_length]
    simp only [size, n1, Nat.add_assoc]
  refine ⟨imageBytes_length s ▸ popcounts_le (imageBytes s), fun hroom => ?_, fun hl hlen => ?_⟩
  · refine ⟨_, encodeProducesTheTapeFile s ha hsrc hsnk hpos hout (hsize ▸ hroom), ?_, ?_⟩
    · simp [State.done, ha.1]
    · have := s.sinkCap.below_limit
      rw [hsize, BitVec.toNat_ofNat, Nat.mod_eq_of_lt (by omega)]
  · rw [launchLegal, Bool.and_eq_true, List.contains_iff_mem] at hl
    have hempty : imageBytes s = [] := List.eq_nil_of_length_eq_zero (by rw [imageBytes_length, hlen]; rfl)
    rw [hempty] at hsize
    rw [← hsize]
    exact emptyTape_size_mem _ hl.1 _

end Sys2Proof.Machine
end

section
/-! PROOFS. What INIT, INSPECT, PAYLOAD and ENCODE do not change, whether or not they raise (43_framing.md R150,
R156, R158, 40_inspector.md R112, 90_conflicts.md C8). -/

namespace Sys2Proof.Machine

variable {s t : State}

/-- What holds before a command, when acceptance raises and after its rule holds after the command. -/
theorem accept_keeps {P : State → Prop} {i : Instr} {run : State → Run} (hrefl : P s)
    (hraise : ∀ c, P { s with fault := true, fcause := c }) (hrun : s.fault = false → P (run s).state) :
    P (accept i run s) := by
  rcases accept_cases i run s with ⟨_, he⟩ | ⟨_, c, _, he⟩ | ⟨hf, _, _, _, _, he⟩ <;> rw [he]
  · exact hrefl
  · exact hraise c
  · exact hrun hf

/-! ### INIT and INSPECT -/

/-- `t` is `s` but for the accumulators, the level flag and the fault registers. -/
def InitFrame (s t : State) : Prop :=
  { t with lp := s.lp, hp := s.hp, lvl := s.lvl, fault := s.fault, fcause := s.fcause } = s

theorem InitFrame.out (h : InitFrame s t) : t.out = s.out := by
  unfold InitFrame at h
  rw [← h]

theorem accept_init_frame (s : State) : InitFrame s (accept .init (runOf .init) s) :=
  accept_keeps rfl (fun _ => rfl) fun _ => rfl

/-- `t` is `s` but for the inspection registers, `IPOS`, the answers to reads and the fault registers; after a
raise the inspection registers too are those of `s`. -/
structure InspectFrame (s t : State) : Prop where
  kept : { t with hdrStat := s.hdrStat, hdrSize := s.hdrSize, ipos := s.ipos, srcFails := s.srcFails,
                  fault := s.fault, fcause := s.fcause } = s
  raised : t.fault = true → t.hdrStat = s.hdrStat ∧ t.hdrSize = s.hdrSize

theorem InspectFrame.out (h : InspectFrame s t) : t.out = s.out := by
  rw [← h.kept]

/-- `t` is `s` with another `IPOS` and other answers to reads. -/
def OnlyRead (s t : State) : Prop := ∃ p l, t = { s with ipos := p, srcFails := l }

theorem OnlyRead.raised (h : OnlyRead s t) (l : List Bool) (c : Cause) :
    InspectFrame s { t with srcFails := l, fault := true, fcause := c } := by
  obtain ⟨p, k, rfl⟩ := h
  exact ⟨rfl, fun _ => ⟨rfl, rfl⟩⟩

theorem OnlyRead.recorded (h : OnlyRead s t) (hf : s.fault = false) (st : HdrStat) (size : Word32) :
    InspectFrame s { t with hdrStat := st, hdrSize := size } := by
  obtain ⟨p, k, rfl⟩ := h
  exact ⟨rfl, fun hr => absurd (hf.symm.trans hr) (by decide)⟩

/-- What holds after reads, whichever of them fails. -/
theorem afterReads_ends {P Q E : State → Prop} {f : State → Run} (hadv : ∀ s, P s → P (advanced s))
    (hE : ∀ s l, P s → E { s with srcFails := l, fault := true, fcause := .inputStreamFailure })
    (hf : ∀ s, P s → (f s).Ends Q E) (n : Nat) : ∀ s, P s → (afterReads n f s).Ends Q E := by
  induction n with
  | zero => exact hf
  | succ n ih =>
    intro s h
    cases ha : nextAnswer s.srcFails with
    | true => exact afterReads_succ_of_fails n ha ▸ hE s _ h
    | false => exact afterReads_succ_of_answers (f := f) n ha ▸ ih _ (hadv s h)

/-- INSPECT only reads before it records its outcome. -/
theorem runInspect_frame (hf : s.fault = false) : (runInspect s).Ends (InspectFrame s) (InspectFrame s) := by
  rw [runInspect_follows_table, tableRun]
  refine afterReads_ends (P := OnlyRead s) ?_ (fun t l h => h.raised l _) ?_ _ _ ⟨_, _, rfl⟩
  · rintro _ ⟨p, l, rfl⟩
    exact ⟨_, _, rfl⟩
  · exact fun t h => h.recorded hf _ _

theorem accept_inspect_frame (s : State) : InspectFrame s (accept .inspect (runOf .inspect) s) :=
  accept_keeps ⟨rfl, fun _ => ⟨rfl, rfl⟩⟩ (fun _ => ⟨rfl, fun _ => ⟨rfl, rfl⟩⟩)
    fun hf => (runInspect_frame hf).state

/-- Settles O54: neither command stores, so `OUT` is one of the fields kept. -/
theorem initAndInspectFrame : Obligations.InitAndInspectFrame := by
  refine ⟨fun s t ht => ?_, fun s t ht => ?_⟩
  · have h : InitFrame s t := accept_of_exec ht ▸ accept_init_frame s
    exact ⟨h, fun a => by rw [h.out]⟩
  · have h : InspectFrame s t := accept_of_exec ht ▸ accept_inspect_frame s
    exact ⟨h.kept, h.raised, fun a => by rw [h.out]⟩

/-! ### Commands that store -/

/-- `t` has the launch and the inspection registers of `s`, and its sink is that of `s` but for bytes appended
to it and for the addresses in `patched`. -/
structure StoreFrame (patched : Nat → Prop) (s t : State) : Prop extends SameLaunch s t where
  hdrStat : t.hdrStat = s.hdrStat
  hdrSize : t.hdrSize = s.hdrSize
  pos_le : s.pos.toNat ≤ t.pos.toNat
  out_outside : ∀ a, a < s.pos.toNat ∨ t.pos.toNat ≤ a → ¬patched a → t.out.read a = s.out.read a

variable {patched : Nat → Prop}

theorem SampleFrame.storeFrame (h : SampleFrame s t) : StoreFrame patched s t :=
  { h with out_outside := fun a ha _ => h.out_outside a ha }

theorem StoreFrame.refl (s : State) : StoreFrame patched s s := (LevelFrame.refl s).toSampleFrame.storeFrame

theorem StoreFrame.sampled {u : State} (h : StoreFrame patched s t) (h' : SampleFrame t u) :
    StoreFrame patched s u where
  cfgSrate := h'.cfgSrate.trans h.cfgSrate
  cfgGain := h'.cfgGain.trans h.cfgGain
  img := h'.img.trans h.img
  inLen := h'.inLen.trans h.inLen
  sinkCap := h'.sinkCap.trans h.sinkCap
  srcPresent := h'.srcPresent.trans h.srcPresent
  snkPresent := h'.snkPresent.trans h.snkPresent
  hostQ := h'.hostQ.trans h.hostQ
  started := h'.started.trans h.started
  hdrStat := h'.hdrStat.trans h.hdrStat
  hdrSize := h'.hdrSize.trans h.hdrSize
  pos_le := h.pos_le.trans h'.pos_le
  out_outside a ha hp := by
    have hle := h.pos_le
    have hle' := h'.pos_le
    rw [h'.out_outside a (by omega), h.out_outside a (by omega) hp]

theorem samplingKeeps_storeFrame (patched : Nat → Prop) (s : State) :
    SamplingKeeps (StoreFrame patched s) (StoreFrame patched s) where
  sample l t h := (sample_sampleFrame l t (LevelFrame.refl t).toSampleFrame).mono
    (fun _ hu => h.sampled hu) fun _ hu => h.sampled hu
  toggle _ h := { h with }
  rewind _ h := { h with }
  read _ h _ := { h with }
  readFails _ h _ := { h with }

theorem samplingKeeps_sess (e : Sess) : SamplingKeeps (·.sess = e) (·.sess = e) where
  sample l t h := sample_ends l t (fun _ _ => h) fun _ => h
  toggle _ h := h
  rewind _ h := h
  read _ h _ := h
  readFails _ h _ := h

/-- Settles O53: PAYLOAD is made of samples, toggles and reads. -/
theorem payloadFrame : Obligations.PayloadFrame := by
  intro s t ht
  have h : StoreFrame (fun _ => False) s t := accept_of_exec ht ▸ accept_keeps (StoreFrame.refl s)
    (fun _ => { StoreFrame.refl s with })
    fun _ => ((samplingKeeps_storeFrame _ s).runPayload_ends (StoreFrame.refl s)).state
  have hsess : t.sess = s.sess := accept_of_exec ht ▸ accept_keeps (P := (·.sess = s.sess)) rfl
    (fun _ => rfl) fun _ => ((samplingKeeps_sess s.sess).runPayload_ends rfl).state
  exact ⟨hsess, h.cfgSrate, h.cfgGain, h.hdrStat, h.hdrSize, h.inLen, h.img, h.sinkCap, h.srcPresent,
    h.snkPresent, h.hostQ, h.started, h.pos_le, fun a ha => h.out_outside a ha id⟩

/-! ### ENCODE -/

/-- The addresses of the two length fields (44_container.md R175). -/
def lengthField (a : Nat) : Prop := (4 ≤ a ∧ a < 8) ∨ (40 ≤ a ∧ a < 44)

theorem runInit_storeFrame (s : State) : (runInit s).Ends (StoreFrame patched s) (StoreFrame patched s) :=
  { StoreFrame.refl s with }

theorem append_storeFrame (b : Byte) (t : State) (h : StoreFrame patched s t) :
    (append b t).Ends (StoreFrame patched s) (StoreFrame patched s) :=
  append_ends_room b t (fun hr => h.sampled ((LevelFrame.refl t).toSampleFrame.appended hr b))
    fun _ => { h with }

theorem runOpen_storeFrame (h : StoreFrame patched s t) :
    (runOpen t).Ends (StoreFrame patched s) (StoreFrame patched s) :=
  (forEachRun_ends append_storeFrame _ t h).andThen fun _ hu => { hu with }

theorem patch_storeFrame {a : Nat} {v : List Byte} (hv : ∀ x, a ≤ x ∧ x < a + v.length → patched x)
    (h : StoreFrame patched s t) : (patch a v t).Ends (StoreFrame patched s) (StoreFrame patched s) :=
  patch_ends a v t
    { h with
      out_outside := fun x hx hp => by
        rw [Memory.read_writeBytes, if_neg (mt (hv x) hp), h.out_outside x hx hp] }
    fun _ => { h with }

theorem runClose_storeFrame (h : StoreFrame lengthField s t) :
    (runClose t).Ends (StoreFrame lengthField s) (StoreFrame lengthField s) :=
  (patch_storeFrame (fun _ => .inl) h).andThen fun _ hu =>
    (patch_storeFrame (fun _ => .inr) hu).andThen fun _ hw => { hw with }

theorem runEncode_storeFrame (s : State) :
    (runEncode s).Ends (StoreFrame lengthField s) (StoreFrame lengthField s) :=
  (samplingKeeps_storeFrame lengthField s).runEncode_ends
    ((runInit_storeFrame s).andThen fun _ => runOpen_storeFrame) fun _ => runClose_storeFrame

/-- Settles O56: OPEN and the samples append, and CLOSE writes the two length fields. -/
theorem encodeFrame : Obligations.EncodeFrame := by
  intro s t ht
  have h : StoreFrame lengthField s t := accept_of_exec ht ▸ accept_keeps (StoreFrame.refl s)
    (fun _ => { StoreFrame.refl s with }) fun _ => (runEncode_storeFrame s).state
  exact ⟨h.cfgSrate, h.cfgGain, h.hdrStat, h.hdrSize, h.inLen, h.img, h.sinkCap, h.srcPresent,
    h.snkPresent, h.hostQ, h.started, h.pos_le,
    fun a ha h4 h40 => h.out_outside a ha (not_or.2 ⟨h4, h40⟩)⟩

end Sys2Proof.Machine
end

section
/-! PROOFS. OPEN and CLOSE: what each leaves when it completes and when a write fails, and what neither changes
(44_container.md R171, R173 to R175, 30_encoding.md R97, 20_memory.md R56, 60_exceptions.md R195). -/

namespace Sys2Proof.Machine

variable {s t : State} {k : Nat} {rest : List Bool}

/-! ### OPEN -/

/-- The placeholder header as 30_encoding.md R97 lists it. -/
theorem openHeader_bytes (s : State) : openHeader s =
    [0x52#8, 0x49#8, 0x46#8, 0x46#8, 0x00#8, 0x00#8, 0x00#8, 0x00#8, 0x57#8, 0x41#8, 0x56#8,
      0x45#8, 0x66#8, 0x6D#8, 0x74#8, 0x20#8, 0x10#8, 0x00#8, 0x00#8, 0x00#8, 0x01#8, 0x00#8,
      0x01#8, 0x00#8] ++ le32 s.cfgSrate ++ le32 s.cfgSrate ++
      [0x01#8, 0x00#8, 0x08#8, 0x00#8, 0x64#8, 0x61#8, 0x74#8, 0x61#8, 0x00#8, 0x00#8, 0x00#8, 0x00#8] := rfl

/-- Settles O30: the header is a string of appends, and `POS` moves by its length. -/
theorem openWritesThePlaceholderHeader : Obligations.OpenWritesThePlaceholderHeader := by
  intro s ha hf hr
  rw [exec_accepted ha, runOf, runOpen_done hf hr, Run.state_done, appendedBytes, openHeader_length,
    openHeader_bytes]

/-- The state left by a string of appends that raises at its append number `k`. -/
def appendRaised (k : Nat) (bs : List Byte) (rest : List Bool) (s : State) : State :=
  { appendedBytes (bs.take k) s with snkFails := rest, fault := true, fcause := .outputStreamFailure }

theorem forEachRun_split {α : Type} (n : Nat) (l : List α) (f : α → State → Run) (s : State) :
    forEachRun l f s = (forEachRun (l.take n) f s).andThen (forEachRun (l.drop n) f) := by
  rw [← forEachRun_append, List.take_append_drop]

/-- A string of appends longer than the sink takes stops at the append that fails. -/
theorem SinkFailsAt.forEachRun_append_raised (h : SinkFailsAt k rest s) {bs : List Byte} (hk : k < bs.length) :
    forEachRun bs append s = .raised (appendRaised k bs rest s) := by
  cases h with
  | stream room answers =>
    -- the first `k + 1` appends raise, and the others are not reached
    have hlen : (bs.take (k + 1)).length = k + 1 := List.length_take_of_le hk
    have hraised := forEachRun_append_fails (bs.take (k + 1)) s k rest (by rw [hlen]; exact room)
      (by omega) answers
    rw [forEachRun_split (k + 1) bs, hraised, Run.raised_andThen, appendRaised, List.take_take,
      Nat.min_eq_left k.le_succ]
  | full full answers left =>
    have hlen : (bs.take k).length = k := List.length_take_of_le hk.le
    have hroom : Room (bs.take k).length s := by rw [hlen]; exact full.le
    have hpos : (appendedBytes (bs.take k) s).pos.toNat = s.sinkCap.size :=
      (room_pos _ s hroom).trans (by rw [hlen, full])
    have hfails : append bs[k] (appendedBytes (bs.take k) s) = .raised (appendRaised k bs rest s) := by
      rw [append_full _ _ hpos.ge, raise, appendRaised, left]
      simp only [appendedBytes, hlen]
    rw [forEachRun_split k bs, forEachRun_append_done _ s answers hroom, Run.done_andThen,
      List.drop_eq_getElem_cons hk, forEachRun_cons, hfails, Run.raised_andThen]

/-- Settles O31: the append that fails ends the header, and the session is not opened. -/
theorem openWriteFailure : Obligations.OpenWriteFailure := by
  intro s k rest ha hk
  have hraised : ∀ rest, SinkFailsAt k rest s →
      exec .openSink s = .next (appendRaised k (openHeader s) rest s) := fun rest h => by
    rw [exec_accepted ha, runOf, runOpen, ← openHeader, h.forEachRun_append_raised (bs := openHeader s) hk,
      Run.raised_andThen, Run.state_raised]
  have hlen : ((openHeader s).take k).length = k := List.length_take_of_le hk.le
  simp only [appendRaised, appendedBytes, hlen] at hraised
  exact ⟨fun hroom hans => hraised rest (.stream hroom hans),
    fun hfull hans => hraised _ (.full hfull hans rfl)⟩

/-! ### CLOSE -/

/-- Settles O32: the state after both patches. -/
theorem closePatchesBothLengths : Obligations.ClosePatchesBothLengths :=
  fun _ ha hf => exec_closeSink_done ha hf

theorem patch_raised (a : Nat) (v : List Byte) (h : nextAnswer s.snkFails = true) :
    patch a v s = .raised
      { s with snkFails := s.snkFails.tail, fault := true, fcause := .outputStreamFailure } := by
  rcases patch_cases a v s with ⟨_, he⟩ | ⟨hf, _⟩
  · exact he
  · exact absurd (h.symm.trans hf) (by decide)

theorem patch_done_of_answer (a : Nat) (v : List Byte) (h : nextAnswer s.snkFails = false) :
    patch a v s = .done { s with out := s.out.writeBytes a v, snkFails := s.snkFails.tail } := by
  rcases patch_cases a v s with ⟨hf, _⟩ | ⟨_, he⟩
  · exact absurd (h.symm.trans hf) (by decide)
  · exact he

/-- Settles O34: CLOSE stops at the patch whose answer is a failure. -/
theorem closeWriteFailure : Obligations.CloseWriteFailure := by
  intro s rest ha
  refine ⟨fun hans => ?_, fun hans => ?_⟩ <;> rw [exec_accepted ha, runOf, runClose]
  · rw [patch_raised 4 _ (by rw [hans]; rfl), Run.raised_andThen, Run.state_raised, hans, List.tail_cons]
  · rw [patch_done_of_answer 4 _ (by rw [hans]; rfl), Run.done_andThen,
      patch_raised 40 _ (by simp only [hans]; rfl), Run.raised_andThen, Run.state_raised, hans]
    rfl

/-! ### What OPEN and CLOSE do not change -/

/-- `t` is `s` with another sink, another `POS` and other answers to writes. -/
def OnlyWritten (s t : State) : Prop := ∃ m p l, t = { s with out := m, pos := p, snkFails := l }

theorem OnlyWritten.refl (s : State) : OnlyWritten s s := ⟨_, _, _, rfl⟩

/-- `t` is `s` but for the sink, `POS`, `SESS`, the answers to writes and the fault registers; after a raise the
session too is that of `s`. -/
structure ContainerFrame (s t : State) : Prop where
  kept : { t with out := s.out, pos := s.pos, sess := s.sess, snkFails := s.snkFails,
                  fault := s.fault, fcause := s.fcause } = s
  raised : t.fault = true → t.sess = s.sess

theorem OnlyWritten.raised (h : OnlyWritten s t) (l : List Bool) (c : Cause) :
    ContainerFrame s { t with snkFails := l, fault := true, fcause := c } := by
  obtain ⟨m, p, l', rfl⟩ := h
  exact ⟨rfl, fun _ => rfl⟩

theorem OnlyWritten.inSess (h : OnlyWritten s t) (hf : s.fault = false) (e : Sess) :
    ContainerFrame s { t with sess := e } := by
  obtain ⟨m, p, l, rfl⟩ := h
  exact ⟨rfl, fun hr => absurd (hf.symm.trans hr) (by decide)⟩

theorem OnlyWritten.written (h : OnlyWritten s t) (m : Memory) (p : Word32) (l : List Bool) :
    OnlyWritten s { t with out := m, pos := p, snkFails := l } := by
  obtain ⟨m', p', l', rfl⟩ := h
  exact ⟨m, p, l, rfl⟩

theorem append_onlyWritten (b : Byte) (t : State) (h : OnlyWritten s t) :
    (append b t).Ends (OnlyWritten s) (ContainerFrame s) :=
  append_ends b t (h.written _ _ _) fun l => h.raised l _

theorem patch_onlyWritten (a : Nat) (v : List Byte) (h : OnlyWritten s t) :
    (patch a v t).Ends (OnlyWritten s) (ContainerFrame s) :=
  patch_ends a v t (h.written _ _ _) fun l => h.raised l _

theorem runOpen_containerFrame (hf : s.fault = false) :
    (runOpen s).Ends (ContainerFrame s) (ContainerFrame s) :=
  (forEachRun_ends append_onlyWritten _ s (.refl s)).andThen fun _ ht => ht.inSess hf _

theorem runClose_containerFrame (hf : s.fault = false) :
    (runClose s).Ends (ContainerFrame s) (ContainerFrame s) :=
  (patch_onlyWritten 4 _ (.refl s)).andThen fun _ ht =>
    (patch_onlyWritten 40 _ ht).andThen fun _ hu => hu.inSess hf _

/-- The patches are no appends (decision D26). -/
theorem runClose_pos (s : State) : (runClose s).Ends (·.pos = s.pos) (·.pos = s.pos) :=
  (patch_ends (Q := (·.pos = s.pos)) 4 _ s rfl fun _ => rfl).andThen fun t ht =>
    (patch_ends (Q := (·.pos = s.pos)) 40 _ t ht fun _ => ht).andThen fun _ hu => hu

theorem exec_keeps {P : State → Prop} {i : Instr} (ht : exec i s = .next t) (hrefl : P s)
    (hraise : ∀ c, P { s with fault := true, fcause := c }) (hrun : s.fault = false → P (runOf i s).state) :
    P t :=
  accept_of_exec ht ▸ accept_keeps hrefl hraise hrun

/-- Settles O55: the appends of OPEN lie from the old `POS` to the new one, the patches of CLOSE in the length
fields, and either sets `SESS` only once nothing can fail. -/
theorem openAndCloseFrame : Obligations.OpenAndCloseFrame := by
  refine ⟨fun s t ht => ?_, fun s t ht => ?_⟩
  · have hk : ContainerFrame s t := exec_keeps ht ⟨rfl, fun _ => rfl⟩ (fun _ => ⟨rfl, fun _ => rfl⟩)
      fun hf => (runOpen_containerFrame hf).state
    have hs : StoreFrame (fun _ => False) s t := exec_keeps ht (.refl s) (fun _ => { StoreFrame.refl s with })
      fun _ => (runOpen_storeFrame (.refl s)).state
    exact ⟨hk.kept, hk.raised, hs.pos_le, fun a ha => hs.out_outside a ha id⟩
  · have hk : ContainerFrame s t := exec_keeps ht ⟨rfl, fun _ => rfl⟩ (fun _ => ⟨rfl, fun _ => rfl⟩)
      fun hf => (runClose_containerFrame hf).state
    have hs : StoreFrame lengthField s t := exec_keeps ht (.refl s) (fun _ => { StoreFrame.refl s with })
      fun _ => (runClose_storeFrame (.refl s)).state
    have hpos : t.pos = s.pos := exec_keeps (P := (·.pos = s.pos)) ht rfl (fun _ => rfl)
      fun _ => (runClose_pos s).state
    have hkept := hk.kept
    rw [← hpos] at hkept
    exact ⟨hkept, hk.raised,
      fun a h4 h40 => hs.out_outside a (hpos ▸ lt_or_ge a s.pos.toNat) (not_or.2 ⟨h4, h40⟩)⟩

end Sys2Proof.Machine
end

section
/-! PROOFS. A faulted block: commands are refused without effect, the host's other moves reach only its inputs,
and RESET starts a new run (60_exceptions.md R197, 70_reset_and_hazards.md R210, R215). -/

namespace Sys2Proof.Machine

variable {s t : State} {m : HostMove} {rest : List HostMove}

/-! ### The moves of the host -/

/-- `t` is `s` but for what the host writes and drives, its queue of moves and the mark of the first command. -/
def OnlyInputsMoved (s t : State) : Prop :=
  ∃ rate gain len img src snk q b,
    t = { s with cfgSrate := rate, cfgGain := gain, inLen := len, img := img, srcPresent := src,
                 snkPresent := snk, hostQ := q, started := b }

theorem rejectWord_of_fault (hf : s.fault = true) : rejectWord s = s :=
  if_pos hf

theorem presentCommand_of_fault {w : CmdWord} (hf : s.fault = true) (ht : presentCommand w s = .next t) :
    t = { s with started := true } := by
  rcases presentCommand_next ht with ⟨i, _, rfl⟩ | ⟨_, _, rfl⟩
  · exact accept_faulted i _ _ hf
  · exact rejectWord_of_fault hf

theorem hostMove_of_fault (hf : s.fault = true) (hm : m ≠ .reset) (ht : hostMove m s = .next t) :
    OnlyInputsMoved s t := by
  cases m with
  | reset => exact absurd rfl hm
  | command w =>
    obtain rfl := presentCommand_of_fault hf ht
    exact ⟨_, _, _, _, _, _, _, _, rfl⟩
  | writeSrate | writeGain | writeInLen | writeImage =>
    obtain ⟨_, rfl⟩ := beforeFirstCommand_next ht
    exact ⟨_, _, _, _, _, _, _, _, rfl⟩
  | drivePins src snk =>
    cases ht
    exact ⟨_, _, _, _, _, _, _, _, rfl⟩

theorem step_of_hostQ_cons (hq : s.hostQ = m :: rest) : step s = hostMove m { s with hostQ := rest } := by
  simp only [step, hq]

theorem step_of_fault (hf : s.fault = true) (hq : s.hostQ = m :: rest) (hm : m ≠ .reset)
    (ht : step s = .next t) : OnlyInputsMoved s t :=
  hostMove_of_fault (s := { s with hostQ := rest }) hf hm (step_of_hostQ_cons hq ▸ ht)

/-- Settles O11: a faulted block refuses the command and no other move of the host but RESET reaches a register
that a command writes. -/
theorem faultIsStickyUntilReset : Obligations.FaultIsStickyUntilReset := by
  refine ⟨fun i s hf => by rw [exec_eq, accept_faulted i _ s hf], fun s t m rest hf hq ht => ?_⟩
  rcases eq_or_ne m .reset with rfl | hm
  · rw [step_reset s rest hq] at ht
    cases ht
    exact ⟨iff_of_true rfl rfl, fun h => absurd rfl h,
      fun _ => ⟨rfl, Memory.read_nil, rfl, rfl, rfl, rfl, rfl, rfl, rfl, rfl, rfl, rfl⟩⟩
  · obtain ⟨_, _, _, _, _, _, _, _, rfl⟩ := step_of_fault hf hq hm ht
    exact ⟨iff_of_false (by simp [hf]) hm,
      fun _ => ⟨rfl, rfl, rfl, rfl, rfl, rfl, rfl, rfl, rfl, rfl⟩, fun hr => absurd hr hm⟩

end Sys2Proof.Machine
end

section
/-! PROOFS. What the host's moves do: its writes of the launch and the image, the pins, and the words it presents
after the end of a run (10_state.md R39, 20_memory.md R53, R66, 30_encoding.md R85, R86, 70_reset_and_hazards.md
R211, R215, R217, R219). -/

namespace Sys2Proof.Machine

variable {s t : State} {m : HostMove} {rest : List HostMove} {w : CmdWord}

/-! ### Words presented after the end -/

theorem done_iff (s : State) : s.done = true ↔ s.sess = .closed ∧ s.fault = false := by
  rw [State.done, Bool.and_eq_true, beq_iff_eq, Bool.not_eq_true']

/-- A presented word of a legal launch goes through acceptance or is no instruction. -/
theorem step_command_cases (hq : s.hostQ = .command w :: rest) (hl : launchLegal s = true) :
    (∃ i, step s = .next (accept i (runOf i) { s with hostQ := rest, started := true })) ∨
      step s = .next (rejectWord { s with hostQ := rest, started := true }) := by
  cases hd : decode w with
  | ok i => exact .inl ⟨i, by rw [step_command_of_decode_ok hq hl hd, exec_eq]⟩
  | error e => exact .inr (step_command_of_decode_error hq hl hd)

theorem step_command_of_fault (hq : s.hostQ = .command w :: rest) (hl : launchLegal s = true)
    (hf : s.fault = true) : step s = .next { s with hostQ := rest, started := true } := by
  rcases step_command_cases hq hl with ⟨i, he⟩ | he
  · exact he.trans (congrArg _ (accept_faulted i _ _ hf))
  · exact he.trans (congrArg _ (rejectWord_of_fault hf))

theorem rejectWord_of_not_fault (hf : s.fault = false) :
    rejectWord s = { s with fault := true, fcause := .illegalCommand } :=
  if_neg (by simp [hf])

/-- The cause a word presented after `DONE` records (70_reset_and_hazards.md R219). -/
def EndCause (c : Cause) : Prop := c = .illegalCommand ∨ c = .sequenceError

/-- No command is legal in `CLOSED` (30_encoding.md R85). -/
theorem accept_of_done (i : Instr) (run : State → Run) (hd : s.done = true) :
    ∃ c, EndCause c ∧ accept i run s = { s with fault := true, fcause := c } := by
  obtain ⟨hs, hf⟩ := (done_iff s).1 hd
  cases hw : i.wellFormed with
  | false => exact ⟨_, .inl rfl, accept_illegalCommand run hf hw⟩
  | true => exact ⟨_, .inr rfl, accept_sequenceError run hf hw (hs ▸ not_legalIn_closed i)⟩

theorem step_command_of_done (hq : s.hostQ = .command w :: rest) (hl : launchLegal s = true)
    (hd : s.done = true) : ∃ c, EndCause c ∧
      step s = .next { s with hostQ := rest, started := true, fault := true, fcause := c } := by
  have hd' : State.done { s with hostQ := rest, started := true } = true := hd
  rcases step_command_cases hq hl with ⟨i, he⟩ | he
  · obtain ⟨c, hc, ha⟩ := accept_of_done i (runOf i) hd'
    exact ⟨c, hc, he.trans (congrArg _ ha)⟩
  · exact ⟨_, .inl rfl, he.trans (congrArg _ (rejectWord_of_not_fault ((done_iff _).1 hd').2))⟩

/-- Settles O12: after `DONE` the word fails the decoder, the operand check or the session check, before any
operation runs. -/
theorem noCommandIsLegalAfterTheEnd : Obligations.NoCommandIsLegalAfterTheEnd := by
  refine ⟨done_iff, fun s w rest hl hq hf => step_command_of_fault hq hl hf, fun s w rest hl hq hd => ?_⟩
  obtain ⟨c, hc, he⟩ := step_command_of_done hq hl hd
  exact ⟨_, he, rfl, rfl, rfl, rfl, rfl, rfl, hc, by simp [State.done]⟩

/-! ### Writes of the host -/

/-- The move `m` is a write that the host may make before the first command only, and makes `t` of `s`. -/
def IsWrite (m : HostMove) (s t : State) : Prop := hostMove m s = beforeFirstCommand s t

theorem step_write_refused (hq : s.hostQ = m :: rest) (hm : IsWrite m { s with hostQ := rest } t)
    (hs : s.started = true) : step s = .refused .writeAfterFirstCommand := by
  rw [step_of_hostQ_cons hq, hm]
  exact if_pos hs

theorem step_write (hq : s.hostQ = m :: rest) (hm : IsWrite m { s with hostQ := rest } t)
    (hs : s.started = false) : step s = .next t := by
  rw [step_of_hostQ_cons hq, hm]
  exact if_neg (by simp [hs])

theorem memRead_writeImage (s : State) (a k : Nat) (b : Byte) :
    memRead { s with img := s.img.write a b } k = if k = a then b else memRead s k := by
  rw [memRead, Memory.read_write]
  split
  next => rfl
  next => rfl

theorem step_of_hostQ_nil (hq : s.hostQ = []) : step s = .next s := by
  simp only [step, hq]

/-- Settles O6: a write is checked against the first command only, and the image reads as it was written. -/
theorem hostMovesKeepTheContract : Obligations.HostMovesKeepTheContract := by
  refine ⟨fun s hq => step_of_hostQ_nil hq, fun s rest m r g n a b hq hm hs => ?_,
    fun s rest hs => ⟨fun r hq => step_write hq rfl hs, fun g hq => step_write hq rfl hs,
      fun n hq => step_write hq rfl hs, fun a b hq => step_write hq rfl hs⟩,
    fun s rest a b hs hq => ⟨_, step_write hq rfl hs, ?_, fun k hk => ?_⟩,
    fun s rest src snk hq => step_of_hostQ_cons hq⟩
  · simp only [List.mem_cons, List.not_mem_nil, or_false] at hm
    rcases hm with rfl | rfl | rfl | rfl <;> exact step_write_refused hq rfl hs
  · exact (memRead_writeImage { s with hostQ := rest } a.toNat a.toNat b).trans (if_pos rfl)
  · exact (memRead_writeImage { s with hostQ := rest } a.toNat k b).trans (if_neg hk)

end Sys2Proof.Machine
end
